-- ==== Sys2Proof/Word.lean ====
section
/-! DEFINITION. The words of LZW-CORE: names for the bit-vector widths the spec uses. Every value of the spec is an
unsigned integer (00_scope.md R10): there is no sign anywhere, so no signed reading of a word is ever taken. -/

namespace Sys2Proof

/-- A data byte or a wire byte, 8 bits (20_memory.md R59). -/
abbrev Byte := BitVec 8

/-- A command token, 10 bits: OP in bits 9..8, DATA in bits 7..0 (30_encoding.md R70). -/
abbrev Token := BitVec 10

/-- A code, `0 ≤ code < 4096`, held zero-extended to 12 bits (30_encoding.md R75, R81). -/
abbrev Code := BitVec 12

/-- A next-free-code counter, 13 bits (10_state.md R24). -/
abbrev FreeCode := BitVec 13

/-- A bit accumulator of the Bit Channel, 19 bits (10_state.md R28, R33). -/
abbrev Accumulator := BitVec 19

/-- The number of valid low bits of an accumulator, 5 bits (10_state.md R28, R33). -/
abbrev BitCount := BitVec 5

/-- A status word, 32 bits (10_state.md R36 to R38). -/
abbrev StatusWord := BitVec 32

end Sys2Proof
end

