-- ==== Sys2Proof/Config.lean ====
section
/-! DEFINITION. The constants of the one codec variant (00_scope.md R8). They are fixed: the block has no
configuration inputs (00_scope.md R3), so nothing here is a parameter and no value of the model is left free here. The
free storage choices of 00_scope.md R9 are not observable and are declared in log entries 11 and 13. -/

namespace Sys2Proof.Config

/-- Codes `0` to `255` stand for the single bytes (R8 `LITERALS`). -/
def literals : Nat := 256

/-- The CLEAR_TABLE control code (R8 `CLEAR`). -/
def clearCode : Code := 256#12

/-- The END_OF_DATA control code (R8 `EOD`). -/
def eodCode : Code := 257#12

/-- The next free code after a table reset (R8 `FIRST_FREE`). -/
def firstFree : FreeCode := 258#13

/-- The table size; codes are `0` to `4095` (R8 `CAPACITY`). -/
def capacity : FreeCode := 4096#13

/-- The encoder's proactive clear threshold (R8 `CLEAR_AT`). -/
def clearAt : FreeCode := 4095#13

/-- The longest byte sequence the decode table can hold (00_scope.md R9). -/
def longestSequence : Nat := 3839

end Sys2Proof.Config
end

