-- ==== Sys2Proof/Syntax.lean ====
section
/-! DEFINITION. The instructions of LZW-CORE, one constructor per row of spec/opcode_table.json, and the small types
their operands and classes are made of. Three formats stand there: 10-bit command tokens the host sends, wire codes the
decoder executes, and internal micro-operations, which have no encoding. -/

namespace Sys2Proof

/-- The two units (00_scope.md R4). A command token's port decides which one executes it (30_encoding.md R70). -/
inductive UnitId where
  | enc
  | dec
  deriving DecidableEq, Repr

/-- A code width: 9 to 12 bits, and no other (30_encoding.md R74, 41_code_table.md R123). -/
inductive CodeWidth where
  | w9
  | w10
  | w11
  | w12
  deriving DecidableEq, Repr

/-- How many bits a code of this width has. -/
def CodeWidth.bits : CodeWidth → Nat
  | .w9 => 9
  | .w10 => 10
  | .w11 => 11
  | .w12 => 12

/-- A node of the encode trie: ROOT, which has no code, or a node named by its code (10_state.md R25). -/
inductive NodeId where
  | root
  | code (c : Code)
  deriving DecidableEq, Repr

/-- A non-empty byte sequence, its first byte apart: every sequence a table slot, DEC.prev or a resolved code holds has
at least one byte (10_state.md R31, 20_memory.md R56), so its first byte `s[0]` always exists (00_scope.md R11). -/
structure ByteSeq where
  head : Byte
  tail : List Byte
  deriving DecidableEq, Repr

/-- What follows the byte an ENC_STEP processes: the next input byte, or END (44_encoder.md R186). -/
inductive Lookahead where
  | byte (x : Byte)
  | endOfData
  deriving DecidableEq, Repr

/-- ADD_ENTRY's payload, which also says whose table gains the entry: for ENC a trie edge `(n, b)`, for DEC a byte
sequence (41_code_table.md R124). -/
inductive Payload where
  | edge (n : NodeId) (b : Byte)
  | sequence (s : ByteSeq)
  deriving DecidableEq, Repr

/-- DEC.state (10_state.md R30). It stands here because the class of a wire code depends on it (30_encoding.md R77). -/
inductive DecState where
  | idle
  | awaitFirst
  | steady
  | done
  deriving DecidableEq, Repr

/-- The eight classes of wire codes, the decoder's opcode map (30_encoding.md R77). -/
inductive CodeClass where
  | eod
  | clear
  | litFirst
  | invalidFirst
  | lit
  | dict
  | kwkwk
  | invalid
  deriving DecidableEq, Repr

/-- The instructions: one constructor per row of spec/opcode_table.json, in the table's order. -/
inductive Instr where
  -- command tokens (format token10)
  | encByte (x : Byte)
  | encEnd
  | encStart
  | decByte (x : Byte)
  | decEnd
  | decStart
  | reservedOp3 (u : UnitId) (data : Byte)
  | reservedEndData (u : UnitId) (data : Byte)
  | reservedStartData (u : UnitId) (data : Byte)
  -- wire codes (format wirecode)
  | eod
  | clear
  | litFirst (v : Code)
  | invalidFirst (v : Code)
  | lit (v : Code)
  | dict (v : Code)
  | kwkwk (v : Code)
  | invalid (v : Code)
  -- internal micro-operations (format internal)
  | put (v : Code) (w : CodeWidth)
  | flush
  | fill (x : Byte)
  | get (w : CodeWidth)
  | tableReset (u : UnitId)
  | addEntry (p : Payload)
  | childNodeB (n : NodeId) (b : Byte)
  | childNodeS (n : NodeId) (s : List Byte)
  | getNode (s : List Byte)
  | visit (b : Byte)
  | bytesFor (c : Code)
  | addDec (p : ByteSeq) (s : ByteSeq)
  | encStep (b : Byte) (la : Lookahead)
  | decExec (v : Code) (w : CodeWidth)
  | steadyTail (s : ByteSeq)
  deriving DecidableEq, Repr

end Sys2Proof
end

