-- ==== Sys2Proof/Machine/State.lean ====
section
/-! DEFINITION. The state of LZW-CORE (10_state.md): the two units, each with its output port, the commands waiting on
the command ports, and the reasons a step can stop. A state is plain data. -/

namespace Sys2Proof.Machine

/-- A memory: (address, contents) pairs in one canonical form, addresses strictly rising. The encode trie and the decode
table are two such memories (20_memory.md R55, R56); the block has no addressable memory besides (R61). -/
abbrev Memory (α : Type) := List (Nat × α)

/-- ENC.state (10_state.md R22). -/
inductive EncState where
  | idle
  | accumulating
  | eof
  deriving DecidableEq, Repr

/-- ENC.fault (10_state.md R23). -/
inductive EncFault where
  | none
  | tableOverflow
  deriving DecidableEq, Repr

/-- DEC.fault (10_state.md R30). -/
inductive DecFault where
  | none
  | corruptStream
  | tableOverflow
  deriving DecidableEq, Repr

/-- DEC.cause (10_state.md R30); `invalidCode` is the value 0. -/
inductive Cause where
  | invalidCode
  | truncated
  deriving DecidableEq, Repr

/-- The contents of a decode-table slot: a byte sequence or the mark CONTROL (10_state.md R32). -/
inductive Slot where
  | bytes (s : ByteSeq)
  | control
  deriving DecidableEq, Repr

/-- DEC.last, the last code the decoder took (10_state.md R34). -/
structure LastCode where
  value : Code
  width : BitVec 4
  valid : Bool
  deriving DecidableEq, Repr

/-- The encoder unit ENC (10_state.md R22 to R28) with its output port `enc_out` (R35). -/
structure Enc where
  state   : EncState
  fault   : EncFault
  nf      : FreeCode
  width   : CodeWidth
  cur     : NodeId
  pending : Option Byte
  /-- The stored edges: the address of edge `(n, b)` is `256 * n + b`. ROOT's fixed edges are not stored (R55). -/
  trie    : Memory Code
  pkAcc   : Accumulator
  pkCnt   : BitCount
  /-- `enc_out`: every byte emitted since reset, in order; nothing is ever taken back (20_memory.md R57). -/
  out     : List Byte
  deriving DecidableEq, Repr

/-- The decoder unit DEC (10_state.md R29 to R34) with its output port `dec_out` (R35). -/
structure Dec where
  state : DecState
  fault : DecFault
  cause : Cause
  nf    : FreeCode
  width : CodeWidth
  prev  : Option ByteSeq
  /-- The slots whose contents differ from what an unwritten slot holds: the address of a slot is its code. Every one of
  the 4096 slots has contents (`tabRead`); slots 0 to 257 are fixed and not stored (R56, R161). -/
  tab   : Memory ByteSeq
  upAcc : Accumulator
  upCnt : BitCount
  last  : LastCode
  /-- `dec_out`: every byte emitted since reset, in order; nothing is ever taken back (20_memory.md R57). -/
  out   : List Byte
  deriving DecidableEq, Repr

/-- What the host can do to the block: put a token on a unit's command port, or assert `rst` (10_state.md R35). -/
inductive Input where
  | token (u : UnitId) (t : Token)
  | rst
  deriving DecidableEq, Repr

/-- The value that a micro-operation executed on its own returns. -/
inductive Returned where
  | code (v : Code)
  | slot (c : Code)
  | child (c : Option Code)
  | node (n : Option NodeId)
  | grew (g : Bool)
  | bytes (s : ByteSeq)
  deriving DecidableEq, Repr

/-- The machine. -/
structure State where
  enc      : Enc
  dec      : Dec
  /-- What the host has sent and the block has not yet taken: `enc_cmd`, `dec_cmd` and `rst` in the order the host gives
  them, which is one interleaving of the two units' commands (60_exceptions.md R252; DESIGN CHOICE, unsafe, log entry
  2). -/
  input    : List Input
  /-- The model's own field: the value returned by the last micro-operation that exec ran on its own. No command of
  the ports reads or writes it, so nothing of the block depends on it (DESIGN CHOICE, log entry 7). -/
  returned : Option Returned
  deriving DecidableEq, Repr

/-- Why the machine stops where the spec gives no effect. This is a stuck state no run reaches; a fault of the
spec is no such stop but a next state with the unit's fault field set (60_exceptions.md R240). It is safe (DESIGN
CHOICE, log entries 4 and 9). -/
inductive Fault where
  /-- Raised by STEADY_TAIL and KWKWK when DEC.prev is NONE: there is no previous sequence to extend, and in STEADY
  there always is one (10_state.md R31); safe. -/
  | noPreviousSequence
  deriving DecidableEq, Repr

/-- Why an instruction has no step: a refusal leaves the state as it is (00_scope.md R14, 60_exceptions.md R246). All
are safe: nothing can be proved of a run that goes through one (log entries 3 and 8). -/
inductive Refusal where
  /-- Raised by exec's arm of an instruction that has no meaning yet; safe. -/
  | notModelled (mnemonic : String)
  /-- Raised by a token with OP = 11, or with OP 01 or 10 and DATA other than 0 (30_encoding.md R73); safe. -/
  | reservedToken
  /-- Raised by ENC_BYTE and ENC_END in IDLE or EOF (44_encoder.md R187); safe. -/
  | encNotAccumulating
  /-- Raised by ENC_BYTE and ENC_END while ENC.fault is set (44_encoder.md R187); safe. -/
  | encFaulted
  /-- Raised by DEC_BYTE and DEC_END in IDLE (45_decoder.md R217); safe. -/
  | decIdle
  /-- Raised by DEC_BYTE and DEC_END while DEC.fault is set (45_decoder.md R217); safe. -/
  | decFaulted
  /-- Raised by ENC_STEP if the current run were empty after VISIT: ROOT has no code (42_encode_dictionary.md R142).
  VISIT never leaves the run empty, so it is never raised; safe. -/
  | rootHasNoCode
  /-- Raised by ADD_ENTRY with an edge of ROOT: ROOT's edges are fixed and never written (20_memory.md R55); safe. -/
  | fixedEdge
  /-- Raised by a wire code executed where the class table does not give it that class, or where DEC executes no code
  (30_encoding.md R77, 45_decoder.md R218); safe. -/
  | codeNotOfThisClass
  /-- Raised by BYTES_FOR outside its precondition (43_decode_dictionary.md R160); safe. -/
  | noSuchSequence
  /-- Raised by GET when fewer bits are held than the code has (40_bit_channel.md R104); safe. -/
  | codeIncomplete
  deriving DecidableEq, Repr

/-- ENC after hardware reset (10_state.md R44). The trie's contents are unspecified there; the model stores no edge
(DESIGN CHOICE, unsafe, log entry 1). -/
def Enc.reset : Enc where
  state := .idle
  fault := .none
  nf := 258#13
  width := .w9
  cur := .root
  pending := none
  trie := []
  pkAcc := 0#19
  pkCnt := 0#5
  out := []

/-- DEC after hardware reset (10_state.md R44). The table's contents are unspecified there; in the model every slot
from 258 on holds what an unwritten slot holds, `unwrittenSlot` (DESIGN CHOICE, unsafe, log entry 1). -/
def Dec.reset : Dec where
  state := .idle
  fault := .none
  cause := .invalidCode
  nf := 258#13
  width := .w9
  prev := none
  tab := []
  upAcc := 0#19
  upCnt := 0#5
  last := ⟨0#12, 0#4, false⟩
  out := []

/-- The machine right after hardware reset (10_state.md R44), with nothing sent by the host yet. -/
def State.reset : State where
  enc := Enc.reset
  dec := Dec.reset
  input := []
  returned := none

end Sys2Proof.Machine
end

