-- ==== Sys2Proof/Machine/Operands.lean ====
section
/-! DEFINITION. Operand forms: byte sequences (00_scope.md R11), the addresses of trie edges and table slots
(20_memory.md R55, R56), bytes and counters read as codes (30_encoding.md R81), and the codes of the control-state
fields in the status words (10_state.md R22, R23, R30). -/

namespace Sys2Proof

/-- All bytes of a sequence, first byte first. -/
def ByteSeq.bytes (s : ByteSeq) : List Byte := s.head :: s.tail

/-- The sequence `[b]` of one byte (R11). -/
def ByteSeq.single (b : Byte) : ByteSeq := ⟨b, []⟩

/-- The sequence `s ++ [b]` (R11). -/
def ByteSeq.snoc (s : ByteSeq) (b : Byte) : ByteSeq := ⟨s.head, s.tail ++ [b]⟩

end Sys2Proof

namespace Sys2Proof.Machine

/-- A byte as the code of its literal (30_encoding.md R75, `zext_12`). -/
def literalCode (b : Byte) : Code := b.setWidth 12

/-- The byte a literal code stands for (30_encoding.md R75). -/
def literalByte (v : Code) : Byte := v.setWidth 8

/-- The slot that a next free code below 4096 names (41_code_table.md R124). -/
def slotCode (nf : FreeCode) : Code := nf.setWidth 12

/-- The trie address of the edge `(n, b)` of the node named by code `n` (20_memory.md R55). -/
def edgeAddress (n : Code) (b : Byte) : Nat := 256 * n.toNat + b.toNat

/-- The value of ENC.state in the status word (10_state.md R22). -/
def EncState.value : EncState → BitVec 2
  | .idle => 0#2
  | .accumulating => 1#2
  | .eof => 2#2

/-- The value of ENC.fault in the status word (10_state.md R23). -/
def EncFault.value : EncFault → BitVec 2
  | .none => 0#2
  | .tableOverflow => 1#2

/-- The value of DEC.state in the status word (10_state.md R30). -/
def decStateValue : DecState → BitVec 2
  | .idle => 0#2
  | .awaitFirst => 1#2
  | .steady => 2#2
  | .done => 3#2

/-- The value of DEC.fault in the status word (10_state.md R30). -/
def DecFault.value : DecFault → BitVec 2
  | .none => 0#2
  | .corruptStream => 1#2
  | .tableOverflow => 2#2

/-- The value of DEC.cause in the status word (10_state.md R30). -/
def Cause.value : Cause → BitVec 1
  | .invalidCode => 0#1
  | .truncated => 1#1

/-- A code width as the 4-bit field CODE_WIDTH and as the width part of DEC.last (10_state.md R24, R34). -/
def widthValue (w : CodeWidth) : BitVec 4 := BitVec.ofNat 4 w.bits

end Sys2Proof.Machine
end

