-- ==== Sys2Proof/Machine/Ops.lean ====
section
/-! DEFINITION. The named operations every meaning is built from: how an operation ends, memory access, fault entry and
its clearing, the trie and table accessors, the output ports, the Bit Channel, the code-table bookkeeping, reset. -/

namespace Sys2Proof.Machine

/-! ## How an operation ends -/

/-- How an operation of a unit ends (00_scope.md R14): it returns a value, or it raised a fault of the spec and the rest
of the step does not run (60_exceptions.md R240), or it cannot go on, or the command is refused. -/
inductive Flow (σ α : Type) where
  | ok (a : α) (u : σ)
  | raised (u : σ)
  | stuck (f : Fault)
  | refuse (r : Refusal)
  deriving DecidableEq, Repr

/-- Goes on with `k` where an operation returned a value; a raise, a stuck state and a refusal end the step. -/
def Flow.bind {σ α β : Type} (x : Flow σ α) (k : α → σ → Flow σ β) : Flow σ β :=
  match x with
  | .ok a u => k a u
  | .raised u => .raised u
  | .stuck f => .stuck f
  | .refuse r => .refuse r

/-- A unit's operation as a step of the machine: a raise ends the step in a next state, with the writes made before it
kept (60_exceptions.md R248). -/
def Flow.toOutcome {σ α : Type} (x : Flow σ α) (done : α → σ → State) (raise : σ → State) :
    Host.Outcome State Fault Refusal :=
  match x with
  | .ok a u => .next (done a u)
  | .raised u => .next (raise u)
  | .stuck f => .fault f
  | .refuse r => .refused r

/-- The machine with another ENC. -/
def State.withEnc (s : State) (e : Enc) : State := { s with enc := e }

/-- The machine with another DEC. -/
def State.withDec (s : State) (d : Dec) : State := { s with dec := d }

/-- The machine with the value a micro-operation returned. -/
def State.withReturned (s : State) (r : Option Returned) : State := { s with returned := r }

/-- The machine with other commands waiting. -/
def State.withInput (s : State) (inputs : List Input) : State := { s with input := inputs }

/-- An operation of ENC that returns nothing, as a step of the machine. -/
def onEnc (f : Enc → Flow Enc Unit) (s : State) : Host.Outcome State Fault Refusal :=
  (f s.enc).toOutcome (fun _ e => s.withEnc e) (fun e => s.withEnc e)

/-- An operation of DEC that returns nothing, as a step of the machine. -/
def onDec (f : Dec → Flow Dec Unit) (s : State) : Host.Outcome State Fault Refusal :=
  (f s.dec).toOutcome (fun _ d => s.withDec d) (fun d => s.withDec d)

/-- A micro-operation of ENC that returns a value; where it raises, none is returned. -/
def onEncReturning {α : Type} (f : Enc → Flow Enc α) (r : α → Returned) (s : State) :
    Host.Outcome State Fault Refusal :=
  (f s.enc).toOutcome (fun a e => (s.withEnc e).withReturned (some (r a)))
    (fun e => (s.withEnc e).withReturned none)

/-- A micro-operation of DEC that returns a value; where it raises, none is returned. -/
def onDecReturning {α : Type} (f : Dec → Flow Dec α) (r : α → Returned) (s : State) :
    Host.Outcome State Fault Refusal :=
  (f s.dec).toOutcome (fun a d => (s.withDec d).withReturned (some (r a)))
    (fun d => (s.withDec d).withReturned none)

/-! ## Memory -/

/-- The contents listed at an address. -/
def Memory.get {α : Type} (k : Nat) : Memory α → Option α
  | [] => none
  | (k', v) :: rest => if k' = k then some v else Memory.get k rest

/-- Stores at an address, keeping the addresses strictly rising. -/
def Memory.set {α : Type} (k : Nat) (v : α) : Memory α → Memory α
  | [] => [(k, v)]
  | (k', v') :: rest =>
    if k < k' then (k, v) :: (k', v') :: rest
    else if k = k' then (k, v) :: rest
    else (k', v') :: Memory.set k v rest

/-- Takes an address out of the list. -/
def Memory.erase {α : Type} (k : Nat) (t : Memory α) : Memory α := t.filter fun p => decide (p.1 ≠ k)

/-- What a slot from 258 on holds that nothing has written since the last reset of the table or the last `rst`: the
one-byte sequence 00. The spec lets such a slot hold anything (10_state.md R44, 43_decode_dictionary.md R161,
93_implementation_defined.md I2 and I3); this one value is the model's (DESIGN CHOICE, unsafe, log entry 1). -/
def unwrittenSlot : ByteSeq := ByteSeq.single 0x00#8

/-- The addresses of a memory rise strictly, and lie in `lo ≤ address < hi`. -/
def Memory.rising {α : Type} (lo hi : Nat) : Memory α → Bool
  | [] => true
  | (k, _) :: rest => decide (lo ≤ k) && decide (k < hi) && Memory.rising (k + 1) hi rest

/-- The canonical form of the trie: addresses of edges of non-root nodes, strictly rising. An unlisted edge reads as
NONE, which no entry can hold, so equal tries are equal lists. -/
def Memory.trieWf (t : Memory Code) : Bool := Memory.rising 0 (256 * 4096) t

/-- The canonical form of the table: slots 258 to 4095, strictly rising, none listed with what an unlisted slot holds. The
fixed slots 0 to 257 are never listed. So equal tables are equal lists. -/
def Memory.tabWf (t : Memory ByteSeq) : Bool :=
  Memory.rising 258 4096 t && t.all fun p => decide (p.2 ≠ unwrittenSlot)

/-- Both memories are in canonical form. -/
def Memory.wf (s : State) : Bool := Memory.trieWf s.enc.trie && Memory.tabWf s.dec.tab

/-! ## Taking a fault, and leaving it (60_exceptions.md R240, R249) -/

/-- Fault entry in ENC (R240): the fault field takes the kind. Nothing else changes, the state field included: the
status word shows the state the fault happened in. -/
def Enc.enterFault (kind : EncFault) (e : Enc) : Enc := { e with fault := kind }

/-- Fault entry in DEC (R240): the fault field takes the kind, and the cause is kept for a CorruptStream and is 0 else.
Nothing else changes, the state field included. -/
def Dec.enterFault (kind : DecFault) (cause : Cause) (d : Dec) : Dec :=
  { d with fault := kind, cause := if kind = .corruptStream then cause else .invalidCode }

/-- `raise Fault(kind)` in ENC: the step ends there, the writes made before it kept (R240, R248). -/
def raiseEnc {α : Type} (kind : EncFault) (e : Enc) : Flow Enc α := .raised (e.enterFault kind)

/-- `raise Fault(kind, cause)` in DEC: the step ends there, the writes made before it kept (R240, R248). -/
def raiseDec {α : Type} (kind : DecFault) (cause : Cause) (d : Dec) : Flow Dec α := .raised (d.enterFault kind cause)

/-- Leaving a fault in ENC: START clears it (R249); there is no return and no resume. -/
def Enc.clearFault (e : Enc) : Enc := { e with fault := .none }

/-- Leaving a fault in DEC: START clears it and its cause (R249, 45_decoder.md R214). -/
def Dec.clearFault (d : Dec) : Dec := { d with fault := .none, cause := .invalidCode }

/-! ## Output ports (00_scope.md R13, 20_memory.md R57) -/

/-- `EmitWire(x)`: appends a byte to `enc_out`. -/
def emitWire (x : Byte) (e : Enc) : Enc := { e with out := e.out ++ [x] }

/-- `EmitData(s)`: appends the bytes of a sequence to `dec_out`, in order. -/
def emitData (s : ByteSeq) (d : Dec) : Dec := { d with out := d.out ++ s.bytes }

/-! ## The trie and the table (20_memory.md R55, R56) -/

/-- `TrieChild(n, b)`: ROOT's child along `b` is the literal `b`, fixed; a non-root node's is the code stored for the
edge, or NONE. -/
def trieChild (t : Memory Code) (n : NodeId) (b : Byte) : Option Code :=
  match n with
  | .root => some (literalCode b)
  | .code c => Memory.get (edgeAddress c b) t

/-- `TrieSetChild(n, b, c)` of the non-root node named by `n`. That `n` is a node and the edge is not stored yet is its
callers' to see (R55; log entry 20). -/
def trieSetChild (n : Code) (b : Byte) (c : Code) (t : Memory Code) : Memory Code :=
  Memory.set (edgeAddress n b) c t

/-- `TabRead(c)`: every slot holds a sequence or CONTROL. A literal's slot holds its byte, in every generation
(30_encoding.md R75 "immutable"), slots 256 and 257 hold CONTROL, and a slot above holds the sequence written since the
last reset of the table, or what an unwritten slot holds (DESIGN CHOICE, unsafe, log entries 1 and 11). -/
def tabRead (t : Memory ByteSeq) (c : Code) : Slot :=
  if c.toNat < 256 then .bytes (ByteSeq.single (literalByte c))
  else if c.toNat < 258 then .control
  else .bytes ((Memory.get c.toNat t).getD unwrittenSlot)

/-- `TabWrite(c, s)`: the slot holds the sequence from then on. The fixed slots 0 to 257 keep their contents, as literals
are immutable and codes 256 and 257 are never assigned (30_encoding.md R75, R79). -/
def tabWrite (c : Code) (s : ByteSeq) (t : Memory ByteSeq) : Memory ByteSeq :=
  if c.toNat < 258 then t
  else if s = unwrittenSlot then Memory.erase c.toNat t
  else Memory.set c.toNat s t

/-! ## The Bit Channel (40_bit_channel.md) -/

/-- PUT's loop (R101): while 8 or more bits are held, the low 8 go out as a byte. A 5-bit count passes the test at most
three times, so `fuel` 4 is never used up. -/
def drain : Nat → Enc → Enc
  | 0, e => e
  | fuel + 1, e =>
    if 8 ≤ e.pkCnt.toNat then
      let sent := emitWire (e.pkAcc.setWidth 8) e
      drain fuel { sent with pkAcc := sent.pkAcc >>> 8, pkCnt := sent.pkCnt - 8#5 }
    else e

/-- PUT(v, w): the code's bits go above the bits held (R101). -/
def put (v : Code) (w : CodeWidth) (e : Enc) : Enc :=
  drain 4
    { e with
      pkAcc := e.pkAcc ||| (v.setWidth 19 <<< e.pkCnt.toNat)
      pkCnt := e.pkCnt + BitVec.ofNat 5 w.bits }

/-- FLUSH: the last partial byte goes out, its upper bits as they stand, which is 0 (R102). -/
def flushBits (e : Enc) : Enc :=
  let sent := if 0 < e.pkCnt.toNat then emitWire (e.pkAcc.setWidth 8) e else e
  { sent with pkAcc := 0#19, pkCnt := 0#5 }

/-- FILL(x): the byte's bits go above the bits held (R103). -/
def fillByte (x : Byte) (d : Dec) : Dec :=
  { d with
    upAcc := d.upAcc ||| (x.setWidth 19 <<< d.upCnt.toNat)
    upCnt := d.upCnt + 8#5 }

/-- GET(w): takes the low `w` bits as a code. Its precondition is that so many are held; a code that is not all there is
not taken (R104). -/
def getCode (w : CodeWidth) (d : Dec) : Flow Dec Code :=
  if w.bits ≤ d.upCnt.toNat then
    .ok (BitVec.ofNat 12 (d.upAcc.toNat % 2 ^ w.bits))
      { d with upAcc := d.upAcc >>> w.bits, upCnt := d.upCnt - BitVec.ofNat 5 w.bits }
  else .refuse .codeIncomplete

/-! ## Code table bookkeeping (41_code_table.md) -/

/-- The width function `W(n)` (R123). -/
def widthFor (n : Nat) : CodeWidth :=
  if n < 512 then .w9 else if n < 1024 then .w10 else if n < 2048 then .w11 else .w12

/-- The as-of-increment offset of a unit's width schedule: `off(ENC) = 0`, `off(DEC) = 1` (R124). -/
def scheduleOffset : UnitId → Nat
  | .enc => 0
  | .dec => 1

/-- The width a unit's bookkeeping has at a next free code: `W(nf + off(U))` (R125, R126). -/
def scheduledWidth (u : UnitId) (nf : FreeCode) : CodeWidth := widthFor (nf.toNat + scheduleOffset u)

/-- TABLE_RESET(ENC): next free code 258, width 9, no stored edge (R120, 42_encode_dictionary.md R144). -/
def resetEncTable (e : Enc) : Enc := { e with nf := Config.firstFree, width := .w9, trie := [] }

/-- TABLE_RESET(DEC): next free code 258, width 9, every slot from 258 on holding what an unwritten slot holds (R120,
43_decode_dictionary.md R161, which lets stale contents stay there; DESIGN CHOICE, unsafe, log entry 11). -/
def resetDecTable (d : Dec) : Dec := { d with nf := Config.firstFree, width := .w9, tab := [] }

/-- ADD_ENTRY(ENC, (n, b)): the edge gains the next free code, unless the table is full (R124). The rules call it only
for a node of the trie and an edge not stored yet (20_memory.md R55). Run on its own with a parent that is no node (256,
257, a code not assigned) or with an edge already stored, it stores and overwrites all the same (DESIGN CHOICE, unsafe,
log entry 20); with ROOT as the parent it is refused (log entry 8). -/
def addEdge (n : NodeId) (b : Byte) (e : Enc) : Flow Enc Code :=
  if e.nf = Config.capacity then raiseEnc .tableOverflow e
  else
    match n with
    | .root => .refuse .fixedEdge
    | .code c =>
      .ok (slotCode e.nf)
        { e with
          trie := trieSetChild c b (slotCode e.nf) e.trie
          nf := e.nf + 1#13
          width := scheduledWidth .enc (e.nf + 1#13) }

/-- ADD_ENTRY(DEC, s): the next free slot gains the sequence, unless the table is full (R124). -/
def addSequence (s : ByteSeq) (d : Dec) : Flow Dec Code :=
  if d.nf = Config.capacity then raiseDec .tableOverflow .invalidCode d
  else
    .ok (slotCode d.nf)
      { d with
        tab := tabWrite (slotCode d.nf) s d.tab
        nf := d.nf + 1#13
        width := scheduledWidth .dec (d.nf + 1#13) }

/-! ## Encode dictionary (42_encode_dictionary.md) -/

/-- CHILD_NODE(n, s): walks the trie along a sequence, NONE at the first missing link (R141). -/
def walk (t : Memory Code) (n : NodeId) : List Byte → Option NodeId
  | [] => some n
  | b :: rest =>
    match trieChild t n b with
    | none => none
    | some c => walk t (.code c) rest

/-- GET_NODE(s): the walk from ROOT (R142). -/
def nodeOf (t : Memory Code) (s : List Byte) : Option NodeId := walk t .root s

/-- VISIT(b): extends the match, or learns the run and restarts it at `b`; the value is `grew` (R143). -/
def visitByte (b : Byte) (e : Enc) : Flow Enc Bool :=
  match trieChild e.trie e.cur b with
  | some c => .ok false { e with cur := .code c }
  | none =>
    (addEdge e.cur b e).bind fun _ e1 => .ok true { e1 with cur := .code (literalCode b) }

/-! ## Decode dictionary (43_decode_dictionary.md) -/

/-- BYTES_FOR(c): the sequence of a code of the table. Its precondition is a literal or an assigned code, whose slots
never hold CONTROL; a code that breaks it never reaches it and is refused (R160; DESIGN CHOICE, log entry 8). -/
def sequenceFor (c : Code) (d : Dec) : Flow Dec ByteSeq :=
  if c.toNat < 256 ∨ (258 ≤ c.toNat ∧ c.toNat < d.nf.toNat) then
    match tabRead d.tab c with
    | .bytes s => .ok s d
    | .control => .refuse .noSuchSequence
  else .refuse .noSuchSequence

/-- ADD_DEC(p, s): learns `p ++ [s[0]]` (R162). -/
def learn (p s : ByteSeq) (d : Dec) : Flow Dec Unit :=
  (addSequence (p.snoc s.head) d).bind fun _ d1 => .ok () d1

/-! ## Hardware reset (70_reset_and_hazards.md R270) -/

/-- `rst`: both units take the values of 10_state.md R44. Nothing is emitted, and what was emitted stays emitted. -/
def hardReset (s : State) : State :=
  { s with
    enc := { Enc.reset with out := s.enc.out }
    dec := { Dec.reset with out := s.dec.out }
    returned := none }

end Sys2Proof.Machine
end

