-- ==== Sys2Proof/Machine/BitChannel.lean ====
section
/-! DEFINITION. The meanings of the Bit Channel's micro-operations PUT, FLUSH, FILL and GET (40_bit_channel.md). -/

namespace Sys2Proof.Machine

/-- PUT(v, w) (R101). -/
def execPut (v : Code) (w : CodeWidth) (s : State) : Host.Outcome State Fault Refusal :=
  onEnc (fun e => .ok () (put v w e)) s

/-- FLUSH (R102). -/
def execFlush (s : State) : Host.Outcome State Fault Refusal := onEnc (fun e => .ok () (flushBits e)) s

/-- FILL(x) (R103). -/
def execFill (x : Byte) (s : State) : Host.Outcome State Fault Refusal := onDec (fun d => .ok () (fillByte x d)) s

/-- GET(w), which returns the code taken (R104). -/
def execGet (w : CodeWidth) (s : State) : Host.Outcome State Fault Refusal := onDecReturning (getCode w) .code s

end Sys2Proof.Machine
end

