-- ==== Sys2Proof/Machine/CodeTable.lean ====
section
/-! DEFINITION. The meanings of the code-table micro-operations TABLE_RESET and ADD_ENTRY (41_code_table.md). -/

namespace Sys2Proof.Machine

/-- TABLE_RESET(U) (R120). -/
def execTableReset (u : UnitId) (s : State) : Host.Outcome State Fault Refusal :=
  match u with
  | .enc => onEnc (fun e => .ok () (resetEncTable e)) s
  | .dec => onDec (fun d => .ok () (resetDecTable d)) s

/-- ADD_ENTRY(U, payload), which returns the slot assigned, or takes the TableOverflow fault (R124). -/
def execAddEntry (p : Payload) (s : State) : Host.Outcome State Fault Refusal :=
  match p with
  | .edge n b => onEncReturning (addEdge n b) .slot s
  | .sequence q => onDecReturning (addSequence q) .slot s

end Sys2Proof.Machine
end

