-- ==== Sys2Proof/Machine/DecodeDictionary.lean ====
section
/-! DEFINITION. The meanings of the decode dictionary's micro-operations BYTES_FOR and ADD_DEC
(43_decode_dictionary.md). -/

namespace Sys2Proof.Machine

/-- BYTES_FOR(c), which returns the sequence of the code (R160). -/
def execBytesFor (c : Code) (s : State) : Host.Outcome State Fault Refusal :=
  onDecReturning (sequenceFor c) .bytes s

/-- ADD_DEC(p, s), which may take the TableOverflow fault (R162). -/
def execAddDec (p q : ByteSeq) (s : State) : Host.Outcome State Fault Refusal := onDec (learn p q) s

end Sys2Proof.Machine
end

