-- ==== Sys2Proof/WellFormed.lean ====
section
/-! DEFINITION. Which instructions are well formed: the operand ranges the spec gives each row, and, for a wire code,
the state of the decoder in which the table gives it that class. -/

namespace Sys2Proof

/-- A node name the trie can have: ROOT or a code other than the two control codes (20_memory.md R55: "Codes 256 and
257 are never nodes"). -/
def NodeId.legal : NodeId → Bool
  | .root => true
  | .code c => decide (c ≠ Config.clearCode ∧ c ≠ Config.eodCode)

/-- How many bytes a sequence has. -/
def ByteSeq.length (s : ByteSeq) : Nat := s.tail.length + 1

/-- A sequence that a table slot can hold, of 1 to 3839 bytes (20_memory.md R56). -/
def ByteSeq.fits (s : ByteSeq) : Bool := decide (s.length ≤ Config.longestSequence)

/-- The value `v` is a code of width `w`: `0 ≤ v < 2^w` (30_encoding.md R74). -/
def Code.fitsIn (v : Code) (w : CodeWidth) : Bool := decide (v.toNat < 2 ^ w.bits)

/-- The operand ranges of each row. A reserved END or START token has DATA other than 0, since DATA = 0 spells the
command (30_encoding.md R73). -/
def Instr.wellFormed : Instr → Bool
  | .encByte _ => true
  | .encEnd => true
  | .encStart => true
  | .decByte _ => true
  | .decEnd => true
  | .decStart => true
  | .reservedOp3 _ _ => true
  | .reservedEndData _ data => decide (data ≠ 0#8)
  | .reservedStartData _ data => decide (data ≠ 0#8)
  | .eod => true
  | .clear => true
  | .litFirst v => decide (v.toNat < 256)
  | .invalidFirst v => decide (258 ≤ v.toNat)
  | .lit v => decide (v.toNat < 256)
  | .dict v => decide (258 ≤ v.toNat)
  | .kwkwk v => decide (258 ≤ v.toNat)
  | .invalid v => decide (258 < v.toNat)
  | .put v w => Code.fitsIn v w
  | .flush => true
  | .fill _ => true
  | .get _ => true
  | .tableReset _ => true
  | .addEntry (.edge n _) => decide (n ≠ .root) && n.legal
  | .addEntry (.sequence s) => s.fits
  | .childNodeB n _ => n.legal
  | .childNodeS n _ => n.legal
  | .getNode _ => true
  | .visit _ => true
  | .bytesFor c => decide (c.toNat < 256 ∨ 258 ≤ c.toNat)
  | .addDec p s => decide (p.length < Config.longestSequence) && s.fits
  | .encStep _ _ => true
  | .decExec v w => Code.fitsIn v w
  | .steadyTail s => s.fits

/-- The condition column of the table for a wire code: the decoder state and next free code under which the code is of
this class (30_encoding.md R77). Every other instruction is met in any state of the decoder. -/
def Instr.occursIn (st : DecState) (nf : FreeCode) : Instr → Prop
  | .eod => st = .awaitFirst ∨ st = .steady
  | .clear => st = .awaitFirst ∨ st = .steady
  | .litFirst v => st = .awaitFirst ∧ v.toNat < 256
  | .invalidFirst v => st = .awaitFirst ∧ 258 ≤ v.toNat
  | .lit v => st = .steady ∧ v.toNat < 256
  | .dict v => st = .steady ∧ 258 ≤ v.toNat ∧ v.toNat < nf.toNat
  | .kwkwk v => st = .steady ∧ 258 ≤ v.toNat ∧ v.toNat = nf.toNat
  | .invalid v => st = .steady ∧ 258 ≤ v.toNat ∧ nf.toNat < v.toNat
  | .encByte _ | .encEnd | .encStart | .decByte _ | .decEnd | .decStart => True
  | .reservedOp3 _ _ | .reservedEndData _ _ | .reservedStartData _ _ => True
  | .put _ _ | .flush | .fill _ | .get _ | .tableReset _ | .addEntry _ => True
  | .childNodeB _ _ | .childNodeS _ _ | .getNode _ | .visit _ => True
  | .bytesFor _ | .addDec _ _ | .encStep _ _ | .decExec _ _ | .steadyTail _ => True

end Sys2Proof
end

