-- ==== Sys2Proof/Decode.lean ====
section
/-! DEFINITION. Decoding and encoding: the 10-bit command tokens, the wire codes with the decoder's class table, and the
order in which a code's bits stand on the wire. The internal micro-operations have no encoding (30_encoding.md). -/

namespace Sys2Proof

/-- Why a word is no instruction. -/
inductive DecodeError where
  /-- The word has a bit above bit 9: a command token is 10 bits (30_encoding.md R70). -/
  | widerThanToken
  /-- DEC executes no code in this state: codes are executed in AWAIT_FIRST and STEADY only (45_decoder.md R210). -/
  | noCodeInState (st : DecState)
  deriving DecidableEq, Repr

/-! ## Command tokens (30_encoding.md section 1) -/

/-- The OP field, bits 9..8 (R70). -/
def tokenOp (t : Token) : BitVec 2 := t.extractLsb' 8 2

/-- The DATA field, bits 7..0 (R70). -/
def tokenData (t : Token) : Byte := t.extractLsb' 0 8

/-- The instruction a token on unit `u`'s command port spells (R71 to R73). Every token has a row of the opcode table:
the reserved ones decode to the table's three reserved rows. -/
def decodeToken (u : UnitId) (t : Token) : Instr :=
  if tokenOp t = 0#2 then
    match u with
    | .enc => .encByte (tokenData t)
    | .dec => .decByte (tokenData t)
  else if tokenOp t = 1#2 then
    if tokenData t = 0#8 then
      match u with
      | .enc => .encEnd
      | .dec => .decEnd
    else .reservedEndData u (tokenData t)
  else if tokenOp t = 2#2 then
    if tokenData t = 0#8 then
      match u with
      | .enc => .encStart
      | .dec => .decStart
    else .reservedStartData u (tokenData t)
  else .reservedOp3 u (tokenData t)

/-- Decoding a number as a token on unit `u`'s port: total, refusing by name what does not fit 10 bits (R70). -/
def decodeWord (u : UnitId) (n : Nat) : Except DecodeError Instr :=
  if n < 1024 then .ok (decodeToken u (BitVec.ofNat 10 n)) else .error .widerThanToken

/-! ## Wire codes (30_encoding.md section 2) -/

/-- The class of a code `v` just taken, by the first line of the table of R77 that matches; `nf` is `DEC.nf` before the
code is acted on. In IDLE and DONE no code is executed and the table gives none. -/
def codeClass (st : DecState) (nf : FreeCode) (v : Code) : Option CodeClass :=
  match st with
  | .idle => none
  | .done => none
  | .awaitFirst =>
    if v.toNat = 257 then some .eod
    else if v.toNat = 256 then some .clear
    else if v.toNat < 256 then some .litFirst
    else some .invalidFirst
  | .steady =>
    if v.toNat = 257 then some .eod
    else if v.toNat = 256 then some .clear
    else if v.toNat < 256 then some .lit
    else if v.toNat < nf.toNat then some .dict
    else if v.toNat = nf.toNat then some .kwkwk
    else some .invalid

/-- The instruction of the opcode table that a code of a class is. -/
def codeInstr (k : CodeClass) (v : Code) : Instr :=
  match k with
  | .eod => .eod
  | .clear => .clear
  | .litFirst => .litFirst v
  | .invalidFirst => .invalidFirst v
  | .lit => .lit v
  | .dict => .dict v
  | .kwkwk => .kwkwk v
  | .invalid => .invalid v

/-- Decoding a wire code in a decoder state: total, refusing by name in the states that execute no code. -/
def decodeCode (st : DecState) (nf : FreeCode) (v : Code) : Except DecodeError Instr :=
  match codeClass st nf v with
  | some k => .ok (codeInstr k v)
  | none => .error (.noCodeInState st)

/-! ## Encoding -/

/-- An encoded instruction: a token on a unit's command port, or a wire code zero-extended to 12 bits. -/
inductive Encoded where
  | token (u : UnitId) (t : Token)
  | code (v : Code)
  deriving DecidableEq, Repr

/-- A token from its OP and DATA fields (R70). -/
def makeToken (op : BitVec 2) (data : Byte) : Token := op ++ data

/-- The word of an instruction, from the same tables (R71, R73, R75); an internal micro-operation has none. -/
def encode : Instr → Option Encoded
  | .encByte x => some (.token .enc (makeToken 0#2 x))
  | .encEnd => some (.token .enc (makeToken 1#2 0#8))
  | .encStart => some (.token .enc (makeToken 2#2 0#8))
  | .decByte x => some (.token .dec (makeToken 0#2 x))
  | .decEnd => some (.token .dec (makeToken 1#2 0#8))
  | .decStart => some (.token .dec (makeToken 2#2 0#8))
  | .reservedOp3 u data => some (.token u (makeToken 3#2 data))
  | .reservedEndData u data => some (.token u (makeToken 1#2 data))
  | .reservedStartData u data => some (.token u (makeToken 2#2 data))
  | .eod => some (.code Config.eodCode)
  | .clear => some (.code Config.clearCode)
  | .litFirst v => some (.code v)
  | .invalidFirst v => some (.code v)
  | .lit v => some (.code v)
  | .dict v => some (.code v)
  | .kwkwk v => some (.code v)
  | .invalid v => some (.code v)
  | .put _ _ | .flush | .fill _ | .get _ | .tableReset _ | .addEntry _ => none
  | .childNodeB _ _ | .childNodeS _ _ | .getNode _ | .visit _ => none
  | .bytesFor _ | .addDec _ _ | .encStep _ _ | .decExec _ _ | .steadyTail _ => none

/-- Decoding an encoded instruction; `st` and `nf` are the decoder's state and next free code, on which only a wire
code's class depends. -/
def decode (st : DecState) (nf : FreeCode) : Encoded → Except DecodeError Instr
  | .token u t => .ok (decodeToken u t)
  | .code v => decodeCode st nf v

/-! ## Bits on the wire (20_memory.md section 1) -/

/-- The bits of a code of width `w` in the order they go on the wire: code bit 0 first (R51). -/
def codeBits (v : Code) (w : CodeWidth) : List Bool := (List.range w.bits).map v.getLsbD

/-- The bits of a byte in stream order: bit 0 first (R50). -/
def byteBits (x : Byte) : List Bool := (List.range 8).map x.getLsbD

/-- The stream bits of a sequence of wire bytes: stream bit `q` is bit `q mod 8` of byte `q / 8` (R50). -/
def streamBits (bytes : List Byte) : List Bool := bytes.flatMap byteBits

/-- The first `n` bits an accumulator holds, in stream order. -/
def heldBits (acc : Accumulator) (n : BitCount) : List Bool := (List.range n.toNat).map acc.getLsbD

/-! ## The host's reading of the opcode table -/

/-- The instruction the decoder reads from a table word. A token is one 10-bit unit, so the word is the token itself and
`nbits`, the row's size in whole bytes, says nothing more. The port is part of a token's encoding and a table word does
not carry it: the word is read as a token on `enc_cmd` (DESIGN CHOICE, unsafe, log entry 5). -/
def decodeTableWord (_nbits w : Nat) : Option Instr :=
  match decodeWord .enc w with
  | .ok i => some i
  | .error _ => none

end Sys2Proof
end

