-- ==== Sys2Proof/Machine/Flags.lean ====
section
/-! DEFINITION. The one-bit signals inside an ENC step (10_state.md R40) and the three status words, which are views of
the state: reading one has no side effect and nothing writes one (R36 to R39). VISIT's signal `grew` is the value
`visitByte` returns. -/

namespace Sys2Proof.Machine

/-- The signal `flushed` of ENC_STEP (R40): step 5 writes the code exactly when the match cannot extend along the
lookahead byte (44_encoder.md R186). -/
def flushedFlag (e : Enc) (x : Byte) : Bool := (trieChild e.trie e.cur x).isNone

/-- The PENDING bit of ENC_STATUS (R36). -/
def pendingFlag (e : Enc) : BitVec 1 := if e.pending = none then 0#1 else 1#1

/-- ENC_STATUS (R36), from bit 31 down: reserved, PK_BITS, PENDING, NEXT_FREE, CODE_WIDTH, reserved, FAULT, STATE. -/
def encStatus (e : Enc) : StatusWord :=
  0#6 ++ e.pkCnt.setWidth 3 ++ pendingFlag e ++ e.nf ++ widthValue e.width ++ 0#1 ++ e.fault.value ++ e.state.value

/-- DEC_STATUS (R37), from bit 31 down: reserved, UP_BITS, reserved, NEXT_FREE, CODE_WIDTH, CAUSE, FAULT, STATE. -/
def decStatus (d : Dec) : StatusWord :=
  0#4 ++ d.upCnt ++ 0#1 ++ d.nf ++ widthValue d.width ++ d.cause.value ++ d.fault.value ++ decStateValue d.state

/-- DEC_INFO (R38), from bit 31 down: reserved, LAST_VALID, LAST_WIDTH, LAST_CODE. -/
def decInfo (d : Dec) : StatusWord :=
  0#15 ++ BitVec.ofBool d.last.valid ++ d.last.width ++ d.last.value

end Sys2Proof.Machine
end

