-- ==== Sys2Proof/Machine/Decoder.lean ====
section
/-! DEFINITION. The decoder unit: the wire codes by class, DEC_EXEC, STEADY_TAIL and the commands DEC_START, DEC_BYTE
and DEC_END (45_decoder.md). -/

namespace Sys2Proof.Machine

/-! ## What a code of each class does (section 3) -/

/-- STEADY_TAIL(s): emit, learn, remember, in that order (R226). -/
def steadyTail (q : ByteSeq) (d : Dec) : Flow Dec Unit :=
  match d.prev with
  | none => .stuck .noPreviousSequence
  | some p => (learn p q (emitData q d)).bind fun _ d1 => .ok () { d1 with prev := some q }

/-- EOD (R219). -/
def runEod (d : Dec) : Flow Dec Unit := .ok () { d with state := .done }

/-- CLEAR (R220). -/
def runClear (d : Dec) : Flow Dec Unit := .ok () { resetDecTable d with prev := none, state := .awaitFirst }

/-- LIT_FIRST (R221). -/
def runLitFirst (v : Code) (d : Dec) : Flow Dec Unit :=
  (sequenceFor v d).bind fun q d1 => .ok () { emitData q d1 with prev := some q, state := .steady }

/-- LIT and DICT: the code resolves from the table (R222, R223). -/
def runResolved (v : Code) (d : Dec) : Flow Dec Unit := (sequenceFor v d).bind steadyTail

/-- KWKWK: the previous sequence followed by its own first byte (R224). -/
def runKwkwk (d : Dec) : Flow Dec Unit :=
  match d.prev with
  | none => .stuck .noPreviousSequence
  | some p => steadyTail (p.snoc p.head) d

/-- INVALID and INVALID_FIRST: `raise Fault(CORRUPT_STREAM, INVALID_CODE)` (R225). -/
def runCorrupt (d : Dec) : Flow Dec Unit := raiseDec .corruptStream .invalidCode d

/-- The rule a class dispatches to (R218). -/
def runClass (k : CodeClass) (v : Code) (d : Dec) : Flow Dec Unit :=
  match k with
  | .eod => runEod d
  | .clear => runClear d
  | .litFirst => runLitFirst v d
  | .invalidFirst => runCorrupt d
  | .lit => runResolved v d
  | .dict => runResolved v d
  | .kwkwk => runKwkwk d
  | .invalid => runCorrupt d

/-- The class of a code in DEC's present state; none where DEC executes no code: in IDLE and DONE (R210), and while a
fault is set (60_exceptions.md R240). -/
def classNow (v : Code) (d : Dec) : Option CodeClass :=
  if d.fault = .none then codeClass d.state d.nf v else none

/-- DEC_EXEC(v, w): the code is recorded, then its class runs; the class is that of the state before (R218). The rules call
it only with `w = DEC.width` and a code GET has just taken at that width, which fits it (30_encoding.md R79). Run on its own
with another width, or with `v` of 2^w or more, it records and runs the operands all the same (DESIGN CHOICE, unsafe, log
entry 21). -/
def executeCode (v : Code) (w : CodeWidth) (d : Dec) : Flow Dec Unit :=
  match classNow v d with
  | none => .refuse .codeNotOfThisClass
  | some k => runClass k v { d with last := ⟨v, widthValue w, true⟩ }

/-- A wire code executed under the name of one class: it runs where the class table gives it that class (30_encoding.md
R77). A code of 2^DEC.width or more, which no stream can give (R79), is classed and run all the same when it is executed on
its own (DESIGN CHOICE, unsafe, log entry 21). -/
def runAs (k : CodeClass) (v : Code) (d : Dec) : Flow Dec Unit :=
  if classNow v d = some k then runClass k v d else .refuse .codeNotOfThisClass

/-! ## Commands (section 2) -/

/-- DEC_BYTE's loop: codes are taken and executed while all bits of one are held, DEC is not in DONE and no fault is set
(R215). A 5-bit count passes the test at most three times, so `fuel` 4 is never used up. -/
def takeCodes : Nat → Dec → Flow Dec Unit
  | 0, d => .ok () d
  | fuel + 1, d =>
    if d.state ≠ .done ∧ d.fault = .none ∧ d.width.bits ≤ d.upCnt.toNat then
      (getCode d.width d).bind fun v d1 => (executeCode v d.width d1).bind fun _ d2 => takeCodes fuel d2
    else .ok () d

/-- DEC_BYTE and DEC_END are refused in IDLE and while a fault is set (R217). -/
def whileOperating (d : Dec) (body : Flow Dec Unit) : Flow Dec Unit :=
  if d.fault ≠ .none then .refuse .decFaulted
  else if d.state = .idle then .refuse .decIdle
  else body

/-- DEC_START (R214). -/
def startDecoding (d : Dec) : Dec :=
  let emptied := resetDecTable { d with upAcc := 0#19, upCnt := 0#5 }
  { emptied.clearFault with prev := none, last := ⟨0#12, 0#4, false⟩, state := .awaitFirst }

/-- DEC_BYTE(x): in DONE the byte is discarded; else its bits are held and the codes complete by then execute (R215). -/
def takeWireByte (x : Byte) (d : Dec) : Flow Dec Unit :=
  whileOperating d (if d.state = .done then .ok () d else takeCodes 4 (fillByte x d))

/-- DEC_END: no effect in DONE; else the stream was cut short (R216). -/
def endDecoding (d : Dec) : Flow Dec Unit :=
  whileOperating d (if d.state = .done then .ok () d else raiseDec .corruptStream .truncated d)

/-- DEC_BYTE. -/
def execDecByte (x : Byte) (s : State) : Host.Outcome State Fault Refusal := onDec (takeWireByte x) s

/-- DEC_END. -/
def execDecEnd (s : State) : Host.Outcome State Fault Refusal := onDec endDecoding s

/-- DEC_START, accepted in every state (R214). -/
def execDecStart (s : State) : Host.Outcome State Fault Refusal := onDec (fun d => .ok () (startDecoding d)) s

/-- EOD. -/
def execEod (s : State) : Host.Outcome State Fault Refusal := onDec (runAs .eod Config.eodCode) s

/-- CLEAR. -/
def execClear (s : State) : Host.Outcome State Fault Refusal := onDec (runAs .clear Config.clearCode) s

/-- LIT_FIRST. -/
def execLitFirst (v : Code) (s : State) : Host.Outcome State Fault Refusal := onDec (runAs .litFirst v) s

/-- INVALID_FIRST. -/
def execInvalidFirst (v : Code) (s : State) : Host.Outcome State Fault Refusal := onDec (runAs .invalidFirst v) s

/-- LIT. -/
def execLit (v : Code) (s : State) : Host.Outcome State Fault Refusal := onDec (runAs .lit v) s

/-- DICT. -/
def execDict (v : Code) (s : State) : Host.Outcome State Fault Refusal := onDec (runAs .dict v) s

/-- KWKWK. -/
def execKwkwk (v : Code) (s : State) : Host.Outcome State Fault Refusal := onDec (runAs .kwkwk v) s

/-- INVALID. -/
def execInvalid (v : Code) (s : State) : Host.Outcome State Fault Refusal := onDec (runAs .invalid v) s

/-- DEC_EXEC. -/
def execDecExec (v : Code) (w : CodeWidth) (s : State) : Host.Outcome State Fault Refusal :=
  onDec (executeCode v w) s

/-- STEADY_TAIL. -/
def execSteadyTail (q : ByteSeq) (s : State) : Host.Outcome State Fault Refusal := onDec (steadyTail q) s

end Sys2Proof.Machine
end

