-- ==== Sys2Proof/Machine/EncodeDictionary.lean ====
section
/-! DEFINITION. The meanings of the encode dictionary's micro-operations CHILD_NODE (both forms), GET_NODE and VISIT
(42_encode_dictionary.md). -/

namespace Sys2Proof.Machine

/-- CHILD_NODE(n, b), which returns a code or NONE (R140). -/
def execChildNodeB (n : NodeId) (b : Byte) (s : State) : Host.Outcome State Fault Refusal :=
  onEncReturning (fun e => .ok (trieChild e.trie n b) e) .child s

/-- CHILD_NODE(n, s), which returns a node or NONE (R141). -/
def execChildNodeS (n : NodeId) (q : List Byte) (s : State) : Host.Outcome State Fault Refusal :=
  onEncReturning (fun e => .ok (walk e.trie n q) e) .node s

/-- GET_NODE(s), which returns a node or NONE (R142). -/
def execGetNode (q : List Byte) (s : State) : Host.Outcome State Fault Refusal :=
  onEncReturning (fun e => .ok (nodeOf e.trie q) e) .node s

/-- VISIT(b), which returns `grew`, or takes the TableOverflow fault (R143). -/
def execVisit (b : Byte) (s : State) : Host.Outcome State Fault Refusal := onEncReturning (visitByte b) .grew s

end Sys2Proof.Machine
end

