-- ==== Sys2Proof/Machine/Encoder.lean ====
section
/-! DEFINITION. The encoder unit: ENC_STEP and the commands ENC_START, ENC_BYTE and ENC_END (44_encoder.md). -/

namespace Sys2Proof.Machine

/-- Step 6 of ENC_STEP: when the next free code is 4095 the match is written if step 5 did not write it, then CLEAR at
the current width, and the table and the run start again (44_encoder.md R186). -/
def proactiveReset (code : Code) (flushed : Bool) (e : Enc) : Enc :=
  if e.nf = Config.clearAt then
    let written := if flushed then e else put code e.width e
    { resetEncTable (put Config.clearCode written.width written) with cur := .root }
  else e

/-- ENC_STEP(b, la): process byte `b` with lookahead `la` (44_encoder.md R186). -/
def processByte (b : Byte) (la : Lookahead) (e : Enc) : Flow Enc Unit :=
  (visitByte b e).bind fun _ e1 =>
    match e1.cur with
    | .root => .refuse .rootHasNoCode
    | .code code =>
      match la with
      | .endOfData => .ok () (put code e1.width e1)
      | .byte x =>
        .ok () (proactiveReset code (flushedFlag e1 x) (if flushedFlag e1 x then put code e1.width e1 else e1))

/-- ENC_BYTE and ENC_END run in ACCUMULATING without a fault and are refused elsewhere (44_encoder.md R187). -/
def whileAccumulating (e : Enc) (body : Flow Enc Unit) : Flow Enc Unit :=
  if e.fault ≠ .none then .refuse .encFaulted
  else if e.state ≠ .accumulating then .refuse .encNotAccumulating
  else body

/-- ENC_START (44_encoder.md R184). -/
def startEncoding (e : Enc) : Enc :=
  let cleared := { resetEncTable { e with pkAcc := 0#19, pkCnt := 0#5 } with cur := .root, pending := none }
  { put Config.clearCode .w9 cleared.clearFault with state := .accumulating }

/-- ENC_BYTE(x): the byte held before it is processed with `x` as its lookahead, and `x` is held (44_encoder.md
R185). -/
def takeDataByte (x : Byte) (e : Enc) : Flow Enc Unit :=
  whileAccumulating e
    (match e.pending with
    | none => .ok () { e with pending := some x }
    | some b => (processByte b (.byte x) e).bind fun _ e1 => .ok () { e1 with pending := some x })

/-- The end of ENC_END: EOD at the width the reader has at that point, the padding, and EOF (44_encoder.md R188,
R189). -/
def closeStream (e : Enc) : Enc :=
  { flushBits (put Config.eodCode (widthFor (e.nf.toNat + 1)) e) with state := .eof }

/-- ENC_END: the byte held is processed as the last one, and the stream is closed (44_encoder.md R188). -/
def endEncoding (e : Enc) : Flow Enc Unit :=
  whileAccumulating e
    (match e.pending with
    | none => .ok () (closeStream e)
    | some b => (processByte b .endOfData e).bind fun _ e1 => .ok () (closeStream { e1 with pending := none }))

/-- ENC_BYTE. -/
def execEncByte (x : Byte) (s : State) : Host.Outcome State Fault Refusal := onEnc (takeDataByte x) s

/-- ENC_END. -/
def execEncEnd (s : State) : Host.Outcome State Fault Refusal := onEnc endEncoding s

/-- ENC_START, accepted in every state (44_encoder.md R184). -/
def execEncStart (s : State) : Host.Outcome State Fault Refusal := onEnc (fun e => .ok () (startEncoding e)) s

/-- ENC_STEP. -/
def execEncStep (b : Byte) (la : Lookahead) (s : State) : Host.Outcome State Fault Refusal :=
  onEnc (processByte b la) s

end Sys2Proof.Machine
end

