-- ==== Sys2Proof/Machine/Reserved.lean ====
section
/-! DEFINITION. The reserved tokens: they spell no command and the unit refuses them, with no step and no state change
(30_encoding.md R73, 60_exceptions.md R246). -/

namespace Sys2Proof.Machine

/-- A token with OP = 11. -/
def execReservedOp3 (_u : UnitId) (_data : Byte) (_s : State) : Host.Outcome State Fault Refusal :=
  .refused .reservedToken

/-- A token with OP = 01 and DATA other than 0. -/
def execReservedEndData (_u : UnitId) (_data : Byte) (_s : State) : Host.Outcome State Fault Refusal :=
  .refused .reservedToken

/-- A token with OP = 10 and DATA other than 0. -/
def execReservedStartData (_u : UnitId) (_data : Byte) (_s : State) : Host.Outcome State Fault Refusal :=
  .refused .reservedToken

end Sys2Proof.Machine
end

