-- ==== Sys2Proof/Machine/Dispatch.lean ====
section
/-! DEFINITION. The dispatch: one arm per constructor of Instr, each one call of that instruction's meaning. -/

namespace Sys2Proof.Machine

def exec (i : Instr) (s : State) : Host.Outcome State Fault Refusal :=
  match i with
  | .encByte x => Sys2Proof.Machine.execEncByte x s
  | .encEnd => Sys2Proof.Machine.execEncEnd s
  | .encStart => Sys2Proof.Machine.execEncStart s
  | .decByte x => Sys2Proof.Machine.execDecByte x s
  | .decEnd => Sys2Proof.Machine.execDecEnd s
  | .decStart => Sys2Proof.Machine.execDecStart s
  | .reservedOp3 u data => Sys2Proof.Machine.execReservedOp3 u data s
  | .reservedEndData u data => Sys2Proof.Machine.execReservedEndData u data s
  | .reservedStartData u data => Sys2Proof.Machine.execReservedStartData u data s
  | .eod => Sys2Proof.Machine.execEod s
  | .clear => Sys2Proof.Machine.execClear s
  | .litFirst v => Sys2Proof.Machine.execLitFirst v s
  | .invalidFirst v => Sys2Proof.Machine.execInvalidFirst v s
  | .lit v => Sys2Proof.Machine.execLit v s
  | .dict v => Sys2Proof.Machine.execDict v s
  | .kwkwk v => Sys2Proof.Machine.execKwkwk v s
  | .invalid v => Sys2Proof.Machine.execInvalid v s
  | .put v w => Sys2Proof.Machine.execPut v w s
  | .flush => Sys2Proof.Machine.execFlush s
  | .fill x => Sys2Proof.Machine.execFill x s
  | .get w => Sys2Proof.Machine.execGet w s
  | .tableReset u => Sys2Proof.Machine.execTableReset u s
  | .addEntry p => Sys2Proof.Machine.execAddEntry p s
  | .childNodeB n b => Sys2Proof.Machine.execChildNodeB n b s
  | .childNodeS n q => Sys2Proof.Machine.execChildNodeS n q s
  | .getNode q => Sys2Proof.Machine.execGetNode q s
  | .visit b => Sys2Proof.Machine.execVisit b s
  | .bytesFor c => Sys2Proof.Machine.execBytesFor c s
  | .addDec p q => Sys2Proof.Machine.execAddDec p q s
  | .encStep b la => Sys2Proof.Machine.execEncStep b la s
  | .decExec v w => Sys2Proof.Machine.execDecExec v w s
  | .steadyTail q => Sys2Proof.Machine.execSteadyTail q s

end Sys2Proof.Machine
end

