-- ==== Sys2Proof/Machine/Port.lean ====
section
/-! DEFINITION. The command ports: what the block takes next and what it does with it (10_state.md R35). -/

namespace Sys2Proof.Machine

/-- One input taken by the block: a token is decoded for the unit of its port and executed as one atomic step
(00_scope.md R15), and `rst` resets the block (70_reset_and_hazards.md R270). -/
def takeInput (x : Input) (s : State) : Host.Outcome State Fault Refusal :=
  match x with
  | .token u t => exec (decodeToken u t) s
  | .rst => .next (hardReset s)

/-- One step: the first waiting input is taken; with none waiting nothing happens and every unit keeps its state
(60_exceptions.md R256). -/
def stepInput (s : State) : Host.Outcome State Fault Refusal :=
  match s.input with
  | [] => .next s
  | x :: rest => takeInput x (s.withInput rest)

/-- The state with a token waiting first on `enc_cmd`. A number wider than a token is no token, and nothing is sent. -/
def sendToken (w : Nat) (s : State) : State :=
  if w < 1024 then s.withInput (.token .enc (BitVec.ofNat 10 w) :: s.input) else s

end Sys2Proof.Machine
end

