-- ==== Sys2Proof/Machine/Step.lean ====
section
/-! DEFINITION. The step function. The block has no program counter and fetches nothing (10_state.md R21): what it does
next is the next command the host has sent. -/

namespace Sys2Proof.Machine

/-- One step of the machine. -/
def step (s : State) : Host.Outcome State Fault Refusal := stepInput s

/-- The state with the instruction of a table word waiting first on `enc_cmd`, the port `decodeTableWord` reads table
words at, so that the very next step takes it. -/
def State.withFetchWord (s : State) (_nbits w : Nat) : State := sendToken w s

end Sys2Proof.Machine
end

