-- ==== Sys2Proof/Safety.lean ====
section
/-! DEFINITION. What the claims are stated in: sequences of inputs, the pseudo-instructions of 30_encoding.md R83, and
the invariant of 10_state.md R43 with the bounds that go with it. -/

namespace Sys2Proof

open Sys2Proof.Machine

/-! ## Sequences of inputs -/

/-- The state after the host offers one input. A refused command takes no step and changes no state (60_exceptions.md
R246), and the host may go on with another. A stop of the model leaves the state as it is; none happens in a state
that meets the invariant below. -/
def offer (x : Input) (s : State) : State :=
  match takeInput x s with
  | .next t => t
  | .fault _ => s
  | .refused _ => s

/-- The state after the host offers a sequence of inputs, in order: a command script of 30_encoding.md R82. -/
def feed (xs : List Input) (s : State) : State := xs.foldl (fun t x => offer x t) s

/-- The START token on a unit's port (30_encoding.md R71). -/
def startToken (u : UnitId) : Input := .token u 0x200#10

/-- The END token on a unit's port (30_encoding.md R71). -/
def endToken (u : UnitId) : Input := .token u 0x100#10

/-- The BYTE token on a unit's port (30_encoding.md R71, R72). -/
def byteToken (u : UnitId) (x : Byte) : Input := .token u (x.setWidth 10)

/-- START, one BYTE per byte, END on one unit: an operation (70_reset_and_hazards.md R273). On ENC it is the
pseudo-instruction `ENC.ENCODE`, on DEC `DEC.DECODE` (30_encoding.md R83). -/
def operation (u : UnitId) (bytes : List Byte) : List Input :=
  startToken u :: (bytes.map (byteToken u) ++ [endToken u])

/-- The input acts on unit `u`: it is a token on `u`'s port, or `rst`. -/
def Input.reaches (u : UnitId) : Input → Bool
  | .token u' _ => decide (u' = u)
  | .rst => true

/-! ## Packing and unpacking whole streams (40_bit_channel.md R105) -/

/-- The bytes one packer, starting empty, emits for a list of codes with their widths, the FLUSH included. -/
def packed (codes : List (Code × CodeWidth)) : List Byte :=
  (flushBits (codes.foldl (fun e c => put c.1 c.2 e) Enc.reset)).out

/-- The codes of the given widths that are complete in the unpacker, the widths still to come, and the unpacker after
taking them. -/
def takeReady : List CodeWidth → Dec → List Code × List CodeWidth × Dec
  | [], d => ([], [], d)
  | w :: ws, d =>
    match getCode w d with
    | .ok v d1 => (v :: (takeReady ws d1).1, (takeReady ws d1).2)
    | .raised d1 => ([], w :: ws, d1)
    | .stuck _ => ([], w :: ws, d)
    | .refuse _ => ([], w :: ws, d)

/-- One unpacker fed bytes in order, taking a code of the next width as soon as it has enough bits. -/
def unpacked : List CodeWidth → List Byte → Dec → List Code × List CodeWidth × Dec
  | ws, [], d => ([], ws, d)
  | ws, x :: xs, d =>
    let now := takeReady ws (fillByte x d)
    let later := unpacked now.2.1 xs now.2.2
    (now.1 ++ later.1, later.2)

/-! ## The invariant -/

/-- A code that names a trie node when the next free code is `nf`: a literal, or a code assigned since the last reset of
the table (10_state.md R43 item 3). -/
def IsNode (nf : FreeCode) (c : Code) : Prop := c.toNat < 256 ∨ (258 ≤ c.toNat ∧ c.toNat < nf.toNat)

/-- The stored edges of the trie when the next free code is `nf`: every code from 258 to `nf - 1` is the child of exactly
one edge, no other code is a child, and the parent of an edge is a node older than its child (10_state.md R43 items 3
and 4, 42_encode_dictionary.md R145). -/
structure TrieHolds (nf : FreeCode) (t : Memory Code) : Prop where
  assigned : ∀ c : Code, 258 ≤ c.toNat → c.toNat < nf.toNat →
    ∃ (n : Code) (b : Byte), trieChild t (.code n) b = some c
  children : ∀ (n : Code) (b : Byte) (c : Code), trieChild t (.code n) b = some c →
    258 ≤ c.toNat ∧ c.toNat < nf.toNat ∧ n.toNat < c.toNat ∧ IsNode nf n
  unique : ∀ (n n' : Code) (b b' : Byte) (c : Code), trieChild t (.code n) b = some c →
    trieChild t (.code n') b' = some c → n = n' ∧ b = b'

/-- ENC between two commands (10_state.md R22 to R28, R43; 44_encoder.md R192). What the trie holds is said outside IDLE
only, as it is unspecified there (R44). -/
structure EncInv (e : Enc) : Prop where
  noFault : e.fault = .none
  width : e.width = widthFor e.nf.toNat
  freeLow : 258 ≤ e.nf.toNat
  freeHigh : e.nf.toNat ≤ 4095
  freeAccumulating : e.state = .accumulating → e.nf.toNat ≤ 4094
  held : e.pkCnt.toNat ≤ 7
  padding : e.pkAcc.toNat < 2 ^ e.pkCnt.toNat
  canonical : Memory.trieWf e.trie = true
  trie : e.state ≠ .idle → TrieHolds e.nf e.trie
  current : e.state ≠ .idle → ∀ c, e.cur = .code c → IsNode e.nf c
  lookahead : e.pending ≠ none → e.state = .accumulating

/-- DEC between two commands (10_state.md R29 to R34, R43; 00_scope.md R9). What the table holds is said outside IDLE
only, as it is unspecified there (R44). -/
structure DecInv (d : Dec) : Prop where
  width : d.width = widthFor (d.nf.toNat + 1)
  freeLow : 258 ≤ d.nf.toNat
  freeHigh : d.nf.toNat ≤ 4096
  held : d.upCnt.toNat ≤ 11
  incomplete : d.fault = .none → (d.state = .awaitFirst ∨ d.state = .steady) → d.upCnt.toNat < d.width.bits
  padding : d.upAcc.toNat < 2 ^ d.upCnt.toNat
  canonical : Memory.tabWf d.tab = true
  table : d.state ≠ .idle → ∀ c : Code, 258 ≤ c.toNat → c.toNat < d.nf.toNat →
    ∃ q, tabRead d.tab c = .bytes q ∧ 2 ≤ q.length ∧ q.length ≤ c.toNat - 256
  noPrevious : d.state = .idle ∨ d.state = .awaitFirst → d.prev = none
  previous : d.state = .steady → ∃ p, d.prev = some p ∧ p.length ≤ d.nf.toNat - 257
  fresh : d.state = .awaitFirst → d.nf = 258#13
  idleNoFault : d.state = .idle → d.fault = .none
  cause : d.fault ≠ .corruptStream → d.cause = .invalidCode

/-- The invariant of the machine. -/
structure Inv (s : State) : Prop where
  enc : EncInv s.enc
  dec : DecInv s.dec

end Sys2Proof
end

