-- ==== Sys2Proof/Certificates/Slice0/Obligations.lean ====
section
/-! DEFINITION. The statements for the provers. Each docstring names the rule of spec/ it formalises. -/

open Sys2Proof Sys2Proof.Machine

/-! ## Reset, the invariant, the step -/

/-- 10_state.md R44: the fields after hardware reset, as far as the spec gives them. The trie and the table are
unspecified there and nothing is said of them. -/
def Obligations.ResetLeavesTheValuesTheSpecGives : Prop :=
  State.reset.enc.state = .idle ∧ State.reset.enc.fault = .none ∧
  State.reset.enc.nf = 258#13 ∧ State.reset.enc.width = .w9 ∧
  State.reset.enc.cur = .root ∧ State.reset.enc.pending = none ∧
  State.reset.enc.pkAcc = 0#19 ∧ State.reset.enc.pkCnt = 0#5 ∧
  State.reset.dec.state = .idle ∧ State.reset.dec.fault = .none ∧ State.reset.dec.cause.value = 0#1 ∧
  State.reset.dec.nf = 258#13 ∧ State.reset.dec.width = .w9 ∧ State.reset.dec.prev = none ∧
  State.reset.dec.upAcc = 0#19 ∧ State.reset.dec.upCnt = 0#5 ∧
  State.reset.dec.last = ⟨0#12, 0#4, false⟩ ∧
  State.reset.enc.out = [] ∧ State.reset.dec.out = []

/-- The state after reset meets the invariant (10_state.md R43, R44). The canonical form of the empty memories is the
model's own (log entries 1 and 13). -/
def Obligations.ResetMeetsTheInvariant : Prop := Inv State.reset

/-- 10_state.md R43 with 44_encoder.md R192 and 00_scope.md R9: the invariant holds after every step from a state that
meets it, whatever the host sends. -/
def Obligations.EveryStepKeepsTheInvariant : Prop :=
  ∀ s t : State, Inv s → step s = .next t → Inv t

/-- 00_scope.md R15, 30_encoding.md R70, 60_exceptions.md R256, 70_reset_and_hazards.md R270: one step takes the first
waiting input. A token is executed as the instruction it decodes to on its port, `rst` resets, and with nothing waiting
nothing changes. That the tokens of both ports and `rst` wait in one queue is the model's choice (log entry 2), and so is
that the inputs behind an `rst` still wait after it (log entry 16). -/
def Obligations.StepRunsTheDecodedInstruction : Prop :=
  (∀ (s : State) (u : UnitId) (tok : Token) (rest : List Input), s.input = .token u tok :: rest →
    step s = exec (decodeToken u tok) (s.withInput rest)) ∧
  (∀ (s : State) (rest : List Input), s.input = .rst :: rest → step s = .next (hardReset (s.withInput rest))) ∧
  (∀ s : State, s.input = [] → step s = .next s)

/-- 70_reset_and_hazards.md R270: `rst` puts both units in IDLE with no fault and the values of R44, whatever they were
doing; nothing is emitted and what was emitted stays. The last clause, that the inputs behind the `rst` still wait, is
the model's choice and no rule's (DESIGN CHOICE, log entry 16). -/
def Obligations.HardwareResetPutsBothUnitsInIdle : Prop :=
  ∀ (s : State) (rest : List Input), s.input = .rst :: rest →
    ∃ t, step s = .next t ∧
      t.enc.state = .idle ∧ t.enc.fault = .none ∧ t.enc.nf = 258#13 ∧ t.enc.width = .w9 ∧
      t.enc.cur = .root ∧ t.enc.pending = none ∧ t.enc.pkAcc = 0#19 ∧ t.enc.pkCnt = 0#5 ∧
      t.dec.state = .idle ∧ t.dec.fault = .none ∧ t.dec.cause.value = 0#1 ∧ t.dec.nf = 258#13 ∧
      t.dec.width = .w9 ∧ t.dec.prev = none ∧ t.dec.upAcc = 0#19 ∧ t.dec.upCnt = 0#5 ∧
      t.dec.last = ⟨0#12, 0#4, false⟩ ∧
      t.enc.out = s.enc.out ∧ t.dec.out = s.dec.out ∧ t.input = rest

/-- 20_memory.md R57: the output ports are append-only, and the command ports are taken in order, one command a step
(00_scope.md R15). That one queue holds the tokens of both ports and `rst`, so that a step takes its first input, is the
model's choice (DESIGN CHOICE, log entry 2), and so is that the inputs behind an `rst` still wait after it (DESIGN
CHOICE, log entry 16). -/
def Obligations.OutputsAreAppendOnlyAndCommandsTakenInOrder : Prop :=
  ∀ s t : State, step s = .next t →
    s.enc.out <+: t.enc.out ∧ s.dec.out <+: t.dec.out ∧ t.input = s.input.tail

/-- 60_exceptions.md R246: from a state that meets the invariant a step goes on (the model's own stops of log entries 8
and 9 are not met; the one queue of inputs is log entry 2), unless the command is one the spec
refuses: a reserved token, a BYTE or END of ENC out of ACCUMULATING, or one of DEC in IDLE or in a fault (the invariant
rules a fault of ENC out, 44_encoder.md R192). -/
def Obligations.OnlyTheCommandsTheSpecRefusesHaveNoStep : Prop :=
  ∀ s : State, Inv s →
    (∃ t, step s = .next t) ∨
    (∃ (u : UnitId) (tok : Token) (rest : List Input), s.input = .token u tok :: rest ∧
      ((step s = .refused .reservedToken ∧
          (tok.toNat / 256 = 3 ∨ (tok.toNat / 256 = 1 ∨ tok.toNat / 256 = 2) ∧ tok.toNat % 256 ≠ 0)) ∨
       (step s = .refused .encNotAccumulating ∧ u = .enc ∧ tok.toNat ≤ 256 ∧ s.enc.state ≠ .accumulating) ∨
       (step s = .refused .decFaulted ∧ u = .dec ∧ tok.toNat ≤ 256 ∧ s.dec.fault ≠ .none) ∨
       (step s = .refused .decIdle ∧ u = .dec ∧ tok.toNat ≤ 256 ∧ s.dec.state = .idle)))

/-- The canonical form of both memories is kept by every instruction, the micro-operations executed on their own
included (20_memory.md R55, R56; the form is the model's, log entry 13). -/
def Obligations.EveryInstructionKeepsTheMemoriesCanonical : Prop :=
  ∀ (i : Instr) (s t : State), Memory.wf s = true → exec i s = .next t → Memory.wf t = true

/-! ## Encodings -/

/-- 30_encoding.md R70 to R73, R75, R77: words written out from the encoding tables decode to their instructions. -/
def Obligations.SampleWordsDecodeAsTheTablesSay : Prop :=
  decodeToken .enc 0b0001000001#10 = .encByte 0x41#8 ∧
  decodeToken .dec 0b0010000011#10 = .decByte 0x83#8 ∧
  decodeToken .enc 0b0100000000#10 = .encEnd ∧
  decodeToken .dec 0b0100000000#10 = .decEnd ∧
  decodeToken .enc 0b1000000000#10 = .encStart ∧
  decodeToken .dec 0b1000000000#10 = .decStart ∧
  decodeToken .enc 0b0100000001#10 = .reservedEndData .enc 1#8 ∧
  decodeToken .dec 0b1011111111#10 = .reservedStartData .dec 255#8 ∧
  decodeToken .dec 0b1100000000#10 = .reservedOp3 .dec 0#8 ∧
  decodeCode .steady 259#13 0b000100000001#12 = .ok .eod ∧
  decodeCode .awaitFirst 258#13 0b000100000000#12 = .ok .clear ∧
  decodeCode .awaitFirst 258#13 0b000001000001#12 = .ok (.litFirst 65#12) ∧
  decodeCode .awaitFirst 258#13 0b000100000010#12 = .ok (.invalidFirst 258#12) ∧
  decodeCode .steady 260#13 0b000100000011#12 = .ok (.dict 259#12) ∧
  decodeCode .steady 260#13 0b000100000100#12 = .ok (.kwkwk 260#12) ∧
  decodeCode .steady 260#13 0b000100000101#12 = .ok (.invalid 261#12) ∧
  decodeCode .steady 260#13 0b000001000010#12 = .ok (.lit 66#12)

/-- 30_encoding.md R70 to R73: tokens and their instructions stand for each other. Every token of either port decodes
to a well-formed instruction that encodes back to it, and every well-formed instruction with a token is decoded from
it, every DATA value and both ports included. -/
def Obligations.TokensDecodeAndEncodeAgree : Prop :=
  (∀ (u : UnitId) (tok : Token),
    (decodeToken u tok).wellFormed = true ∧ encode (decodeToken u tok) = some (.token u tok)) ∧
  (∀ (i : Instr) (u : UnitId) (tok : Token), i.wellFormed = true → encode i = some (.token u tok) →
    decodeToken u tok = i)

/-- 30_encoding.md R77 and R80: where DEC executes codes, every code has exactly one class, the one whose condition in
the table it meets. -/
def Obligations.EveryCodeHasExactlyOneClass : Prop :=
  ∀ (st : DecState) (nf : FreeCode) (v : Code), st = .awaitFirst ∨ st = .steady → 258 ≤ nf.toNat →
    (∃ i : Instr, decodeCode st nf v = .ok i ∧ i.wellFormed = true ∧ i.occursIn st nf ∧
      encode i = some (.code v)) ∧
    (∀ i : Instr, encode i = some (.code v) → i.occursIn st nf → decodeCode st nf v = .ok i)

/-! ## Status words -/

/-- 10_state.md R36 to R38: the fields of ENC_STATUS, DEC_STATUS and DEC_INFO, the reserved bits 0 (R39), and the numbers
that stand for the states, faults and causes (R22, R23, R30). -/
def Obligations.StatusWordsShowTheUnits : Prop :=
  (EncState.idle.value = 0#2 ∧ EncState.accumulating.value = 1#2 ∧ EncState.eof.value = 2#2 ∧
    EncFault.none.value = 0#2 ∧ EncFault.tableOverflow.value = 1#2) ∧
  (decStateValue .idle = 0#2 ∧ decStateValue .awaitFirst = 1#2 ∧ decStateValue .steady = 2#2 ∧
    decStateValue .done = 3#2 ∧ DecFault.none.value = 0#2 ∧ DecFault.corruptStream.value = 1#2 ∧
    DecFault.tableOverflow.value = 2#2 ∧ Cause.invalidCode.value = 0#1 ∧ Cause.truncated.value = 1#1) ∧
  (∀ e : Enc,
    (encStatus e).extractLsb' 0 2 = e.state.value ∧ (encStatus e).extractLsb' 2 2 = e.fault.value ∧
    (encStatus e).extractLsb' 4 1 = 0#1 ∧ ((encStatus e).extractLsb' 5 4).toNat = e.width.bits ∧
    (encStatus e).extractLsb' 9 13 = e.nf ∧
    ((encStatus e).extractLsb' 22 1 = 1#1 ↔ e.pending ≠ none) ∧
    (e.pkCnt.toNat ≤ 7 → ((encStatus e).extractLsb' 23 3).toNat = e.pkCnt.toNat) ∧
    (encStatus e).extractLsb' 26 6 = 0#6) ∧
  (∀ d : Dec,
    (decStatus d).extractLsb' 0 2 = decStateValue d.state ∧ (decStatus d).extractLsb' 2 2 = d.fault.value ∧
    (decStatus d).extractLsb' 4 1 = d.cause.value ∧ ((decStatus d).extractLsb' 5 4).toNat = d.width.bits ∧
    (decStatus d).extractLsb' 9 13 = d.nf ∧ (decStatus d).extractLsb' 22 1 = 0#1 ∧
    (decStatus d).extractLsb' 23 5 = d.upCnt ∧ (decStatus d).extractLsb' 28 4 = 0#4 ∧
    (decInfo d).extractLsb' 0 12 = d.last.value ∧ (decInfo d).extractLsb' 12 4 = d.last.width ∧
    ((decInfo d).extractLsb' 16 1 = 1#1 ↔ d.last.valid = true) ∧ (decInfo d).extractLsb' 17 15 = 0#15)

/-! ## Bit Channel -/

/-- 40_bit_channel.md R101 with 20_memory.md R51: PUT sends the bits held and then the code's own bits, code bit 0
first; one or two bytes go out, 0 to 7 bits stay, and nothing else changes. -/
def Obligations.PutSendsTheCodesBitsLowBitFirst : Prop :=
  ∀ (s : State) (v : Code) (w : CodeWidth),
    v.toNat < 2 ^ w.bits → s.enc.pkCnt.toNat ≤ 7 → s.enc.pkAcc.toNat < 2 ^ s.enc.pkCnt.toNat →
    ∃ (sent : List Byte) (acc : Accumulator) (cnt : BitCount),
      exec (.put v w) s =
        .next { s with enc := { s.enc with pkAcc := acc, pkCnt := cnt, out := s.enc.out ++ sent } } ∧
      (sent.length = 1 ∨ sent.length = 2) ∧ cnt.toNat ≤ 7 ∧ acc.toNat < 2 ^ cnt.toNat ∧
      streamBits sent ++ heldBits acc cnt = heldBits s.enc.pkAcc s.enc.pkCnt ++ codeBits v w

/-- 40_bit_channel.md R102: FLUSH sends the bits held in one last byte, filled up with 0 bits, or nothing when none is
held; it leaves the packer empty and changes nothing else. -/
def Obligations.FlushPadsTheLastByteWithZeros : Prop :=
  ∀ s : State, s.enc.pkCnt.toNat ≤ 7 → s.enc.pkAcc.toNat < 2 ^ s.enc.pkCnt.toNat →
    (s.enc.pkCnt = 0#5 →
      exec .flush s = .next { s with enc := { s.enc with pkAcc := 0#19, pkCnt := 0#5 } }) ∧
    (s.enc.pkCnt ≠ 0#5 →
      ∃ x : Byte,
        exec .flush s =
          .next { s with enc := { s.enc with pkAcc := 0#19, pkCnt := 0#5, out := s.enc.out ++ [x] } } ∧
        byteBits x = heldBits s.enc.pkAcc s.enc.pkCnt ++ List.replicate (8 - s.enc.pkCnt.toNat) false)

/-- 40_bit_channel.md R103: FILL puts the byte's bits, bit 0 first, after the bits held, and changes nothing else. -/
def Obligations.FillHoldsTheBytesBitsAfterThoseHeld : Prop :=
  ∀ (s : State) (x : Byte), s.dec.upCnt.toNat ≤ 11 → s.dec.upAcc.toNat < 2 ^ s.dec.upCnt.toNat →
    ∃ (acc : Accumulator) (cnt : BitCount),
      exec (.fill x) s = .next { s with dec := { s.dec with upAcc := acc, upCnt := cnt } } ∧
      cnt.toNat = s.dec.upCnt.toNat + 8 ∧ acc.toNat < 2 ^ cnt.toNat ∧
      heldBits acc cnt = heldBits s.dec.upAcc s.dec.upCnt ++ byteBits x

/-- 40_bit_channel.md R104: GET takes the first `w` bits held as the code they spell, bit 0 first, returns it, and
changes nothing else. -/
def Obligations.GetTakesTheFirstBitsHeldAsACode : Prop :=
  ∀ (s : State) (w : CodeWidth), w.bits ≤ s.dec.upCnt.toNat →
    ∃ (v : Code) (acc : Accumulator) (cnt : BitCount),
      exec (.get w) s =
        .next { s with dec := { s.dec with upAcc := acc, upCnt := cnt }, returned := some (.code v) } ∧
      v.toNat < 2 ^ w.bits ∧ cnt.toNat + w.bits = s.dec.upCnt.toNat ∧
      heldBits s.dec.upAcc s.dec.upCnt = codeBits v w ++ heldBits acc cnt

/-- 40_bit_channel.md R105: an unpacker that starts empty and is fed what a packer wrote takes the same codes, and fewer
than 8 bits are left, all 0. -/
def Obligations.UnpackingGivesBackWhatWasPacked : Prop :=
  ∀ codes : List (Code × CodeWidth), (∀ c ∈ codes, c.1.toNat < 2 ^ c.2.bits) →
    let r := unpacked (codes.map Prod.snd) (packed codes) Dec.reset
    r.1 = codes.map Prod.fst ∧ r.2.1 = [] ∧ r.2.2.upCnt.toNat < 8 ∧ r.2.2.upAcc = 0#19

/-! ## Code table -/

/-- 41_code_table.md R120: TABLE_RESET gives next free code 258, width 9 and the baseline dictionary, in any state of
the unit, and touches nothing else of the machine. -/
def Obligations.TableResetRestoresTheBaseline : Prop :=
  (∀ s : State, ∃ trie : Memory Code,
    exec (.tableReset .enc) s = .next { s with enc := { s.enc with nf := 258#13, width := .w9, trie := trie } } ∧
    (∀ (n : Code) (b : Byte), trieChild trie (.code n) b = none) ∧
    (∀ b : Byte, trieChild trie .root b = some (b.setWidth 12))) ∧
  (∀ s : State, ∃ tab : Memory ByteSeq,
    exec (.tableReset .dec) s = .next { s with dec := { s.dec with nf := 258#13, width := .w9, tab := tab } } ∧
    (∀ c : Code, c.toNat < 256 → tabRead tab c = .bytes ⟨c.setWidth 8, []⟩) ∧
    tabRead tab 256#12 = .control ∧ tabRead tab 257#12 = .control)

/-- 41_code_table.md R121: two table resets in a row leave the same state as one. -/
def Obligations.TableResetTwiceIsOnce : Prop :=
  ∀ (u : UnitId) (s : State), ∃ t, exec (.tableReset u) s = .next t ∧ exec (.tableReset u) t = .next t

/-- 41_code_table.md R123: the width function, and that the codes below a next free code fit its width. -/
def Obligations.WidthFunctionFollowsTheThresholds : Prop :=
  ∀ n : Nat,
    (n < 512 → (widthFor n).bits = 9) ∧ (512 ≤ n → n < 1024 → (widthFor n).bits = 10) ∧
    (1024 ≤ n → n < 2048 → (widthFor n).bits = 11) ∧ (2048 ≤ n → (widthFor n).bits = 12) ∧
    (258 ≤ n → n ≤ 4096 → n - 1 < 2 ^ (widthFor n).bits)

/-- 41_code_table.md R124 and 20_memory.md R55: ADD_ENTRY assigns the next free code, counts it and follows the unit's
width schedule; every other edge or slot reads as before. In a full table it takes the TableOverflow fault and stores
nothing. The rule's pseudocode tests neither that the parent is a node of the trie nor that the edge is new, and the
rules call it only where both hold (R55); that it runs alike on its own for any other non-root parent and for an edge
already stored is the model's choice and no rule's (DESIGN CHOICE, unsafe, log entry 20). -/
def Obligations.AddEntryAssignsTheNextFreeCode : Prop :=
  (∀ (s : State) (n : Code) (b : Byte), s.enc.nf.toNat < 4096 →
    ∃ (c : Code) (trie : Memory Code) (nf : FreeCode),
      exec (.addEntry (.edge (.code n) b)) s =
        .next { s with
          enc := { s.enc with trie := trie, nf := nf, width := widthFor nf.toNat }
          returned := some (.slot c) } ∧
      c.toNat = s.enc.nf.toNat ∧ nf.toNat = s.enc.nf.toNat + 1 ∧
      trieChild trie (.code n) b = some c ∧
      (∀ (n' : Code) (b' : Byte), (n', b') ≠ (n, b) →
        trieChild trie (.code n') b' = trieChild s.enc.trie (.code n') b')) ∧
  (∀ (s : State) (q : ByteSeq), 258 ≤ s.dec.nf.toNat → s.dec.nf.toNat < 4096 →
    ∃ (c : Code) (tab : Memory ByteSeq) (nf : FreeCode),
      exec (.addEntry (.sequence q)) s =
        .next { s with
          dec := { s.dec with tab := tab, nf := nf, width := widthFor (nf.toNat + 1) }
          returned := some (.slot c) } ∧
      c.toNat = s.dec.nf.toNat ∧ nf.toNat = s.dec.nf.toNat + 1 ∧
      tabRead tab c = .bytes q ∧ (∀ c' : Code, c' ≠ c → tabRead tab c' = tabRead s.dec.tab c')) ∧
  (∀ (s : State) (n : NodeId) (b : Byte), s.enc.nf.toNat = 4096 →
    ∃ t, exec (.addEntry (.edge n b)) s = .next t ∧ t.enc = { s.enc with fault := .tableOverflow } ∧
      t.dec = s.dec ∧ t.input = s.input) ∧
  (∀ (s : State) (q : ByteSeq), s.dec.nf.toNat = 4096 →
    ∃ t, exec (.addEntry (.sequence q)) s = .next t ∧
      t.dec = { s.dec with fault := .tableOverflow, cause := .invalidCode } ∧ t.enc = s.enc ∧ t.input = s.input)

/-! ## Encode dictionary -/

/-- 42_encode_dictionary.md R140: CHILD_NODE(n, b) returns the child of `n` along `b`, which for ROOT is always the
literal, and changes nothing else. -/
def Obligations.ChildNodeLooksUpOneEdge : Prop :=
  ∀ (s : State) (n : NodeId) (b : Byte), ∃ r : Option Code,
    exec (.childNodeB n b) s = .next { s with returned := some (.child r) } ∧
    r = trieChild s.enc.trie n b ∧ (n = .root → r = some (b.setWidth 12))

/-- 42_encode_dictionary.md R141 and R142: CHILD_NODE(n, s) walks one byte at a time, NONE at the first missing link;
along a sequence that is `p ++ q` it goes on with `q` from where `p` led. GET_NODE walks from ROOT. Nothing else
changes. -/
def Obligations.ChildNodeWalksASequence : Prop :=
  ∀ (s : State) (n : NodeId),
    exec (.childNodeS n []) s = .next { s with returned := some (.node (some n)) } ∧
    (∀ b : Byte, exec (.childNodeS n [b]) s =
      .next { s with returned := some (.node ((trieChild s.enc.trie n b).map NodeId.code)) }) ∧
    (∀ p q : List Byte, ∃ r : Option NodeId,
      exec (.childNodeS n p) s = .next { s with returned := some (.node r) } ∧
      (r = none → exec (.childNodeS n (p ++ q)) s = .next { s with returned := some (.node none) }) ∧
      (∀ m, r = some m → exec (.childNodeS n (p ++ q)) s = exec (.childNodeS m q) s)) ∧
    (∀ q : List Byte, ∃ r : Option NodeId,
      exec (.getNode q) s = .next { s with returned := some (.node r) } ∧
      exec (.childNodeS .root q) s = .next { s with returned := some (.node r) })

/-- 42_encode_dictionary.md R143 (20_memory.md R55): VISIT moves along a known edge, or learns the run: the edge gains the next free code,
every other edge reads as before, and the run becomes the byte alone. In a full table the fault leaves ENC.cur
unchanged. That it runs alike where ENC.cur is a code that is no node, in states no run reaches, is the model's choice
and no rule's (DESIGN CHOICE, unsafe, log entry 20). -/
def Obligations.VisitExtendsTheMatchOrLearnsTheRun : Prop :=
  ∀ (s : State) (b : Byte),
    (∀ c : Code, trieChild s.enc.trie s.enc.cur b = some c →
      exec (.visit b) s =
        .next { s with enc := { s.enc with cur := .code c }, returned := some (.grew false) }) ∧
    (∀ n : Code, s.enc.cur = .code n → trieChild s.enc.trie (.code n) b = none → s.enc.nf.toNat < 4096 →
      ∃ (c : Code) (trie : Memory Code) (nf : FreeCode),
        exec (.visit b) s =
          .next { s with
            enc := { s.enc with trie := trie, nf := nf, width := widthFor nf.toNat, cur := .code (b.setWidth 12) }
            returned := some (.grew true) } ∧
        c.toNat = s.enc.nf.toNat ∧ nf.toNat = s.enc.nf.toNat + 1 ∧
        trieChild trie (.code n) b = some c ∧
        (∀ (n' : Code) (b' : Byte), (n', b') ≠ (n, b) →
          trieChild trie (.code n') b' = trieChild s.enc.trie (.code n') b')) ∧
    (trieChild s.enc.trie s.enc.cur b = none → s.enc.nf.toNat = 4096 →
      ∃ t, exec (.visit b) s = .next t ∧ t.enc = { s.enc with fault := .tableOverflow } ∧
        t.dec = s.dec ∧ t.input = s.input)

/-- 42_encode_dictionary.md R145: outside IDLE every node of the trie is the node of exactly one byte sequence. -/
def Obligations.EveryNodeHasExactlyOnePath : Prop :=
  ∀ e : Enc, EncInv e → e.state ≠ .idle → ∀ c : Code, IsNode e.nf c →
    ∃ p : List Byte, nodeOf e.trie p = some (.code c) ∧
      ∀ q : List Byte, nodeOf e.trie q = some (.code c) → q = p

/-! ## Encoder -/

/-- 44_encoder.md R184: ENC_START begins an operation from every state, in a fault too: CLEAR is written at width 9, so
`00` goes out and one bit, 1, is held; the trie is the baseline. -/
def Obligations.EncStartBeginsAnOperation : Prop :=
  ∀ s : State, ∃ trie : Memory Code,
    exec .encStart s =
      .next { s with
        enc := { state := .accumulating, fault := .none, nf := 258#13, width := .w9, cur := .root, pending := none,
                 trie := trie, pkAcc := 1#19, pkCnt := 1#5, out := s.enc.out ++ [0x00#8] } } ∧
    (∀ (n : Code) (b : Byte), trieChild trie (.code n) b = none) ∧
    (∀ b : Byte, trieChild trie .root b = some (b.setWidth 12))

/-- 44_encoder.md R185: ENC_BYTE holds the byte; with one held before it, that one is processed first with the new byte
as its lookahead, and a fault there ends the command. -/
def Obligations.EncByteHoldsTheByteAndProcessesTheOneBefore : Prop :=
  ∀ (s : State) (x : Byte),
    (s.enc.state = .accumulating → s.enc.fault = .none → s.enc.pending = none →
      exec (.encByte x) s = .next { s with enc := { s.enc with pending := some x } }) ∧
    (s.enc.state = .accumulating → s.enc.fault = .none → ∀ b : Byte, s.enc.pending = some b →
      ∃ t, exec (.encStep b (.byte x)) s = .next t ∧
        (t.enc.fault = .none → exec (.encByte x) s = .next { t with enc := { t.enc with pending := some x } }) ∧
        (t.enc.fault ≠ .none → exec (.encByte x) s = .next t)) ∧
    (s.enc.state ≠ .accumulating ∨ s.enc.fault ≠ .none → ∃ r, exec (.encByte x) s = .refused r)

/-- ENC_BYTE completes in ACCUMULATING without a fault unless the table is full (44_encoder.md R185, R186): the byte is
held, the operation goes on, the other unit is untouched, and outside a table reset only the edge of the byte processed
can have changed. That it runs alike where ENC.cur is a code that is no node is the model's choice (log entry 20). -/
def Obligations.EncByteCompletesWhileAccumulating : Prop :=
  ∀ (s : State) (x : Byte), s.enc.state = .accumulating → s.enc.fault = .none → s.enc.nf.toNat ≠ 4096 →
    ∃ t, exec (.encByte x) s = .next t ∧ t.enc.pending = some x ∧ t.enc.state = .accumulating ∧
      t.enc.fault = .none ∧ s.enc.out <+: t.enc.out ∧ t.dec = s.dec ∧ t.input = s.input ∧ t.returned = s.returned ∧
      (t.enc.nf = 258#13 ∧ (∀ (n : Code) (y : Byte), trieChild t.enc.trie (.code n) y = none) ∨
        ∀ (n : Code) (y : Byte), ¬ (s.enc.cur = .code n ∧ s.enc.pending = some y) →
          trieChild t.enc.trie (.code n) y = trieChild s.enc.trie (.code n) y)

/-- 44_encoder.md R186: what ENC_STEP does once VISIT has returned: at the end of the data the match is written; else it
is written when it cannot extend along the lookahead, and at next free code 4095 it is written in any case, then CLEAR
at the same width, and the table and the run start again. A fault of VISIT ends the step. -/
def Obligations.EncStepWritesTheMatchThatCannotExtend : Prop :=
  ∀ (s s1 : State) (b : Byte), s.enc.fault = .none → exec (.visit b) s = .next s1 →
    (s1.enc.fault ≠ .none → ∀ la, exec (.encStep b la) s = .next (s1.withReturned s.returned)) ∧
    (s1.enc.fault = .none →
      ∃ code : Code, s1.enc.cur = .code code ∧
        exec (.encStep b .endOfData) s = exec (.put code s1.enc.width) (s1.withReturned s.returned) ∧
        ∀ x : Byte,
          (s1.enc.nf.toNat ≠ 4095 → trieChild s1.enc.trie (.code code) x = none →
            exec (.encStep b (.byte x)) s = exec (.put code s1.enc.width) (s1.withReturned s.returned)) ∧
          (s1.enc.nf.toNat ≠ 4095 → trieChild s1.enc.trie (.code code) x ≠ none →
            exec (.encStep b (.byte x)) s = .next (s1.withReturned s.returned)) ∧
          (s1.enc.nf.toNat = 4095 →
            ∃ s2 s3 s4 : State,
              exec (.put code s1.enc.width) (s1.withReturned s.returned) = .next s2 ∧
              exec (.put 256#12 s1.enc.width) s2 = .next s3 ∧ exec (.tableReset .enc) s3 = .next s4 ∧
              exec (.encStep b (.byte x)) s = .next { s4 with enc := { s4.enc with cur := .root } }))

/-- ENC_STEP completes unless the table is full (44_encoder.md R186): the control state, the byte held, DEC and the
waiting commands stay as they are, and outside a table reset every edge but `(ENC.cur, b)` reads as before. That it
runs alike where ENC.cur is a code that is no node is the model's choice (log entry 20). -/
def Obligations.EncStepCompletesAndChangesOneEdge : Prop :=
  ∀ (s : State) (b : Byte) (la : Lookahead), s.enc.nf.toNat ≠ 4096 →
    ∃ t, exec (.encStep b la) s = .next t ∧ t.enc.state = s.enc.state ∧ t.enc.fault = s.enc.fault ∧
      t.enc.pending = s.enc.pending ∧ t.dec = s.dec ∧ t.input = s.input ∧ t.returned = s.returned ∧
      s.enc.out <+: t.enc.out ∧
      (la ≠ .endOfData ∧ t.enc.nf = 258#13 ∧ t.enc.width = .w9 ∧ t.enc.cur = .root ∧
          (∀ (n : Code) (y : Byte), trieChild t.enc.trie (.code n) y = none) ∨
        ∀ (n : Code) (y : Byte), ¬ (s.enc.cur = .code n ∧ y = b) →
          trieChild t.enc.trie (.code n) y = trieChild s.enc.trie (.code n) y)

/-- 44_encoder.md R188 and R189: ENC_END processes the byte held, if any, as the last one (`s1` is the state after
that), then writes EOD at `W(nf + 1)`, which is ENC.width but at 511, 1023 and 2047, where it is one bit more; the last
byte is filled with 0 bits and ENC is in EOF. A fault on the way ends the command; out of ACCUMULATING and in a fault it
is refused. -/
def Obligations.EncEndClosesTheStream : Prop :=
  (∀ s s1 : State, s.enc.state = .accumulating → s.enc.fault = .none →
    ((s.enc.pending = none ∧ s1 = s) ∨
      (∃ b : Byte, s.enc.pending = some b ∧ exec (.encStep b .endOfData) s = .next s1)) →
    (s1.enc.fault = .none → s1.enc.width = widthFor s1.enc.nf.toNat →
      s1.enc.pkCnt.toNat ≤ 7 → s1.enc.pkAcc.toNat < 2 ^ s1.enc.pkCnt.toNat →
      ∃ (sent : List Byte) (padding : Nat) (w : CodeWidth),
        exec .encEnd s =
          .next { s1 with
            enc := { s1.enc with state := .eof, pending := none, pkAcc := 0#19, pkCnt := 0#5,
                                 out := s1.enc.out ++ sent } } ∧
        padding < 8 ∧ w = widthFor (s1.enc.nf.toNat + 1) ∧
        w.bits = s1.enc.width.bits +
          (if s1.enc.nf.toNat = 511 ∨ s1.enc.nf.toNat = 1023 ∨ s1.enc.nf.toNat = 2047 then 1 else 0) ∧
        streamBits sent =
          heldBits s1.enc.pkAcc s1.enc.pkCnt ++ codeBits 257#12 w ++ List.replicate padding false) ∧
    (s1.enc.fault ≠ .none → exec .encEnd s = .next s1)) ∧
  (∀ s : State, s.enc.state ≠ .accumulating ∨ s.enc.fault ≠ .none → ∃ r, exec .encEnd s = .refused r)

/-- ENC_END completes in ACCUMULATING without a fault unless the table is full (44_encoder.md R188): ENC is in EOF with
nothing held, DEC and the waiting commands are untouched, and every edge but the one of the byte processed reads as
before. That it runs alike where ENC.cur is a code that is no node is the model's choice (log entry 20). -/
def Obligations.EncEndCompletesWhileAccumulating : Prop :=
  ∀ s : State, s.enc.state = .accumulating → s.enc.fault = .none → s.enc.nf.toNat ≠ 4096 →
    ∃ t, exec .encEnd s = .next t ∧ t.enc.state = .eof ∧ t.enc.fault = .none ∧ t.enc.pending = none ∧
      t.enc.pkAcc = 0#19 ∧ t.enc.pkCnt = 0#5 ∧ s.enc.out <+: t.enc.out ∧ t.dec = s.dec ∧ t.input = s.input ∧
      t.returned = s.returned ∧
      (∀ (n : Code) (y : Byte), ¬ (s.enc.cur = .code n ∧ s.enc.pending = some y) →
        trieChild t.enc.trie (.code n) y = trieChild s.enc.trie (.code n) y)

/-- 44_encoder.md R187: ENC refuses BYTE and END exactly in IDLE, in EOF and in a fault, and every reserved token;
START is never refused. A refusal has no next state. -/
def Obligations.EncRefusesExactlyWhatTheSpecLists : Prop :=
  ∀ (s : State) (x : Byte),
    ((∃ r, exec (.encByte x) s = .refused r) ↔
      s.enc.state = .idle ∨ s.enc.state = .eof ∨ s.enc.fault ≠ .none) ∧
    ((∃ r, exec .encEnd s = .refused r) ↔
      s.enc.state = .idle ∨ s.enc.state = .eof ∨ s.enc.fault ≠ .none) ∧
    (∃ t, exec .encStart s = .next t) ∧
    (∀ tok : Token,
      (tok.toNat / 256 = 3 ∨ (tok.toNat / 256 = 1 ∨ tok.toNat / 256 = 2) ∧ tok.toNat % 256 ≠ 0) →
      ∃ r, exec (decodeToken .enc tok) s = .refused r)

/-- 44_encoder.md R192: in a state that meets the invariant no step brings ENC to a TableOverflow, and its next free
code stays at most 4095. -/
def Obligations.EncTableOverflowIsUnreachable : Prop :=
  ∀ s t : State, Inv s → step s = .next t → t.enc.fault = .none ∧ t.enc.nf.toNat ≤ 4095

/-! ## Decoder commands -/

/-- 45_decoder.md R214: DEC_START begins an operation from every state, in a fault too, with the baseline table and an
empty unpacker; nothing is emitted. -/
def Obligations.DecStartBeginsAnOperation : Prop :=
  ∀ s : State, ∃ tab : Memory ByteSeq,
    exec .decStart s =
      .next { s with
        dec := { state := .awaitFirst, fault := .none, cause := .invalidCode, nf := 258#13, width := .w9, prev := none,
                 tab := tab, upAcc := 0#19, upCnt := 0#5, last := ⟨0#12, 0#4, false⟩, out := s.dec.out } } ∧
    (∀ c : Code, c.toNat < 256 → tabRead tab c = .bytes ⟨c.setWidth 8, []⟩) ∧
    tabRead tab 256#12 = .control ∧ tabRead tab 257#12 = .control

/-- 45_decoder.md R215: DEC_BYTE holds the byte's bits, and executes the code they complete, if any: at most one, at the
width in force. In DONE the byte is discarded; in IDLE and in a fault the command is refused. -/
def Obligations.DecByteExecutesTheCodeItCompletes : Prop :=
  ∀ (s : State) (x : Byte),
    (s.dec.state = .done → s.dec.fault = .none → exec (.decByte x) s = .next s) ∧
    (s.dec.state = .awaitFirst ∨ s.dec.state = .steady → s.dec.fault = .none →
      s.dec.upCnt.toNat < s.dec.width.bits →
      (s.dec.upCnt.toNat + 8 < s.dec.width.bits → ∃ t, exec (.fill x) s = .next t ∧ exec (.decByte x) s = .next t) ∧
      (s.dec.width.bits ≤ s.dec.upCnt.toNat + 8 →
        ∃ (s1 s2 : State) (v : Code), exec (.fill x) s = .next s1 ∧
          exec (.get s.dec.width) s1 = .next s2 ∧ s2.returned = some (.code v) ∧
          exec (.decByte x) s = exec (.decExec v s.dec.width) (s2.withReturned s.returned))) ∧
    (s.dec.state = .idle ∨ s.dec.fault ≠ .none → ∃ r, exec (.decByte x) s = .refused r)

/-- DEC_BYTE completes outside IDLE without a fault in a state that meets the invariant (45_decoder.md R215): what was
emitted stays, ENC and the waiting commands are untouched, and unless CLEAR reset the table every slot but the next free
one reads as before. -/
def Obligations.DecByteCompletesWhileOperating : Prop :=
  ∀ (s : State) (x : Byte), DecInv s.dec → s.dec.state ≠ .idle → s.dec.fault = .none →
    ∃ t, exec (.decByte x) s = .next t ∧ s.dec.out <+: t.dec.out ∧ t.enc = s.enc ∧ t.input = s.input ∧
      t.returned = s.returned ∧
      (t.dec.last.value = 256#12 ∧ t.dec.last.valid = true ∧ t.dec.nf = 258#13 ∨
        ∀ c : Code, c.toNat ≠ s.dec.nf.toNat → tabRead t.dec.tab c = tabRead s.dec.tab c)

/-- 45_decoder.md R216 and 60_exceptions.md R243: DEC_END before EOD takes the CorruptStream fault with cause TRUNCATED
and changes nothing else; in DONE it has no effect; in IDLE and in a fault it is refused. -/
def Obligations.DecEndBeforeEodIsATruncatedStream : Prop :=
  ∀ s : State,
    (s.dec.state = .done → s.dec.fault = .none → exec .decEnd s = .next s) ∧
    (s.dec.state = .awaitFirst ∨ s.dec.state = .steady → s.dec.fault = .none →
      exec .decEnd s = .next { s with dec := { s.dec with fault := .corruptStream, cause := .truncated } }) ∧
    (s.dec.state = .idle ∨ s.dec.fault ≠ .none → ∃ r, exec .decEnd s = .refused r)

/-- 45_decoder.md R217: DEC refuses BYTE and END exactly in IDLE and in a fault, and every reserved token; START is never
refused, and BYTE and END in DONE are steps with no effect. A refusal has no next state. -/
def Obligations.DecRefusesExactlyWhatTheSpecLists : Prop :=
  ∀ (s : State) (x : Byte),
    ((∃ r, exec (.decByte x) s = .refused r) ↔ s.dec.state = .idle ∨ s.dec.fault ≠ .none) ∧
    ((∃ r, exec .decEnd s = .refused r) ↔ s.dec.state = .idle ∨ s.dec.fault ≠ .none) ∧
    (∃ t, exec .decStart s = .next t) ∧
    (s.dec.state = .done → s.dec.fault = .none →
      exec (.decByte x) s = .next s ∧ exec .decEnd s = .next s) ∧
    (∀ tok : Token,
      (tok.toNat / 256 = 3 ∨ (tok.toNat / 256 = 1 ∨ tok.toNat / 256 = 2) ∧ tok.toNat % 256 ≠ 0) →
      ∃ r, exec (decodeToken .dec tok) s = .refused r)

/-- 30_encoding.md R73: a token with OP = 11, or with OP 01 or 10 and DATA other than 0, is refused on both ports, in
every state, and so are the three instructions such tokens decode to. -/
def Obligations.ReservedTokensAreRefused : Prop :=
  ∀ (s : State) (u : UnitId) (data : Byte),
    exec (.reservedOp3 u data) s = .refused .reservedToken ∧
    exec (.reservedEndData u data) s = .refused .reservedToken ∧
    exec (.reservedStartData u data) s = .refused .reservedToken ∧
    (∀ (tok : Token) (rest : List Input),
      (tok.toNat / 256 = 3 ∨ (tok.toNat / 256 = 1 ∨ tok.toNat / 256 = 2) ∧ tok.toNat % 256 ≠ 0) →
      exec (decodeToken u tok) s = .refused .reservedToken ∧
      (s.input = .token u tok :: rest → step s = .refused .reservedToken))

/-! ## Wire codes -/

/-- 45_decoder.md R218 with 30_encoding.md R77 and R79: DEC_EXEC records the code with its width and then runs the
instruction of the code's class, the class being that of the state before. The rules give it only `w = DEC.width` and a
code that fits `w`; that it runs alike on its own for any other width and for a code of 2^w or more is the model's choice
and no rule's (DESIGN CHOICE, unsafe, log entry 21). -/
def Obligations.DecExecRecordsTheCodeAndRunsItsClass : Prop :=
  ∀ (s : State) (v : Code) (w : CodeWidth) (i : Instr), s.dec.fault = .none →
    decodeCode s.dec.state s.dec.nf v = .ok i →
    exec (.decExec v w) s =
      exec i { s with dec := { s.dec with last := ⟨v, BitVec.ofNat 4 w.bits, true⟩ } }

/-- DEC_EXEC completes where DEC executes codes, in a state that meets the invariant (45_decoder.md R218): the code is
recorded and ENC, the unpacker and the waiting commands stay as they are. That it runs alike on its own for a width other
than DEC.width and for a code of 2^w or more is the model's choice and no rule's (DESIGN CHOICE, unsafe, log entry 21). -/
def Obligations.DecExecCompletesWhereCodesExecute : Prop :=
  ∀ (s : State) (v : Code) (w : CodeWidth), DecInv s.dec → s.dec.fault = .none →
    s.dec.state = .awaitFirst ∨ s.dec.state = .steady →
    ∃ t, exec (.decExec v w) s = .next t ∧ t.dec.last = ⟨v, BitVec.ofNat 4 w.bits, true⟩ ∧ t.enc = s.enc ∧
      t.dec.upAcc = s.dec.upAcc ∧ t.dec.upCnt = s.dec.upCnt ∧ t.input = s.input ∧ t.returned = s.returned

/-- 45_decoder.md R219: EOD ends the stream and changes nothing else. -/
def Obligations.EodEndsTheStream : Prop :=
  ∀ s : State, s.dec.fault = .none → s.dec.state = .awaitFirst ∨ s.dec.state = .steady →
    exec .eod s = .next { s with dec := { s.dec with state := .done } }

/-- 45_decoder.md R220: CLEAR resets the table, drops the previous sequence and awaits a first code again; it emits
nothing and changes nothing else. -/
def Obligations.ClearResetsTheTableAndAwaitsAFirstCode : Prop :=
  ∀ s : State, s.dec.fault = .none → s.dec.state = .awaitFirst ∨ s.dec.state = .steady →
    ∃ tab : Memory ByteSeq,
      exec .clear s =
        .next { s with
          dec := { s.dec with nf := 258#13, width := .w9, tab := tab, prev := none, state := .awaitFirst } } ∧
      exec (.tableReset .dec) s =
        .next { s with dec := { s.dec with nf := 258#13, width := .w9, tab := tab } }

/-- 45_decoder.md R221: a first literal is emitted and remembered, without an entry, and DEC is in STEADY. -/
def Obligations.FirstLiteralIsEmittedWithoutAnEntry : Prop :=
  ∀ (s : State) (v : Code), s.dec.fault = .none → s.dec.state = .awaitFirst → v.toNat < 256 →
    exec (.litFirst v) s =
      .next { s with
        dec := { s.dec with
          state := .steady, prev := some ⟨v.setWidth 8, []⟩, out := s.dec.out ++ [v.setWidth 8] } }

/-- 45_decoder.md R226 with 60_exceptions.md R244: STEADY_TAIL emits the sequence, learns the previous one followed by
its first byte in the next free slot, every other slot reading as before, and remembers it. In a full table the
sequence has been emitted when the TableOverflow fault is taken, and nothing else changes. -/
def Obligations.SteadyTailEmitsLearnsAndRemembers : Prop :=
  (∀ (s : State) (p q : ByteSeq), s.dec.prev = some p → 258 ≤ s.dec.nf.toNat → s.dec.nf.toNat < 4096 →
    ∃ (tab : Memory ByteSeq) (nf : FreeCode),
      exec (.steadyTail q) s =
        .next { s with
          dec := { s.dec with tab := tab, nf := nf, width := widthFor (nf.toNat + 1), prev := some q,
                              out := s.dec.out ++ q.head :: q.tail } } ∧
      nf.toNat = s.dec.nf.toNat + 1 ∧
      (∀ c : Code, c.toNat = s.dec.nf.toNat → tabRead tab c = .bytes ⟨p.head, p.tail ++ [q.head]⟩) ∧
      (∀ c : Code, c.toNat ≠ s.dec.nf.toNat → tabRead tab c = tabRead s.dec.tab c)) ∧
  (∀ (s : State) (p q : ByteSeq), s.dec.prev = some p → s.dec.nf.toNat = 4096 →
    exec (.steadyTail q) s =
      .next { s with
        dec := { s.dec with fault := .tableOverflow, cause := .invalidCode,
                            out := s.dec.out ++ q.head :: q.tail } })

/-- 45_decoder.md R222: in STEADY a literal resolves to its own byte and ends as STEADY_TAIL does. -/
def Obligations.LiteralResolvesToItsByte : Prop :=
  ∀ (s : State) (v : Code) (p : ByteSeq), s.dec.fault = .none → s.dec.state = .steady → s.dec.prev = some p →
    v.toNat < 256 →
    ∃ t, exec (.lit v) s = .next t ∧ exec (.steadyTail ⟨v.setWidth 8, []⟩) s = .next t ∧
      t.dec.out = s.dec.out ++ [v.setWidth 8]

/-- 45_decoder.md R223: in STEADY an assigned code resolves to the sequence of its slot and ends as STEADY_TAIL does. -/
def Obligations.DictionaryCodeResolvesFromItsSlot : Prop :=
  ∀ (s : State) (v : Code) (p q : ByteSeq), s.dec.fault = .none → s.dec.state = .steady → s.dec.prev = some p →
    258 ≤ v.toNat → v.toNat < s.dec.nf.toNat → tabRead s.dec.tab v = .bytes q →
    ∃ t, exec (.dict v) s = .next t ∧ exec (.steadyTail q) s = .next t ∧
      t.dec.out = s.dec.out ++ q.head :: q.tail

/-- 45_decoder.md R224: in STEADY the next free code resolves to the previous sequence followed by its own first byte,
which its slot then holds; no overflow is possible. -/
def Obligations.KwkwkBuildsItsSequenceFromThePrevious : Prop :=
  ∀ (s : State) (v : Code) (p : ByteSeq), s.dec.fault = .none → s.dec.state = .steady → s.dec.prev = some p →
    258 ≤ v.toNat → v.toNat = s.dec.nf.toNat →
    ∃ t, exec (.kwkwk v) s = .next t ∧ exec (.steadyTail ⟨p.head, p.tail ++ [p.head]⟩) s = .next t ∧
      t.dec.fault = .none ∧ t.dec.out = s.dec.out ++ p.head :: (p.tail ++ [p.head]) ∧
      t.dec.prev = some ⟨p.head, p.tail ++ [p.head]⟩ ∧
      tabRead t.dec.tab v = .bytes ⟨p.head, p.tail ++ [p.head]⟩

/-- 45_decoder.md R225 with 60_exceptions.md R240 and R242: an invalid code takes the CorruptStream fault with cause
INVALID_CODE; nothing is emitted and nothing else changes, the state field included. That a code of 2^DEC.width or more,
which no stream can give (30_encoding.md R79), is invalid alike when executed on its own is the model's choice (DESIGN
CHOICE, unsafe, log entry 21). -/
def Obligations.InvalidCodesTakeTheCorruptStreamFault : Prop :=
  ∀ (s : State) (v : Code), s.dec.fault = .none → 258 ≤ v.toNat →
    (s.dec.state = .steady → s.dec.nf.toNat < v.toNat →
      exec (.invalid v) s =
        .next { s with dec := { s.dec with fault := .corruptStream, cause := .invalidCode } }) ∧
    (s.dec.state = .awaitFirst →
      exec (.invalidFirst v) s =
        .next { s with dec := { s.dec with fault := .corruptStream, cause := .invalidCode } })

/-! ## Decode dictionary -/

/-- 43_decode_dictionary.md R160: BYTES_FOR returns a literal's own byte and the sequence an assigned code's slot holds,
and changes nothing else. R160 speaks of generations: that a literal's slot holds its byte in IDLE before the first START
too, where 10_state.md R44 leaves the table unspecified, is the model's reading (DEDUCED, unsafe there, log entry 10).
That every slot holds a sequence in every state is log entry 1; nothing is said of which. -/
def Obligations.BytesForReturnsTheSequenceOfACode : Prop :=
  ∀ (s : State) (c : Code),
    (c.toNat < 256 →
      exec (.bytesFor c) s = .next { s with returned := some (.bytes ⟨c.setWidth 8, []⟩) }) ∧
    (258 ≤ c.toNat → c.toNat < s.dec.nf.toNat → ∃ q : ByteSeq, tabRead s.dec.tab c = .bytes q ∧
      exec (.bytesFor c) s = .next { s with returned := some (.bytes q) })

/-- 43_decode_dictionary.md R162: ADD_DEC stores `p` followed by the first byte of `q` in the next free slot; every other
slot reads as before. In a full table it takes the TableOverflow fault and stores nothing. -/
def Obligations.AddDecLearnsThePreviousAndOneByte : Prop :=
  ∀ (s : State) (p q : ByteSeq),
    (258 ≤ s.dec.nf.toNat → s.dec.nf.toNat < 4096 →
      ∃ (tab : Memory ByteSeq) (nf : FreeCode),
        exec (.addDec p q) s =
          .next { s with dec := { s.dec with tab := tab, nf := nf, width := widthFor (nf.toNat + 1) } } ∧
        nf.toNat = s.dec.nf.toNat + 1 ∧
        (∀ c : Code, c.toNat = s.dec.nf.toNat → tabRead tab c = .bytes ⟨p.head, p.tail ++ [q.head]⟩) ∧
        (∀ c : Code, c.toNat ≠ s.dec.nf.toNat → tabRead tab c = tabRead s.dec.tab c)) ∧
    (s.dec.nf.toNat = 4096 →
      exec (.addDec p q) s =
        .next { s with dec := { s.dec with fault := .tableOverflow, cause := .invalidCode } })

/-! ## Frames over all instructions -/

/-- 10_state.md R22 to R28: each field of ENC is changed only by the instructions whose rules write it, bytes emitted
stay emitted, and no instruction touches the waiting commands. -/
def Obligations.EncFieldsChangeOnlyByTheirWriters : Prop :=
  ∀ (i : Instr) (s t : State), exec i s = .next t →
    (t.enc.state ≠ s.enc.state → i = .encStart ∨ i = .encEnd) ∧
    (t.enc.pending ≠ s.enc.pending → i = .encStart ∨ i = .encEnd ∨ ∃ x, i = .encByte x) ∧
    (t.enc.cur ≠ s.enc.cur →
      i = .encStart ∨ i = .encEnd ∨ (∃ x, i = .encByte x) ∨ (∃ b la, i = .encStep b la) ∨ ∃ b, i = .visit b) ∧
    (t.enc.fault ≠ s.enc.fault →
      i = .encStart ∨ i = .encEnd ∨ (∃ x, i = .encByte x) ∨ (∃ b la, i = .encStep b la) ∨ (∃ b, i = .visit b) ∨
        ∃ n b, i = .addEntry (.edge n b)) ∧
    (t.enc.nf ≠ s.enc.nf ∨ t.enc.width ≠ s.enc.width ∨ t.enc.trie ≠ s.enc.trie →
      i = .encStart ∨ i = .encEnd ∨ (∃ x, i = .encByte x) ∨ (∃ b la, i = .encStep b la) ∨ (∃ b, i = .visit b) ∨
        (∃ n b, i = .addEntry (.edge n b)) ∨ i = .tableReset .enc) ∧
    (t.enc.pkAcc ≠ s.enc.pkAcc ∨ t.enc.pkCnt ≠ s.enc.pkCnt ∨ t.enc.out ≠ s.enc.out →
      i = .encStart ∨ i = .encEnd ∨ (∃ x, i = .encByte x) ∨ (∃ b la, i = .encStep b la) ∨
        (∃ v w, i = .put v w) ∨ i = .flush) ∧
    s.enc.out <+: t.enc.out ∧ t.input = s.input

/-- 10_state.md R29 to R34: each field of DEC is changed only by the instructions whose rules write it, and bytes
emitted stay emitted. KWKWK never takes a fault. The last clause is about the model's own field
`returned` (log entry 7). -/
def Obligations.DecFieldsChangeOnlyByTheirWriters : Prop :=
  ∀ (i : Instr) (s t : State), exec i s = .next t →
    (t.dec.state ≠ s.dec.state →
      i = .decStart ∨ (∃ x, i = .decByte x) ∨ i = .eod ∨ i = .clear ∨ (∃ v, i = .litFirst v) ∨
        ∃ v w, i = .decExec v w) ∧
    (t.dec.fault ≠ s.dec.fault ∨ t.dec.cause ≠ s.dec.cause →
      i = .decStart ∨ (∃ x, i = .decByte x) ∨ i = .decEnd ∨ (∃ v, i = .invalid v) ∨ (∃ v, i = .invalidFirst v) ∨
        (∃ v, i = .lit v) ∨ (∃ v, i = .dict v) ∨ (∃ v w, i = .decExec v w) ∨ (∃ q, i = .steadyTail q) ∨
        (∃ p q, i = .addDec p q) ∨ ∃ q, i = .addEntry (.sequence q)) ∧
    (t.dec.nf ≠ s.dec.nf ∨ t.dec.width ≠ s.dec.width ∨ t.dec.tab ≠ s.dec.tab →
      i = .decStart ∨ (∃ x, i = .decByte x) ∨ i = .clear ∨ (∃ v, i = .lit v) ∨ (∃ v, i = .dict v) ∨
        (∃ v, i = .kwkwk v) ∨ (∃ v w, i = .decExec v w) ∨ (∃ q, i = .steadyTail q) ∨ (∃ p q, i = .addDec p q) ∨
        (∃ q, i = .addEntry (.sequence q)) ∨ i = .tableReset .dec) ∧
    (t.dec.prev ≠ s.dec.prev →
      i = .decStart ∨ (∃ x, i = .decByte x) ∨ i = .clear ∨ (∃ v, i = .litFirst v) ∨ (∃ v, i = .lit v) ∨
        (∃ v, i = .dict v) ∨ (∃ v, i = .kwkwk v) ∨ (∃ v w, i = .decExec v w) ∨ ∃ q, i = .steadyTail q) ∧
    (t.dec.upAcc ≠ s.dec.upAcc ∨ t.dec.upCnt ≠ s.dec.upCnt →
      i = .decStart ∨ (∃ x, i = .decByte x) ∨ (∃ x, i = .fill x) ∨ ∃ w, i = .get w) ∧
    (t.dec.last ≠ s.dec.last → i = .decStart ∨ (∃ x, i = .decByte x) ∨ ∃ v w, i = .decExec v w) ∧
    (t.dec.out ≠ s.dec.out →
      (∃ x, i = .decByte x) ∨ (∃ v, i = .litFirst v) ∨ (∃ v, i = .lit v) ∨ (∃ v, i = .dict v) ∨
        (∃ v, i = .kwkwk v) ∨ (∃ v w, i = .decExec v w) ∨ ∃ q, i = .steadyTail q) ∧
    s.dec.out <+: t.dec.out ∧
    (t.returned ≠ s.returned →
      (∃ w, i = .get w) ∨ (∃ p, i = .addEntry p) ∨ (∃ n b, i = .childNodeB n b) ∨ (∃ n q, i = .childNodeS n q) ∨
        (∃ q, i = .getNode q) ∨ (∃ b, i = .visit b) ∨ ∃ c, i = .bytesFor c)

/-! ## The whole machine -/

/-- 60_exceptions.md R249: a fault lasts until START on the faulted unit or `rst`; until then no step changes the unit
in any way. -/
def Obligations.AFaultLastsUntilStartOrReset : Prop :=
  ∀ s t : State, step s = .next t →
    (s.enc.fault ≠ .none → s.input.head? ≠ some (startToken .enc) → s.input.head? ≠ some .rst → t.enc = s.enc) ∧
    (s.dec.fault ≠ .none → s.input.head? ≠ some (startToken .dec) → s.input.head? ≠ some .rst → t.dec = s.dec) ∧
    (s.input.head? = some (startToken .enc) ∨ s.input.head? = some .rst → t.enc.fault = .none) ∧
    (s.input.head? = some (startToken .dec) ∨ s.input.head? = some .rst → t.dec.fault = .none)

/-- 60_exceptions.md R252: the interleaving of the two units' commands changes neither unit's outputs, state or faults:
a unit ends as if the other unit's tokens had not been sent. -/
def Obligations.TheUnitsDoNotInfluenceEachOther : Prop :=
  ∀ (xs : List Input) (s : State),
    (feed xs s).enc = (feed (xs.filter (Input.reaches .enc)) s).enc ∧
    (feed xs s).dec = (feed (xs.filter (Input.reaches .dec)) s).dec

/-- 20_memory.md R65 and 70_reset_and_hazards.md R273: nothing of one operation is used by the next. After START a unit
emits the same bytes and ends in the same state whatever it held before, for any inputs that follow. The unit is compared
whole. That it agrees in the parts the spec leaves open too, the table's slots at or above DEC.nf and edges of an earlier
generation (43_decode_dictionary.md R161, 92_eei_decisions.md D26) and both memories after an `rst` among the inputs
(10_state.md R44), is the model's choice and no rule's (DESIGN CHOICE, unsafe, log entries 1 and 11). -/
def Obligations.NothingOfOneOperationIsUsedByTheNext : Prop :=
  ∀ (xs : List Input) (s s' : State),
    (∃ sent : List Byte,
      (feed (startToken .enc :: xs) s).enc.out = s.enc.out ++ sent ∧
      (feed (startToken .enc :: xs) s').enc =
        { (feed (startToken .enc :: xs) s).enc with out := s'.enc.out ++ sent }) ∧
    (∃ sent : List Byte,
      (feed (startToken .dec :: xs) s).dec.out = s.dec.out ++ sent ∧
      (feed (startToken .dec :: xs) s').dec =
        { (feed (startToken .dec :: xs) s).dec with out := s'.dec.out ++ sent })

/-- 44_encoder.md R191: for every byte sequence and whatever the units held before, decoding the stream the encoder
wrote gives the sequence back, in DONE and with no fault. -/
def Obligations.DecodingWhatTheEncoderWroteGivesTheInputBack : Prop :=
  ∀ (data : List Byte) (s s' : State), ∃ stream : List Byte,
    (feed (operation .enc data) s).enc.out = s.enc.out ++ stream ∧
    (feed (operation .enc data) s).enc.state = .eof ∧ (feed (operation .enc data) s).enc.fault = .none ∧
    (feed (operation .dec stream) s').dec.out = s'.dec.out ++ data ∧
    (feed (operation .dec stream) s').dec.state = .done ∧ (feed (operation .dec stream) s').dec.fault = .none

/-- 45_decoder.md R227 with 60_exceptions.md R242 to R244: whatever bytes are sent, an operation of DEC ends in DONE
without a fault, or in CorruptStream at an invalid code, which DEC.last shows, or in TableOverflow with a full table, or
in CorruptStream because the input ended. -/
def Obligations.ADecodeOperationEndsInOneOfFourWays : Prop :=
  ∀ (bytes : List Byte) (s : State),
    let d := (feed (operation .dec bytes) s).dec
    (d.state = .done ∧ d.fault = .none ∧ d.last.value = 257#12) ∨
    (d.fault = .corruptStream ∧ d.cause = .invalidCode ∧ d.last.valid = true ∧
      (d.state = .steady ∧ d.nf.toNat < d.last.value.toNat ∨ d.state = .awaitFirst ∧ 258 ≤ d.last.value.toNat)) ∨
    (d.fault = .tableOverflow ∧ d.cause = .invalidCode ∧ d.state = .steady ∧ d.nf = 4096#13) ∨
    (d.fault = .corruptStream ∧ d.cause = .truncated ∧ (d.state = .awaitFirst ∨ d.state = .steady))

/-- Micro-operations and wire codes executed on their own outside the precondition or class their rule gives are refused
(the refusals are the model's reading of 20_memory.md R55, 30_encoding.md R77, 40_bit_channel.md R104 and
43_decode_dictionary.md R160, log entry 8, a DESIGN CHOICE). -/
def Obligations.OutsideTheirPreconditionsMicroOperationsAreRefused : Prop :=
  (∀ (s : State) (w : CodeWidth), s.dec.upCnt.toNat < w.bits → exec (.get w) s = .refused .codeIncomplete) ∧
  (∀ (s : State) (c : Code), c.toNat = 256 ∨ c.toNat = 257 ∨ (258 ≤ c.toNat ∧ s.dec.nf.toNat ≤ c.toNat) →
    exec (.bytesFor c) s = .refused .noSuchSequence) ∧
  (∀ (s : State) (b : Byte), s.enc.nf.toNat ≠ 4096 →
    exec (.addEntry (.edge .root b)) s = .refused .fixedEdge) ∧
  (∀ (s : State) (i : Instr) (v : Code), encode i = some (.code v) →
    s.dec.fault ≠ .none ∨ ¬ i.occursIn s.dec.state s.dec.nf → exec i s = .refused .codeNotOfThisClass)
end

