-- ==== Sys2Proof/Laws/State.lean ====
section
/-! SUPPORT. Field lemmas: for each named update of the state, of ENC and of DEC, what every field is after it. All hold
by rfl and are simp lemmas, so that no proof unfolds an update. -/

namespace Sys2Proof.Machine

/-! ## State.withEnc -/

@[simp] theorem withEnc_enc (s : State) (e : Enc) : (s.withEnc e).enc = e := rfl
@[simp] theorem withEnc_dec (s : State) (e : Enc) : (s.withEnc e).dec = s.dec := rfl
@[simp] theorem withEnc_input (s : State) (e : Enc) : (s.withEnc e).input = s.input := rfl
@[simp] theorem withEnc_returned (s : State) (e : Enc) : (s.withEnc e).returned = s.returned := rfl

/-! ## State.withDec -/

@[simp] theorem withDec_enc (s : State) (d : Dec) : (s.withDec d).enc = s.enc := rfl
@[simp] theorem withDec_dec (s : State) (d : Dec) : (s.withDec d).dec = d := rfl
@[simp] theorem withDec_input (s : State) (d : Dec) : (s.withDec d).input = s.input := rfl
@[simp] theorem withDec_returned (s : State) (d : Dec) : (s.withDec d).returned = s.returned := rfl

/-! ## State.withReturned -/

@[simp] theorem withReturned_enc (s : State) (r : Option Returned) : (s.withReturned r).enc = s.enc := rfl
@[simp] theorem withReturned_dec (s : State) (r : Option Returned) : (s.withReturned r).dec = s.dec := rfl
@[simp] theorem withReturned_input (s : State) (r : Option Returned) : (s.withReturned r).input = s.input := rfl
@[simp] theorem withReturned_returned (s : State) (r : Option Returned) : (s.withReturned r).returned = r := rfl

/-! ## State.withInput -/

@[simp] theorem withInput_enc (s : State) (xs : List Input) : (s.withInput xs).enc = s.enc := rfl
@[simp] theorem withInput_dec (s : State) (xs : List Input) : (s.withInput xs).dec = s.dec := rfl
@[simp] theorem withInput_input (s : State) (xs : List Input) : (s.withInput xs).input = xs := rfl
@[simp] theorem withInput_returned (s : State) (xs : List Input) : (s.withInput xs).returned = s.returned := rfl

/-! ## hardReset -/

@[simp] theorem hardReset_enc (s : State) : (hardReset s).enc = { Enc.reset with out := s.enc.out } := rfl
@[simp] theorem hardReset_dec (s : State) : (hardReset s).dec = { Dec.reset with out := s.dec.out } := rfl
@[simp] theorem hardReset_input (s : State) : (hardReset s).input = s.input := rfl
@[simp] theorem hardReset_returned (s : State) : (hardReset s).returned = none := rfl

/-! ## Enc.enterFault (60_exceptions.md R240) -/

@[simp] theorem encEnterFault_state (k : EncFault) (e : Enc) : (e.enterFault k).state = e.state := rfl
@[simp] theorem encEnterFault_fault (k : EncFault) (e : Enc) : (e.enterFault k).fault = k := rfl
@[simp] theorem encEnterFault_nf (k : EncFault) (e : Enc) : (e.enterFault k).nf = e.nf := rfl
@[simp] theorem encEnterFault_width (k : EncFault) (e : Enc) : (e.enterFault k).width = e.width := rfl
@[simp] theorem encEnterFault_cur (k : EncFault) (e : Enc) : (e.enterFault k).cur = e.cur := rfl
@[simp] theorem encEnterFault_pending (k : EncFault) (e : Enc) : (e.enterFault k).pending = e.pending := rfl
@[simp] theorem encEnterFault_trie (k : EncFault) (e : Enc) : (e.enterFault k).trie = e.trie := rfl
@[simp] theorem encEnterFault_pkAcc (k : EncFault) (e : Enc) : (e.enterFault k).pkAcc = e.pkAcc := rfl
@[simp] theorem encEnterFault_pkCnt (k : EncFault) (e : Enc) : (e.enterFault k).pkCnt = e.pkCnt := rfl
@[simp] theorem encEnterFault_out (k : EncFault) (e : Enc) : (e.enterFault k).out = e.out := rfl

/-! ## Enc.clearFault (R249) -/

@[simp] theorem encClearFault_state (e : Enc) : (e.clearFault).state = e.state := rfl
@[simp] theorem encClearFault_fault (e : Enc) : (e.clearFault).fault = .none := rfl
@[simp] theorem encClearFault_nf (e : Enc) : (e.clearFault).nf = e.nf := rfl
@[simp] theorem encClearFault_width (e : Enc) : (e.clearFault).width = e.width := rfl
@[simp] theorem encClearFault_cur (e : Enc) : (e.clearFault).cur = e.cur := rfl
@[simp] theorem encClearFault_pending (e : Enc) : (e.clearFault).pending = e.pending := rfl
@[simp] theorem encClearFault_trie (e : Enc) : (e.clearFault).trie = e.trie := rfl
@[simp] theorem encClearFault_pkAcc (e : Enc) : (e.clearFault).pkAcc = e.pkAcc := rfl
@[simp] theorem encClearFault_pkCnt (e : Enc) : (e.clearFault).pkCnt = e.pkCnt := rfl
@[simp] theorem encClearFault_out (e : Enc) : (e.clearFault).out = e.out := rfl

/-! ## emitWire (20_memory.md R57) -/

@[simp] theorem emitWire_state (x : Byte) (e : Enc) : (emitWire x e).state = e.state := rfl
@[simp] theorem emitWire_fault (x : Byte) (e : Enc) : (emitWire x e).fault = e.fault := rfl
@[simp] theorem emitWire_nf (x : Byte) (e : Enc) : (emitWire x e).nf = e.nf := rfl
@[simp] theorem emitWire_width (x : Byte) (e : Enc) : (emitWire x e).width = e.width := rfl
@[simp] theorem emitWire_cur (x : Byte) (e : Enc) : (emitWire x e).cur = e.cur := rfl
@[simp] theorem emitWire_pending (x : Byte) (e : Enc) : (emitWire x e).pending = e.pending := rfl
@[simp] theorem emitWire_trie (x : Byte) (e : Enc) : (emitWire x e).trie = e.trie := rfl
@[simp] theorem emitWire_pkAcc (x : Byte) (e : Enc) : (emitWire x e).pkAcc = e.pkAcc := rfl
@[simp] theorem emitWire_pkCnt (x : Byte) (e : Enc) : (emitWire x e).pkCnt = e.pkCnt := rfl
@[simp] theorem emitWire_out (x : Byte) (e : Enc) : (emitWire x e).out = e.out ++ [x] := rfl

/-! ## resetEncTable (41_code_table.md R120) -/

@[simp] theorem resetEncTable_state (e : Enc) : (resetEncTable e).state = e.state := rfl
@[simp] theorem resetEncTable_fault (e : Enc) : (resetEncTable e).fault = e.fault := rfl
@[simp] theorem resetEncTable_nf (e : Enc) : (resetEncTable e).nf = Config.firstFree := rfl
@[simp] theorem resetEncTable_width (e : Enc) : (resetEncTable e).width = .w9 := rfl
@[simp] theorem resetEncTable_cur (e : Enc) : (resetEncTable e).cur = e.cur := rfl
@[simp] theorem resetEncTable_pending (e : Enc) : (resetEncTable e).pending = e.pending := rfl
@[simp] theorem resetEncTable_trie (e : Enc) : (resetEncTable e).trie = [] := rfl
@[simp] theorem resetEncTable_pkAcc (e : Enc) : (resetEncTable e).pkAcc = e.pkAcc := rfl
@[simp] theorem resetEncTable_pkCnt (e : Enc) : (resetEncTable e).pkCnt = e.pkCnt := rfl
@[simp] theorem resetEncTable_out (e : Enc) : (resetEncTable e).out = e.out := rfl

/-! ## Dec.enterFault (60_exceptions.md R240) -/

@[simp] theorem decEnterFault_state (k : DecFault) (c : Cause) (d : Dec) : (d.enterFault k c).state = d.state := rfl
@[simp] theorem decEnterFault_fault (k : DecFault) (c : Cause) (d : Dec) : (d.enterFault k c).fault = k := rfl
@[simp] theorem decEnterFault_cause (k : DecFault) (c : Cause) (d : Dec) : (d.enterFault k c).cause = if k = .corruptStream then c else .invalidCode := rfl
@[simp] theorem decEnterFault_nf (k : DecFault) (c : Cause) (d : Dec) : (d.enterFault k c).nf = d.nf := rfl
@[simp] theorem decEnterFault_width (k : DecFault) (c : Cause) (d : Dec) : (d.enterFault k c).width = d.width := rfl
@[simp] theorem decEnterFault_prev (k : DecFault) (c : Cause) (d : Dec) : (d.enterFault k c).prev = d.prev := rfl
@[simp] theorem decEnterFault_tab (k : DecFault) (c : Cause) (d : Dec) : (d.enterFault k c).tab = d.tab := rfl
@[simp] theorem decEnterFault_upAcc (k : DecFault) (c : Cause) (d : Dec) : (d.enterFault k c).upAcc = d.upAcc := rfl
@[simp] theorem decEnterFault_upCnt (k : DecFault) (c : Cause) (d : Dec) : (d.enterFault k c).upCnt = d.upCnt := rfl
@[simp] theorem decEnterFault_last (k : DecFault) (c : Cause) (d : Dec) : (d.enterFault k c).last = d.last := rfl
@[simp] theorem decEnterFault_out (k : DecFault) (c : Cause) (d : Dec) : (d.enterFault k c).out = d.out := rfl

/-! ## Dec.clearFault (R249) -/

@[simp] theorem decClearFault_state (d : Dec) : (d.clearFault).state = d.state := rfl
@[simp] theorem decClearFault_fault (d : Dec) : (d.clearFault).fault = .none := rfl
@[simp] theorem decClearFault_cause (d : Dec) : (d.clearFault).cause = .invalidCode := rfl
@[simp] theorem decClearFault_nf (d : Dec) : (d.clearFault).nf = d.nf := rfl
@[simp] theorem decClearFault_width (d : Dec) : (d.clearFault).width = d.width := rfl
@[simp] theorem decClearFault_prev (d : Dec) : (d.clearFault).prev = d.prev := rfl
@[simp] theorem decClearFault_tab (d : Dec) : (d.clearFault).tab = d.tab := rfl
@[simp] theorem decClearFault_upAcc (d : Dec) : (d.clearFault).upAcc = d.upAcc := rfl
@[simp] theorem decClearFault_upCnt (d : Dec) : (d.clearFault).upCnt = d.upCnt := rfl
@[simp] theorem decClearFault_last (d : Dec) : (d.clearFault).last = d.last := rfl
@[simp] theorem decClearFault_out (d : Dec) : (d.clearFault).out = d.out := rfl

/-! ## emitData (20_memory.md R57) -/

@[simp] theorem emitData_state (q : ByteSeq) (d : Dec) : (emitData q d).state = d.state := rfl
@[simp] theorem emitData_fault (q : ByteSeq) (d : Dec) : (emitData q d).fault = d.fault := rfl
@[simp] theorem emitData_cause (q : ByteSeq) (d : Dec) : (emitData q d).cause = d.cause := rfl
@[simp] theorem emitData_nf (q : ByteSeq) (d : Dec) : (emitData q d).nf = d.nf := rfl
@[simp] theorem emitData_width (q : ByteSeq) (d : Dec) : (emitData q d).width = d.width := rfl
@[simp] theorem emitData_prev (q : ByteSeq) (d : Dec) : (emitData q d).prev = d.prev := rfl
@[simp] theorem emitData_tab (q : ByteSeq) (d : Dec) : (emitData q d).tab = d.tab := rfl
@[simp] theorem emitData_upAcc (q : ByteSeq) (d : Dec) : (emitData q d).upAcc = d.upAcc := rfl
@[simp] theorem emitData_upCnt (q : ByteSeq) (d : Dec) : (emitData q d).upCnt = d.upCnt := rfl
@[simp] theorem emitData_last (q : ByteSeq) (d : Dec) : (emitData q d).last = d.last := rfl
@[simp] theorem emitData_out (q : ByteSeq) (d : Dec) : (emitData q d).out = d.out ++ q.bytes := rfl

/-! ## resetDecTable (41_code_table.md R120) -/

@[simp] theorem resetDecTable_state (d : Dec) : (resetDecTable d).state = d.state := rfl
@[simp] theorem resetDecTable_fault (d : Dec) : (resetDecTable d).fault = d.fault := rfl
@[simp] theorem resetDecTable_cause (d : Dec) : (resetDecTable d).cause = d.cause := rfl
@[simp] theorem resetDecTable_nf (d : Dec) : (resetDecTable d).nf = Config.firstFree := rfl
@[simp] theorem resetDecTable_width (d : Dec) : (resetDecTable d).width = .w9 := rfl
@[simp] theorem resetDecTable_prev (d : Dec) : (resetDecTable d).prev = d.prev := rfl
@[simp] theorem resetDecTable_tab (d : Dec) : (resetDecTable d).tab = [] := rfl
@[simp] theorem resetDecTable_upAcc (d : Dec) : (resetDecTable d).upAcc = d.upAcc := rfl
@[simp] theorem resetDecTable_upCnt (d : Dec) : (resetDecTable d).upCnt = d.upCnt := rfl
@[simp] theorem resetDecTable_last (d : Dec) : (resetDecTable d).last = d.last := rfl
@[simp] theorem resetDecTable_out (d : Dec) : (resetDecTable d).out = d.out := rfl

/-! ## fillByte (40_bit_channel.md R103) -/

@[simp] theorem fillByte_state (x : Byte) (d : Dec) : (fillByte x d).state = d.state := rfl
@[simp] theorem fillByte_fault (x : Byte) (d : Dec) : (fillByte x d).fault = d.fault := rfl
@[simp] theorem fillByte_cause (x : Byte) (d : Dec) : (fillByte x d).cause = d.cause := rfl
@[simp] theorem fillByte_nf (x : Byte) (d : Dec) : (fillByte x d).nf = d.nf := rfl
@[simp] theorem fillByte_width (x : Byte) (d : Dec) : (fillByte x d).width = d.width := rfl
@[simp] theorem fillByte_prev (x : Byte) (d : Dec) : (fillByte x d).prev = d.prev := rfl
@[simp] theorem fillByte_tab (x : Byte) (d : Dec) : (fillByte x d).tab = d.tab := rfl
@[simp] theorem fillByte_upAcc (x : Byte) (d : Dec) : (fillByte x d).upAcc = d.upAcc ||| (x.setWidth 19 <<< d.upCnt.toNat) := rfl
@[simp] theorem fillByte_upCnt (x : Byte) (d : Dec) : (fillByte x d).upCnt = d.upCnt + 8#5 := rfl
@[simp] theorem fillByte_last (x : Byte) (d : Dec) : (fillByte x d).last = d.last := rfl
@[simp] theorem fillByte_out (x : Byte) (d : Dec) : (fillByte x d).out = d.out := rfl

end Sys2Proof.Machine
end

