-- ==== Sys2Proof/Laws/Flow.lean ====
section
/-! SUPPORT. How operations end: going on after one, and what a step of the machine built from a unit's operation can
answer. Later proofs cite these instead of unfolding `Flow.bind`, `onEnc` or `onDec`. -/

namespace Sys2Proof.Machine

variable {σ α β : Type}

@[simp] theorem bind_ok (a : α) (u : σ) (k : α → σ → Flow σ β) : (Flow.ok a u).bind k = k a u := rfl

@[simp] theorem bind_raised (u : σ) (k : α → σ → Flow σ β) : (Flow.raised u : Flow σ α).bind k = .raised u := rfl

@[simp] theorem bind_stuck (f : Fault) (k : α → σ → Flow σ β) : (Flow.stuck f : Flow σ α).bind k = .stuck f := rfl

@[simp] theorem bind_refuse (r : Refusal) (k : α → σ → Flow σ β) :
    (Flow.refuse r : Flow σ α).bind k = .refuse r := rfl

/-- An operation followed by another returns a value only through both. -/
theorem bind_eq_ok {x : Flow σ α} {k : α → σ → Flow σ β} {b : β} {v : σ} :
    x.bind k = .ok b v ↔ ∃ a u, x = .ok a u ∧ k a u = .ok b v := by
  cases x <;> simp

/-- An operation followed by another raises in the first or in the second. -/
theorem bind_eq_raised {x : Flow σ α} {k : α → σ → Flow σ β} {v : σ} :
    x.bind k = .raised v ↔ x = .raised v ∨ ∃ a u, x = .ok a u ∧ k a u = .raised v := by
  cases x <;> simp

/-- An operation followed by another is refused in the first or in the second. -/
theorem bind_eq_refuse {x : Flow σ α} {k : α → σ → Flow σ β} {r : Refusal} :
    x.bind k = .refuse r ↔ x = .refuse r ∨ ∃ a u, x = .ok a u ∧ k a u = .refuse r := by
  cases x <;> simp

/-- An operation followed by another is stuck in the first or in the second. -/
theorem bind_eq_stuck {x : Flow σ α} {k : α → σ → Flow σ β} {f : Fault} :
    x.bind k = .stuck f ↔ x = .stuck f ∨ ∃ a u, x = .ok a u ∧ k a u = .stuck f := by
  cases x <;> simp

/-! ## Steps of the machine built from an operation of one unit -/

theorem onEnc_ok {f : Enc → Flow Enc Unit} {s : State} {e : Enc} (h : f s.enc = .ok () e) :
    onEnc f s = .next (s.withEnc e) := by
  simp [onEnc, h, Flow.toOutcome]

theorem onEnc_raised {f : Enc → Flow Enc Unit} {s : State} {e : Enc} (h : f s.enc = .raised e) :
    onEnc f s = .next (s.withEnc e) := by
  simp [onEnc, h, Flow.toOutcome]

theorem onDec_ok {f : Dec → Flow Dec Unit} {s : State} {d : Dec} (h : f s.dec = .ok () d) :
    onDec f s = .next (s.withDec d) := by
  simp [onDec, h, Flow.toOutcome]

theorem onDec_raised {f : Dec → Flow Dec Unit} {s : State} {d : Dec} (h : f s.dec = .raised d) :
    onDec f s = .next (s.withDec d) := by
  simp [onDec, h, Flow.toOutcome]

/-- An ENC operation's step answers a next state exactly where it returns or raises, and changes ENC only. -/
theorem onEnc_next {f : Enc → Flow Enc Unit} {s t : State} :
    onEnc f s = .next t ↔ ∃ e, (f s.enc = .ok () e ∨ f s.enc = .raised e) ∧ t = s.withEnc e := by
  unfold onEnc
  cases h : f s.enc <;> simp [Flow.toOutcome, eq_comm]

/-- A DEC operation's step answers a next state exactly where it returns or raises, and changes DEC only. -/
theorem onDec_next {f : Dec → Flow Dec Unit} {s t : State} :
    onDec f s = .next t ↔ ∃ d, (f s.dec = .ok () d ∨ f s.dec = .raised d) ∧ t = s.withDec d := by
  unfold onDec
  cases h : f s.dec <;> simp [Flow.toOutcome, eq_comm]

/-- An ENC operation's step is refused exactly where the operation is. -/
theorem onEnc_refused {f : Enc → Flow Enc Unit} {s : State} {r : Refusal} :
    onEnc f s = .refused r ↔ f s.enc = .refuse r := by
  unfold onEnc
  cases h : f s.enc <;> simp [Flow.toOutcome]

/-- A DEC operation's step is refused exactly where the operation is. -/
theorem onDec_refused {f : Dec → Flow Dec Unit} {s : State} {r : Refusal} :
    onDec f s = .refused r ↔ f s.dec = .refuse r := by
  unfold onDec
  cases h : f s.dec <;> simp [Flow.toOutcome]

/-- An ENC operation's step stops exactly where the operation is stuck. -/
theorem onEnc_fault {f : Enc → Flow Enc Unit} {s : State} {r : Fault} :
    onEnc f s = .fault r ↔ f s.enc = .stuck r := by
  unfold onEnc
  cases h : f s.enc <;> simp [Flow.toOutcome]

/-- A DEC operation's step stops exactly where the operation is stuck. -/
theorem onDec_fault {f : Dec → Flow Dec Unit} {s : State} {r : Fault} :
    onDec f s = .fault r ↔ f s.dec = .stuck r := by
  unfold onDec
  cases h : f s.dec <;> simp [Flow.toOutcome]

/-- A returning ENC micro-operation's step: it returned a value, or it raised and returned none. -/
theorem onEncReturning_next {f : Enc → Flow Enc α} {r : α → Returned} {s t : State} :
    onEncReturning f r s = .next t ↔
      (∃ a e, f s.enc = .ok a e ∧ t = (s.withEnc e).withReturned (some (r a))) ∨
      ∃ e, f s.enc = .raised e ∧ t = (s.withEnc e).withReturned none := by
  unfold onEncReturning
  cases h : f s.enc <;> simp [Flow.toOutcome, eq_comm]

/-- A returning DEC micro-operation's step: it returned a value, or it raised and returned none. -/
theorem onDecReturning_next {f : Dec → Flow Dec α} {r : α → Returned} {s t : State} :
    onDecReturning f r s = .next t ↔
      (∃ a d, f s.dec = .ok a d ∧ t = (s.withDec d).withReturned (some (r a))) ∨
      ∃ d, f s.dec = .raised d ∧ t = (s.withDec d).withReturned none := by
  unfold onDecReturning
  cases h : f s.dec <;> simp [Flow.toOutcome, eq_comm]

end Sys2Proof.Machine
end

