-- ==== Sys2Proof/Laws/BitChannel.lean ====
section
/-! SUPPORT. The Bit Channel in terms of the bits on the wire (20_memory.md R50, R51): what the accumulators hold, as
lists of bits, and what PUT, FLUSH, FILL and GET do to them (40_bit_channel.md R101 to R104). -/

namespace Sys2Proof.Machine

@[simp] theorem heldBits_length (acc : Accumulator) (n : BitCount) : (heldBits acc n).length = n.toNat := by
  simp [heldBits]

@[simp] theorem codeBits_length (v : Code) (w : CodeWidth) : (codeBits v w).length = w.bits := by
  simp [codeBits]

@[simp] theorem byteBits_length (x : Byte) : (byteBits x).length = 8 := by
  simp [byteBits]

@[simp] theorem streamBits_nil : streamBits [] = [] := rfl

@[simp] theorem streamBits_append (xs ys : List Byte) : streamBits (xs ++ ys) = streamBits xs ++ streamBits ys := by
  simp [streamBits]

@[simp] theorem streamBits_cons (x : Byte) (xs : List Byte) : streamBits (x :: xs) = byteBits x ++ streamBits xs := by
  simp [streamBits]

theorem width_le (w : CodeWidth) : 9 ≤ w.bits ∧ w.bits ≤ 12 := by
  cases w <;> simp [CodeWidth.bits]

/-- A bit at or above `n` of a number below `2^n` is 0. -/
theorem getLsbD_high {k : Nat} {v : BitVec k} {n i : Nat} (h : v.toNat < 2 ^ n) (hi : n ≤ i) :
    v.getLsbD i = false := by
  rw [BitVec.getLsbD]
  exact Nat.testBit_lt_two_pow (lt_of_lt_of_le h (Nat.pow_le_pow_right (by omega) hi))

/-- The low byte of an accumulator that holds at least 8 bits goes first; the rest is what the shifted accumulator
holds. -/
theorem heldBits_drop_byte (acc : Accumulator) (n : BitCount) (h : 8 ≤ n.toNat) :
    heldBits acc n = byteBits (acc.setWidth 8) ++ heldBits (acc >>> 8) (n - 8#5) := by
  have hn : (n - 8#5).toNat = n.toNat - 8 := by
    rw [BitVec.toNat_sub_of_le (by simpa [BitVec.le_def] using h)]
    rfl
  apply List.ext_getElem
  · simp [hn]
    omega
  · intro i h1 h2
    simp only [heldBits, byteBits, List.getElem_map, List.getElem_range, List.getElem_append, List.length_map,
      List.length_range]
    split
    · rename_i hi
      rw [BitVec.getLsbD_setWidth]
      simp [hi]
    · rename_i hi
      rw [BitVec.getLsbD_ushiftRight]
      congr 1
      omega

/-- Bits put above those an accumulator holds come after them. -/
theorem heldBits_or_shift {k : Nat} (acc : Accumulator) (v : BitVec k) (n m : BitCount) (w : Nat)
    (hacc : acc.toNat < 2 ^ n.toNat) (hm : m.toNat = n.toNat + w) (hle : n.toNat + w ≤ 19) :
    heldBits (acc ||| (v.setWidth 19 <<< n.toNat)) m = heldBits acc n ++ (List.range w).map v.getLsbD := by
  apply List.ext_getElem
  · simp [hm]
  · intro i h1 h2
    simp only [heldBits_length] at h1
    simp only [heldBits, List.getElem_map, List.getElem_range, List.getElem_append, List.length_map,
      List.length_range, BitVec.getLsbD_or, BitVec.getLsbD_shiftLeft, BitVec.getLsbD_setWidth]
    have hi19 : i < 19 := by omega
    split
    · rename_i hi
      simp [hi]
    · rename_i hi
      have hin : n.toNat ≤ i := by omega
      rw [getLsbD_high hacc hin]
      have h19 : i - n.toNat < 19 := by omega
      simp [hi19, h19, hi]

/-- Bits put above those an accumulator holds leave nothing above them. -/
theorem or_shift_lt {k : Nat} (acc : Accumulator) (v : BitVec k) (n w : Nat)
    (hacc : acc.toNat < 2 ^ n) (hv : v.toNat < 2 ^ w) :
    (acc ||| (v.setWidth 19 <<< n)).toNat < 2 ^ (n + w) := by
  rw [BitVec.toNat_or]
  refine Nat.or_lt_two_pow (lt_of_lt_of_le hacc (Nat.pow_le_pow_right (by omega) (by omega))) ?_
  rw [BitVec.toNat_shiftLeft, Nat.shiftLeft_eq]
  refine lt_of_le_of_lt (Nat.mod_le _ _) ?_
  have h1 : (v.setWidth 19).toNat ≤ v.toNat := by
    rw [BitVec.toNat_setWidth]
    exact Nat.mod_le _ _
  calc (v.setWidth 19).toNat * 2 ^ n ≤ v.toNat * 2 ^ n := Nat.mul_le_mul_right _ h1
    _ < 2 ^ w * 2 ^ n := Nat.mul_lt_mul_of_pos_right hv (by positivity)
    _ = 2 ^ (n + w) := by rw [← Nat.pow_add, Nat.add_comm]

theorem shift_lt (acc : Accumulator) (n k : Nat) (h : acc.toNat < 2 ^ n) (hk : k ≤ n) :
    (acc >>> k).toNat < 2 ^ (n - k) := by
  rw [BitVec.toNat_ushiftRight, Nat.shiftRight_eq_div_pow]
  rw [Nat.div_lt_iff_lt_mul (by positivity), ← Nat.pow_add]
  rwa [Nat.sub_add_cancel hk]

/-! ## PUT and FLUSH -/

/-- One turn of PUT's loop. -/
theorem drain_step (fuel : Nat) (e : Enc) (h : 8 ≤ e.pkCnt.toNat) :
    drain (fuel + 1) e =
      drain fuel { e with pkAcc := e.pkAcc >>> 8, pkCnt := e.pkCnt - 8#5, out := e.out ++ [e.pkAcc.setWidth 8] } := by
  simp [drain, h, emitWire]

theorem drain_stop (fuel : Nat) (e : Enc) (h : e.pkCnt.toNat < 8) : drain fuel e = e := by
  cases fuel with
  | zero => rfl
  | succ n =>
    have h' : ¬ 8 ≤ e.pkCnt.toNat := by omega
    simp [drain, h']

/-- What PUT's loop does: it sends bytes, keeps at most 7 bits, and the bits sent and kept are the bits held. -/
theorem drain_spec (fuel : Nat) (e : Enc) (hf : e.pkCnt.toNat < 8 * (fuel + 1)) :
    ∃ (sent : List Byte) (acc : Accumulator) (cnt : BitCount),
      drain fuel e = { e with pkAcc := acc, pkCnt := cnt, out := e.out ++ sent } ∧ cnt.toNat ≤ 7 ∧
      8 * sent.length + cnt.toNat = e.pkCnt.toNat ∧
      streamBits sent ++ heldBits acc cnt = heldBits e.pkAcc e.pkCnt ∧
      (e.pkAcc.toNat < 2 ^ e.pkCnt.toNat → acc.toNat < 2 ^ cnt.toNat) := by
  induction fuel generalizing e with
  | zero => exact ⟨[], e.pkAcc, e.pkCnt, by simp [drain], by omega, by simp, by simp, id⟩
  | succ n ih =>
    by_cases h8 : 8 ≤ e.pkCnt.toNat
    · have hcnt : (e.pkCnt - 8#5).toNat = e.pkCnt.toNat - 8 := by
        rw [BitVec.toNat_sub_of_le (by simpa [BitVec.le_def] using h8)]
        rfl
      rw [drain_step n e h8]
      obtain ⟨sent, acc, cnt, heq, hle, hlen, hbits, hacc⟩ :=
        ih { e with pkAcc := e.pkAcc >>> 8, pkCnt := e.pkCnt - 8#5, out := e.out ++ [e.pkAcc.setWidth 8] }
          (by simp only [hcnt]; omega)
      refine ⟨e.pkAcc.setWidth 8 :: sent, acc, cnt, by simp [heq], hle, ?_, ?_, ?_⟩
      · simp only [hcnt] at hlen
        simp only [List.length_cons]
        omega
      · rw [streamBits_cons, List.append_assoc, hbits, ← heldBits_drop_byte _ _ h8]
      · intro h
        refine hacc ?_
        simp only [hcnt]
        exact shift_lt _ _ _ h h8
    · rw [drain_stop _ _ (by omega)]
      exact ⟨[], e.pkAcc, e.pkCnt, by simp, by omega, by simp, by simp, id⟩

/-- PUT changes the packer and the output port only, and leaves at most 7 bits, in every state. -/
theorem put_frame (v : Code) (w : CodeWidth) (e : Enc) :
    ∃ (sent : List Byte) (acc : Accumulator) (cnt : BitCount),
      put v w e = { e with pkAcc := acc, pkCnt := cnt, out := e.out ++ sent } ∧ cnt.toNat ≤ 7 := by
  have hlt := (e.pkCnt + BitVec.ofNat 5 w.bits).isLt
  obtain ⟨sent, acc, cnt, heq, hle, -, -, -⟩ :=
    drain_spec 4
      { e with
        pkAcc := e.pkAcc ||| (v.setWidth 19 <<< e.pkCnt.toNat)
        pkCnt := e.pkCnt + BitVec.ofNat 5 w.bits } (by simp only; omega)
  exact ⟨sent, acc, cnt, by rw [put, heq], hle⟩

@[simp] theorem put_state (v : Code) (w : CodeWidth) (e : Enc) : (put v w e).state = e.state := by
  obtain ⟨_, _, _, h, -⟩ := put_frame v w e
  rw [h]

@[simp] theorem put_fault (v : Code) (w : CodeWidth) (e : Enc) : (put v w e).fault = e.fault := by
  obtain ⟨_, _, _, h, -⟩ := put_frame v w e
  rw [h]

@[simp] theorem put_nf (v : Code) (w : CodeWidth) (e : Enc) : (put v w e).nf = e.nf := by
  obtain ⟨_, _, _, h, -⟩ := put_frame v w e
  rw [h]

@[simp] theorem put_width (v : Code) (w : CodeWidth) (e : Enc) : (put v w e).width = e.width := by
  obtain ⟨_, _, _, h, -⟩ := put_frame v w e
  rw [h]

@[simp] theorem put_cur (v : Code) (w : CodeWidth) (e : Enc) : (put v w e).cur = e.cur := by
  obtain ⟨_, _, _, h, -⟩ := put_frame v w e
  rw [h]

@[simp] theorem put_pending (v : Code) (w : CodeWidth) (e : Enc) : (put v w e).pending = e.pending := by
  obtain ⟨_, _, _, h, -⟩ := put_frame v w e
  rw [h]

@[simp] theorem put_trie (v : Code) (w : CodeWidth) (e : Enc) : (put v w e).trie = e.trie := by
  obtain ⟨_, _, _, h, -⟩ := put_frame v w e
  rw [h]

theorem put_pkCnt (v : Code) (w : CodeWidth) (e : Enc) : (put v w e).pkCnt.toNat ≤ 7 := by
  obtain ⟨_, _, _, h, hle⟩ := put_frame v w e
  rw [h]
  exact hle

theorem put_out (v : Code) (w : CodeWidth) (e : Enc) : e.out <+: (put v w e).out := by
  obtain ⟨sent, _, _, h, -⟩ := put_frame v w e
  rw [h]
  exact ⟨sent, rfl⟩

/-- The bits PUT sends and keeps are the bits held and then the code's (R101, 20_memory.md R51). -/
theorem put_spec (v : Code) (w : CodeWidth) (e : Enc) (hv : v.toNat < 2 ^ w.bits) (hc : e.pkCnt.toNat ≤ 7)
    (ha : e.pkAcc.toNat < 2 ^ e.pkCnt.toNat) :
    ∃ (sent : List Byte) (acc : Accumulator) (cnt : BitCount),
      put v w e = { e with pkAcc := acc, pkCnt := cnt, out := e.out ++ sent } ∧
      8 * sent.length + cnt.toNat = e.pkCnt.toNat + w.bits ∧ cnt.toNat ≤ 7 ∧ acc.toNat < 2 ^ cnt.toNat ∧
      streamBits sent ++ heldBits acc cnt = heldBits e.pkAcc e.pkCnt ++ codeBits v w := by
  have hw := width_le w
  have hcnt : (e.pkCnt + BitVec.ofNat 5 w.bits).toNat = e.pkCnt.toNat + w.bits := by
    rw [BitVec.toNat_add, BitVec.toNat_ofNat]
    omega
  obtain ⟨sent, acc, cnt, heq, hle, hlen, hbits, hacc⟩ :=
    drain_spec 4
      { e with
        pkAcc := e.pkAcc ||| (v.setWidth 19 <<< e.pkCnt.toNat)
        pkCnt := e.pkCnt + BitVec.ofNat 5 w.bits } (by simp only [hcnt]; omega)
  refine ⟨sent, acc, cnt, by rw [put, heq], by simpa only [hcnt] using hlen, hle, hacc ?_, ?_⟩
  · simp only [hcnt]
    exact or_shift_lt _ _ _ _ ha hv
  · rw [hbits]
    exact heldBits_or_shift _ _ _ _ _ ha hcnt (by omega)

/-- FLUSH changes the packer and the output port only. -/
theorem flushBits_frame (e : Enc) :
    ∃ sent : List Byte, flushBits e = { e with pkAcc := 0#19, pkCnt := 0#5, out := e.out ++ sent } := by
  unfold flushBits
  split
  · exact ⟨[e.pkAcc.setWidth 8], rfl⟩
  · exact ⟨[], by simp⟩

/-- A byte taken from an accumulator that holds `n` bits and nothing above them is those bits and then zeros. -/
theorem byteBits_of_held (acc : Accumulator) (n : BitCount) (hn : n.toNat ≤ 7) (ha : acc.toNat < 2 ^ n.toNat) :
    byteBits (acc.setWidth 8) = heldBits acc n ++ List.replicate (8 - n.toNat) false := by
  apply List.ext_getElem
  · simp
    omega
  · intro i h1 h2
    have hi8 : i < 8 := by simpa using h1
    simp only [heldBits, byteBits, List.getElem_map, List.getElem_range, List.getElem_append, List.length_map,
      List.length_range, List.getElem_replicate, BitVec.getLsbD_setWidth, hi8, decide_true, Bool.true_and]
    split
    · rfl
    · exact getLsbD_high ha (by omega)

/-! ## FILL and GET -/

/-- The bits FILL holds are those held before and then the byte's (R103). -/
theorem fillByte_spec (x : Byte) (d : Dec) (hc : d.upCnt.toNat ≤ 11) (ha : d.upAcc.toNat < 2 ^ d.upCnt.toNat) :
    (fillByte x d).upCnt.toNat = d.upCnt.toNat + 8 ∧
    (fillByte x d).upAcc.toNat < 2 ^ (d.upCnt.toNat + 8) ∧
    heldBits (fillByte x d).upAcc (fillByte x d).upCnt = heldBits d.upAcc d.upCnt ++ byteBits x := by
  have hcnt : (d.upCnt + 8#5).toNat = d.upCnt.toNat + 8 := by
    rw [BitVec.toNat_add]
    simp only [BitVec.toNat_ofNat]
    omega
  exact ⟨hcnt, or_shift_lt _ _ _ _ ha x.isLt, heldBits_or_shift _ _ _ _ _ ha hcnt (by omega)⟩

/-- GET returns where enough bits are held and is refused elsewhere; it changes the unpacker only (R104). -/
theorem getCode_cases (w : CodeWidth) (d : Dec) :
    (w.bits ≤ d.upCnt.toNat ∧
      ∃ v : Code, getCode w d =
        .ok v { d with upAcc := d.upAcc >>> w.bits, upCnt := d.upCnt - BitVec.ofNat 5 w.bits } ∧
        v.toNat = d.upAcc.toNat % 2 ^ w.bits) ∨
    (d.upCnt.toNat < w.bits ∧ getCode w d = .refuse .codeIncomplete) := by
  unfold getCode
  by_cases h : w.bits ≤ d.upCnt.toNat
  · refine Or.inl ⟨h, BitVec.ofNat 12 (d.upAcc.toNat % 2 ^ w.bits), by simp [h], ?_⟩
    rw [BitVec.toNat_ofNat]
    refine Nat.mod_eq_of_lt (lt_of_lt_of_le (Nat.mod_lt _ (by positivity)) ?_)
    exact Nat.pow_le_pow_right (by omega) (width_le w).2
  · exact Or.inr ⟨by omega, by simp [h]⟩

/-- The first `w` bits held are the code's that GET takes, and the others stay (R104). -/
theorem heldBits_take_code (acc : Accumulator) (n m : BitCount) (w : CodeWidth) (v : Code)
    (hv : v.toNat = acc.toNat % 2 ^ w.bits) (hm : m.toNat + w.bits = n.toNat) :
    heldBits acc n = codeBits v w ++ heldBits (acc >>> w.bits) m := by
  apply List.ext_getElem
  · simp
    omega
  · intro i h1 h2
    simp only [heldBits, codeBits, List.getElem_map, List.getElem_range, List.getElem_append, List.length_map,
      List.length_range]
    split
    · rename_i hi
      rw [BitVec.getLsbD, BitVec.getLsbD, hv, Nat.testBit_mod_two_pow]
      simp [hi]
    · rename_i hi
      rw [BitVec.getLsbD_ushiftRight]
      congr 1
      omega

end Sys2Proof.Machine
end

