-- ==== Sys2Proof/Laws/Memory.lean ====
section
/-! SUPPORT. The laws of the two memories: a read after a write, the canonical form, and the addresses of edges and
slots (20_memory.md R55, R56). -/

namespace Sys2Proof.Machine

variable {α : Type}

/-! ## Reading after writing -/

@[simp] theorem get_nil (k : Nat) : Memory.get k ([] : Memory α) = none := rfl

@[simp] theorem get_set_self (k : Nat) (v : α) (m : Memory α) : Memory.get k (Memory.set k v m) = some v := by
  induction m with
  | nil => simp [Memory.set, Memory.get]
  | cons p rest ih =>
    obtain ⟨k', v'⟩ := p
    simp only [Memory.set]
    split
    · simp [Memory.get]
    · split
      · simp [Memory.get]
      · rename_i _ hne
        simp [Memory.get, Ne.symm hne, ih]

theorem get_set_ne {k j : Nat} (h : j ≠ k) (v : α) (m : Memory α) :
    Memory.get j (Memory.set k v m) = Memory.get j m := by
  induction m with
  | nil => simp [Memory.set, Memory.get, Ne.symm h]
  | cons p rest ih =>
    obtain ⟨k', v'⟩ := p
    simp only [Memory.set]
    split
    · simp [Memory.get, Ne.symm h]
    · split
      · rename_i _ heq
        subst heq
        simp [Memory.get, Ne.symm h]
      · simp [Memory.get, ih]

@[simp] theorem get_erase_self (k : Nat) (m : Memory α) : Memory.get k (Memory.erase k m) = none := by
  induction m with
  | nil => rfl
  | cons p rest ih =>
    obtain ⟨k', v'⟩ := p
    by_cases h : k' = k
    · simpa [Memory.erase, h] using ih
    · simpa [Memory.erase, Memory.get, h] using ih

theorem get_erase_ne {k j : Nat} (h : j ≠ k) (m : Memory α) :
    Memory.get j (Memory.erase k m) = Memory.get j m := by
  induction m with
  | nil => rfl
  | cons p rest ih =>
    obtain ⟨k', v'⟩ := p
    by_cases h' : k' = k
    · have hne : k' ≠ j := fun heq => h (heq.symm.trans h')
      simpa [Memory.erase, Memory.get, h', Ne.symm h] using ih
    · simp only [Memory.erase, List.filter_cons, decide_eq_true_eq, ne_eq, h', not_false_eq_true, if_true, Memory.get]
      split
      · rfl
      · exact ih

/-! ## The canonical form -/

theorem rising_mono {lo lo' hi : Nat} (h : lo' ≤ lo) (m : Memory α) (hm : Memory.rising lo hi m = true) :
    Memory.rising lo' hi m = true := by
  cases m with
  | nil => rfl
  | cons p rest =>
    simp only [Memory.rising, Bool.and_eq_true, decide_eq_true_eq] at hm ⊢
    exact ⟨⟨by omega, hm.1.2⟩, hm.2⟩

theorem rising_set {lo hi k : Nat} (hlo : lo ≤ k) (hhi : k < hi) (v : α) (m : Memory α)
    (hm : Memory.rising lo hi m = true) : Memory.rising lo hi (Memory.set k v m) = true := by
  induction m generalizing lo with
  | nil => simp [Memory.set, Memory.rising, hlo, hhi]
  | cons p rest ih =>
    obtain ⟨k', v'⟩ := p
    simp only [Memory.rising, Bool.and_eq_true, decide_eq_true_eq] at hm
    simp only [Memory.set]
    split
    · rename_i hlt
      simp only [Memory.rising, Bool.and_eq_true, decide_eq_true_eq]
      exact ⟨⟨hlo, hhi⟩, ⟨by omega, hm.1.2⟩, hm.2⟩
    · split
      · rename_i _ heq
        subst heq
        simp only [Memory.rising, Bool.and_eq_true, decide_eq_true_eq]
        exact ⟨⟨hlo, hhi⟩, hm.2⟩
      · rename_i hnlt hne
        simp only [Memory.rising, Bool.and_eq_true, decide_eq_true_eq]
        exact ⟨hm.1, ih (by omega) hm.2⟩

theorem rising_erase {lo hi : Nat} (k : Nat) (m : Memory α) (hm : Memory.rising lo hi m = true) :
    Memory.rising lo hi (Memory.erase k m) = true := by
  induction m generalizing lo with
  | nil => rfl
  | cons p rest ih =>
    obtain ⟨k', v'⟩ := p
    simp only [Memory.rising, Bool.and_eq_true, decide_eq_true_eq] at hm
    by_cases h : k' = k
    · have hrest := rising_mono (lo' := lo) (by omega) _ (ih hm.2)
      simpa [Memory.erase, h] using hrest
    · have hrest := ih hm.2
      simp only [Memory.erase, List.filter_cons, decide_eq_true_eq, ne_eq, h, not_false_eq_true, if_true, Memory.rising,
        Bool.and_eq_true]
      exact ⟨hm.1, hrest⟩

/-- An entry of a memory after a write is the one written or one listed before. -/
theorem mem_set {k : Nat} {v : α} {m : Memory α} {p : Nat × α} (h : p ∈ Memory.set k v m) : p = (k, v) ∨ p ∈ m := by
  induction m with
  | nil => simpa [Memory.set] using h
  | cons q rest ih =>
    obtain ⟨k', v'⟩ := q
    simp only [Memory.set] at h
    split at h
    · simpa using h
    · split at h
      · rcases List.mem_cons.mp h with h | h
        · exact Or.inl h
        · exact Or.inr (List.mem_cons_of_mem _ h)
      · rcases List.mem_cons.mp h with h | h
        · exact Or.inr (by simp [h])
        · exact (ih h).imp id (List.mem_cons_of_mem _)

/-- An address below the lowest listed one is not listed. -/
theorem get_below {lo hi k : Nat} (h : k < lo) (m : Memory α) (hm : Memory.rising lo hi m = true) :
    Memory.get k m = none := by
  induction m generalizing lo with
  | nil => rfl
  | cons p rest ih =>
    obtain ⟨k', v'⟩ := p
    simp only [Memory.rising, Bool.and_eq_true, decide_eq_true_eq] at hm
    have hne : k' ≠ k := by omega
    simp [Memory.get, hne, ih (lo := k' + 1) (by omega) hm.2]

/-- Canonical memories that read alike at every address are equal. -/
theorem canonical_ext {lo hi : Nat} (m m' : Memory α) (hm : Memory.rising lo hi m = true)
    (hm' : Memory.rising lo hi m' = true) (h : ∀ k, Memory.get k m = Memory.get k m') : m = m' := by
  induction m generalizing m' lo with
  | nil =>
    cases m' with
    | nil => rfl
    | cons p rest =>
      obtain ⟨k, v⟩ := p
      have := h k
      simp [Memory.get] at this
  | cons p rest ih =>
    obtain ⟨k, v⟩ := p
    cases m' with
    | nil =>
      have := h k
      simp [Memory.get] at this
    | cons p' rest' =>
      obtain ⟨k', v'⟩ := p'
      simp only [Memory.rising, Bool.and_eq_true, decide_eq_true_eq] at hm hm'
      have hk : k = k' := by
        have h1 := h k
        have h2 := h k'
        rcases Nat.lt_trichotomy k k' with hlt | heq | hgt
        · have hz : Memory.get k rest' = none := get_below (lo := k' + 1) (by omega) rest' hm'.2
          have hne : k' ≠ k := by omega
          simp [Memory.get, hne, hz] at h1
        · exact heq
        · have hz : Memory.get k' rest = none := get_below (lo := k + 1) (by omega) rest hm.2
          have hne : k ≠ k' := by omega
          simp [Memory.get, hne, hz] at h2
      subst hk
      have hv : v = v' := by simpa [Memory.get] using h k
      subst hv
      have htail : rest = rest' := by
        refine ih rest' hm.2 hm'.2 fun j => ?_
        by_cases hj : k = j
        · subst hj
          rw [get_below (lo := k + 1) (by omega) rest hm.2, get_below (lo := k + 1) (by omega) rest' hm'.2]
        · have := h j
          simpa [Memory.get, hj] using this
      rw [htail]

/-! ## Edges (20_memory.md R55) -/

theorem edgeAddress_lt (n : Code) (b : Byte) : edgeAddress n b < 256 * 4096 := by
  have := n.isLt
  have := b.isLt
  simp only [edgeAddress]
  omega

theorem edgeAddress_inj {n n' : Code} {b b' : Byte} (h : edgeAddress n b = edgeAddress n' b') : n = n' ∧ b = b' := by
  have h1 := b.isLt
  have h2 := b'.isLt
  simp only [edgeAddress] at h
  exact ⟨BitVec.eq_of_toNat_eq (by omega), BitVec.eq_of_toNat_eq (by omega)⟩

@[simp] theorem trieChild_root (t : Memory Code) (b : Byte) : trieChild t .root b = some (literalCode b) := rfl

@[simp] theorem trieChild_nil (n : Code) (b : Byte) : trieChild [] (.code n) b = none := rfl

@[simp] theorem trieChild_set_self (t : Memory Code) (n : Code) (b : Byte) (c : Code) :
    trieChild (trieSetChild n b c t) (.code n) b = some c := by
  simp [trieChild, trieSetChild]

theorem trieChild_set_ne {n n' : Code} {b b' : Byte} (h : (n', b') ≠ (n, b)) (c : Code) (t : Memory Code) :
    trieChild (trieSetChild n b c t) (.code n') b' = trieChild t (.code n') b' := by
  refine get_set_ne (fun heq => h ?_) c t
  obtain ⟨h1, h2⟩ := edgeAddress_inj heq
  rw [h1, h2]

theorem trieWf_set (n : Code) (b : Byte) (c : Code) (t : Memory Code) (h : Memory.trieWf t = true) :
    Memory.trieWf (trieSetChild n b c t) = true :=
  rising_set (Nat.zero_le _) (edgeAddress_lt n b) c t h

/-! ## Slots (20_memory.md R56, 43_decode_dictionary.md R161) -/

@[simp] theorem tabRead_literal (t : Memory ByteSeq) (c : Code) (h : c.toNat < 256) :
    tabRead t c = .bytes (ByteSeq.single (literalByte c)) := by
  simp [tabRead, h]

theorem tabRead_control (t : Memory ByteSeq) (c : Code) (h : c.toNat = 256 ∨ c.toNat = 257) :
    tabRead t c = .control := by
  have h1 : ¬ c.toNat < 256 := by omega
  have h2 : c.toNat < 258 := by omega
  simp [tabRead, h1, h2]

/-- A slot from 258 on always holds a sequence. -/
theorem tabRead_sequence (t : Memory ByteSeq) (c : Code) (h : 258 ≤ c.toNat) :
    tabRead t c = .bytes ((Memory.get c.toNat t).getD unwrittenSlot) := by
  have h1 : ¬ c.toNat < 256 := by omega
  have h2 : ¬ c.toNat < 258 := by omega
  simp [tabRead, h1, h2]

theorem tabRead_write_self (t : Memory ByteSeq) (c : Code) (q : ByteSeq) (h : 258 ≤ c.toNat) :
    tabRead (tabWrite c q t) c = .bytes q := by
  have h2 : ¬ c.toNat < 258 := by omega
  rw [tabRead_sequence _ _ h, tabWrite, if_neg h2]
  split
  · rename_i hq
    rw [get_erase_self, hq]
    rfl
  · rw [get_set_self]
    rfl

theorem tabRead_write_ne {c c' : Code} (h : c' ≠ c) (q : ByteSeq) (t : Memory ByteSeq) :
    tabRead (tabWrite c q t) c' = tabRead t c' := by
  have hne : c'.toNat ≠ c.toNat := fun heq => h (BitVec.eq_of_toNat_eq heq)
  have hget : Memory.get c'.toNat (tabWrite c q t) = Memory.get c'.toNat t := by
    unfold tabWrite
    split
    · rfl
    · split
      · exact get_erase_ne hne t
      · exact get_set_ne hne q t
  simp only [tabRead, hget]

theorem tabWf_iff (t : Memory ByteSeq) :
    Memory.tabWf t = true ↔ Memory.rising 258 4096 t = true ∧ ∀ p ∈ t, p.2 ≠ unwrittenSlot := by
  simp [Memory.tabWf]

theorem tabWf_write (c : Code) (q : ByteSeq) (t : Memory ByteSeq) (h : Memory.tabWf t = true) :
    Memory.tabWf (tabWrite c q t) = true := by
  obtain ⟨hr, hne⟩ := (tabWf_iff t).mp h
  unfold tabWrite
  split
  · exact h
  · split
    · exact (tabWf_iff _).mpr ⟨rising_erase _ t hr, fun p hp => hne p (List.mem_filter.mp hp).1⟩
    · rename_i hlo hq
      refine (tabWf_iff _).mpr ⟨rising_set (by omega) c.isLt q t hr, fun p hp => ?_⟩
      rcases mem_set hp with rfl | hp
      · exact hq
      · exact hne p hp

end Sys2Proof.Machine
end

