-- ==== Sys2Proof/Laws/CodeTable.lean ====
section
/-! SUPPORT. The code-table and dictionary operations, each in one lemma that lists every way it can end
(41_code_table.md, 42_encode_dictionary.md, 43_decode_dictionary.md). -/

namespace Sys2Proof.Machine

theorem widthFor_bits (n : Nat) :
    (widthFor n).bits = if n < 512 then 9 else if n < 1024 then 10 else if n < 2048 then 11 else 12 := by
  unfold widthFor
  split
  · rfl
  · split
    · rfl
    · split <;> rfl

@[simp] theorem scheduledWidth_enc (nf : FreeCode) : scheduledWidth .enc nf = widthFor nf.toNat := rfl

@[simp] theorem scheduledWidth_dec (nf : FreeCode) : scheduledWidth .dec nf = widthFor (nf.toNat + 1) := rfl

/-- The codes below a next free code fit the width of its schedule (41_code_table.md R123). -/
theorem code_fits_width {n c : Nat} (hc : c < n) (hn : n ≤ 4096) : c < 2 ^ (widthFor n).bits := by
  rw [widthFor_bits]
  split
  · norm_num
    omega
  · split
    · norm_num
      omega
    · split <;> norm_num <;> omega

theorem slotCode_toNat {nf : FreeCode} (h : nf.toNat < 4096) : (slotCode nf).toNat = nf.toNat := by
  rw [slotCode, BitVec.toNat_setWidth]
  exact Nat.mod_eq_of_lt h

theorem nf_succ {nf : FreeCode} (h : nf.toNat < 4096) : (nf + 1#13).toNat = nf.toNat + 1 := by
  rw [BitVec.toNat_add]
  simp only [BitVec.toNat_ofNat]
  omega

theorem literalCode_toNat (b : Byte) : (literalCode b).toNat = b.toNat := by
  rw [literalCode, BitVec.toNat_setWidth]
  exact Nat.mod_eq_of_lt (by have := b.isLt; omega)

theorem nf_full {nf : FreeCode} : nf = Config.capacity ↔ nf.toNat = 4096 := by
  constructor
  · rintro rfl
    rfl
  · intro h
    exact BitVec.eq_of_toNat_eq h

/-- ADD_ENTRY(ENC) raises in a full table, is refused on an edge of ROOT, and else stores one edge (R124). -/
theorem addEdge_cases (n : NodeId) (b : Byte) (e : Enc) :
    (e.nf.toNat = 4096 ∧ addEdge n b e = .raised (e.enterFault .tableOverflow)) ∨
    (e.nf.toNat ≠ 4096 ∧ n = .root ∧ addEdge n b e = .refuse .fixedEdge) ∨
    (e.nf.toNat ≠ 4096 ∧ ∃ c, n = .code c ∧ addEdge n b e =
      .ok (slotCode e.nf)
        { e with
          trie := trieSetChild c b (slotCode e.nf) e.trie
          nf := e.nf + 1#13
          width := widthFor (e.nf + 1#13).toNat }) := by
  unfold addEdge
  by_cases h : e.nf = Config.capacity
  · exact Or.inl ⟨nf_full.mp h, by simp [h, raiseEnc]⟩
  · have h' : e.nf.toNat ≠ 4096 := fun heq => h (nf_full.mpr heq)
    cases n with
    | root => exact Or.inr (Or.inl ⟨h', rfl, by simp [h]⟩)
    | code c => exact Or.inr (Or.inr ⟨h', c, rfl, by simp [h]⟩)

/-- ADD_ENTRY(DEC) raises in a full table and else stores one sequence (R124). -/
theorem addSequence_cases (q : ByteSeq) (d : Dec) :
    (d.nf.toNat = 4096 ∧ addSequence q d = .raised (d.enterFault .tableOverflow .invalidCode)) ∨
    (d.nf.toNat ≠ 4096 ∧ addSequence q d =
      .ok (slotCode d.nf)
        { d with
          tab := tabWrite (slotCode d.nf) q d.tab
          nf := d.nf + 1#13
          width := widthFor ((d.nf + 1#13).toNat + 1) }) := by
  unfold addSequence
  by_cases h : d.nf = Config.capacity
  · exact Or.inl ⟨nf_full.mp h, by simp [h, raiseDec]⟩
  · exact Or.inr ⟨fun heq => h (nf_full.mpr heq), by simp [h]⟩

/-! ## Encode dictionary -/

@[simp] theorem walk_nil (t : Memory Code) (n : NodeId) : walk t n [] = some n := rfl

theorem walk_cons (t : Memory Code) (n : NodeId) (b : Byte) (q : List Byte) :
    walk t n (b :: q) = (trieChild t n b).bind fun c => walk t (.code c) q := by
  rw [walk]
  cases trieChild t n b <;> rfl

/-- A walk along `p ++ q` is the walk along `p` and then along `q` (42_encode_dictionary.md R141). -/
theorem walk_append (t : Memory Code) (n : NodeId) (p q : List Byte) :
    walk t n (p ++ q) = (walk t n p).bind fun m => walk t m q := by
  induction p generalizing n with
  | nil => rfl
  | cons b p ih =>
    rw [List.cons_append, walk_cons, walk_cons]
    cases trieChild t n b with
    | none => rfl
    | some c => exact ih (.code c)

/-- VISIT follows a known edge, or learns one and restarts the run, or raises in a full table
(42_encode_dictionary.md R143). It is never refused. -/
theorem visitByte_cases (b : Byte) (e : Enc) :
    (∃ c, trieChild e.trie e.cur b = some c ∧ visitByte b e = .ok false { e with cur := .code c }) ∨
    (trieChild e.trie e.cur b = none ∧ e.nf.toNat = 4096 ∧
      visitByte b e = .raised (e.enterFault .tableOverflow)) ∨
    (trieChild e.trie e.cur b = none ∧ e.nf.toNat ≠ 4096 ∧ ∃ n, e.cur = .code n ∧
      visitByte b e =
        .ok true
          { e with
            trie := trieSetChild n b (slotCode e.nf) e.trie
            nf := e.nf + 1#13
            width := widthFor (e.nf + 1#13).toNat
            cur := .code (literalCode b) }) := by
  unfold visitByte
  cases h : trieChild e.trie e.cur b with
  | some c => exact Or.inl ⟨c, rfl, rfl⟩
  | none =>
    rcases addEdge_cases e.cur b e with ⟨hf, ha⟩ | ⟨-, hr, -⟩ | ⟨hf, n, hn, ha⟩
    · exact Or.inr (Or.inl ⟨rfl, hf, by simp [ha]⟩)
    · rw [hr] at h
      simp at h
    · exact Or.inr (Or.inr ⟨rfl, hf, n, hn, by simp [ha]⟩)

/-- After a VISIT that returns, the run is not empty. -/
theorem visitByte_cur {b : Byte} {e e1 : Enc} {g : Bool} (h : visitByte b e = .ok g e1) :
    ∃ c, e1.cur = .code c := by
  rcases visitByte_cases b e with ⟨c, -, hv⟩ | ⟨-, -, hv⟩ | ⟨-, -, n, -, hv⟩
  · rw [hv] at h
    cases h
    exact ⟨c, rfl⟩
  · rw [hv] at h
    cases h
  · rw [hv] at h
    cases h
    exact ⟨_, rfl⟩

/-- A VISIT that returns leaves the control state, the byte held, the packer and the port as they are. -/
theorem visitByte_frame {b : Byte} {e e1 : Enc} {g : Bool} (h : visitByte b e = .ok g e1) :
    e1.state = e.state ∧ e1.fault = e.fault ∧ e1.pending = e.pending ∧ e1.pkAcc = e.pkAcc ∧ e1.pkCnt = e.pkCnt ∧
      e1.out = e.out := by
  rcases visitByte_cases b e with ⟨c, -, hv⟩ | ⟨-, -, hv⟩ | ⟨-, -, n, -, hv⟩
  · rw [hv] at h
    cases h
    simp
  · rw [hv] at h
    cases h
  · rw [hv] at h
    cases h
    simp

/-- A VISIT that returns leaves every edge but `(ENC.cur, b)` as it is. -/
theorem visitByte_edges {b : Byte} {e e1 : Enc} {g : Bool} (h : visitByte b e = .ok g e1) (n : Code) (y : Byte)
    (hne : ¬ (e.cur = .code n ∧ y = b)) : trieChild e1.trie (.code n) y = trieChild e.trie (.code n) y := by
  rcases visitByte_cases b e with ⟨c, -, hv⟩ | ⟨-, -, hv⟩ | ⟨-, -, m, hm, hv⟩
  · rw [hv] at h
    cases h
    rfl
  · rw [hv] at h
    cases h
  · rw [hv] at h
    cases h
    refine trieChild_set_ne (fun heq => hne ?_) _ _
    rw [Prod.mk.injEq] at heq
    exact ⟨by rw [hm, heq.1], heq.2⟩

/-! ## Decode dictionary -/

/-- BYTES_FOR of a literal is its byte, in every state (43_decode_dictionary.md R160, R161). -/
theorem sequenceFor_literal (c : Code) (d : Dec) (h : c.toNat < 256) :
    sequenceFor c d = .ok (ByteSeq.single (literalByte c)) d := by
  simp [sequenceFor, h]

/-- BYTES_FOR of an assigned code is what its slot holds (R160). -/
theorem sequenceFor_assigned (c : Code) (d : Dec) (q : ByteSeq) (h1 : 258 ≤ c.toNat) (h2 : c.toNat < d.nf.toNat)
    (hq : tabRead d.tab c = .bytes q) : sequenceFor c d = .ok q d := by
  simp [sequenceFor, h1, h2, hq]

/-- BYTES_FOR outside its precondition is refused (R160). -/
theorem sequenceFor_refused (c : Code) (d : Dec)
    (h : ¬ (c.toNat < 256 ∨ (258 ≤ c.toNat ∧ c.toNat < d.nf.toNat))) : sequenceFor c d = .refuse .noSuchSequence := by
  simp [sequenceFor, h]

/-- BYTES_FOR returns the sequence of the slot under its precondition and is refused elsewhere; it never changes DEC
(R160). -/
theorem sequenceFor_cases (c : Code) (d : Dec) :
    ((c.toNat < 256 ∨ (258 ≤ c.toNat ∧ c.toNat < d.nf.toNat)) ∧
      ∃ q, tabRead d.tab c = .bytes q ∧ sequenceFor c d = .ok q d) ∨
    (¬ (c.toNat < 256 ∨ (258 ≤ c.toNat ∧ c.toNat < d.nf.toNat)) ∧ sequenceFor c d = .refuse .noSuchSequence) := by
  by_cases h : c.toNat < 256 ∨ (258 ≤ c.toNat ∧ c.toNat < d.nf.toNat)
  · refine Or.inl ⟨h, ?_⟩
    rcases h with h | ⟨h1, h2⟩
    · exact ⟨_, tabRead_literal _ _ h, sequenceFor_literal c d h⟩
    · exact ⟨_, tabRead_sequence _ _ h1, sequenceFor_assigned c d _ h1 h2 (tabRead_sequence _ _ h1)⟩
  · exact Or.inr ⟨h, sequenceFor_refused c d h⟩

/-- ADD_DEC raises in a full table and else stores the previous sequence and one byte (R162). -/
theorem learn_cases (p q : ByteSeq) (d : Dec) :
    (d.nf.toNat = 4096 ∧ learn p q d = .raised (d.enterFault .tableOverflow .invalidCode)) ∨
    (d.nf.toNat ≠ 4096 ∧ learn p q d =
      .ok ()
        { d with
          tab := tabWrite (slotCode d.nf) (p.snoc q.head) d.tab
          nf := d.nf + 1#13
          width := widthFor ((d.nf + 1#13).toNat + 1) }) := by
  unfold learn
  rcases addSequence_cases (p.snoc q.head) d with ⟨hf, h⟩ | ⟨hf, h⟩
  · exact Or.inl ⟨hf, by rw [h]; rfl⟩
  · exact Or.inr ⟨hf, by rw [h]; rfl⟩

end Sys2Proof.Machine
end

