-- ==== Sys2Proof/Laws/Decoder.lean ====
section
/-! SUPPORT. The decoder's operations, each in one lemma that lists every way it can end (45_decoder.md), and the class
table (30_encoding.md R77). -/

namespace Sys2Proof.Machine

/-! ## Classes -/

/-- The class table in AWAIT_FIRST and STEADY, line by line (30_encoding.md R77). -/
theorem codeClass_spec (st : DecState) (nf : FreeCode) (v : Code) (k : CodeClass) :
    codeClass st nf v = some k ↔
      (k = .eod ∧ (st = .awaitFirst ∨ st = .steady) ∧ v.toNat = 257) ∨
      (k = .clear ∧ (st = .awaitFirst ∨ st = .steady) ∧ v.toNat = 256) ∨
      (k = .litFirst ∧ st = .awaitFirst ∧ v.toNat < 256) ∨
      (k = .invalidFirst ∧ st = .awaitFirst ∧ 258 ≤ v.toNat) ∨
      (k = .lit ∧ st = .steady ∧ v.toNat < 256) ∨
      (k = .dict ∧ st = .steady ∧ 258 ≤ v.toNat ∧ v.toNat < nf.toNat) ∨
      (k = .kwkwk ∧ st = .steady ∧ 258 ≤ v.toNat ∧ v.toNat = nf.toNat) ∨
      (k = .invalid ∧ st = .steady ∧ 258 ≤ v.toNat ∧ nf.toNat < v.toNat) := by
  unfold codeClass
  cases st
  · simp
  · simp only
    split
    · rename_i h
      cases k <;> simp [h]
    · split
      · rename_i h
        cases k <;> simp [h]
      · split
        · rename_i h1 h2 h3
          have : ¬ 258 ≤ v.toNat := by omega
          cases k <;> simp [h1, h2, h3, this]
        · rename_i h1 h2 h3
          have : 258 ≤ v.toNat := by omega
          cases k <;> simp [h1, h2, h3, this]
  · simp only
    split
    · rename_i h
      cases k <;> simp [h]
    · split
      · rename_i h
        cases k <;> simp [h]
      · split
        · rename_i h1 h2 h3
          have : ¬ 258 ≤ v.toNat := by omega
          cases k <;> simp [h1, h2, h3, this]
        · rename_i h1 h2 h3
          have h4 : 258 ≤ v.toNat := by omega
          split
          · rename_i h5
            have h6 : ¬ v.toNat = nf.toNat := by omega
            have h7 : ¬ nf.toNat < v.toNat := by omega
            cases k <;> simp [h1, h2, h3, h4, h5, h6, h7]
          · split
            · rename_i h5 h6
              cases k <;> simp [h6] <;> omega
            · rename_i h5 h6
              have h7 : nf.toNat < v.toNat := by omega
              cases k <;> simp [h1, h2, h3, h4, h5, h6, h7]
  · simp

/-- Where DEC executes codes, every code has a class. -/
theorem codeClass_total (st : DecState) (nf : FreeCode) (v : Code) (h : st = .awaitFirst ∨ st = .steady) :
    ∃ k, codeClass st nf v = some k := by
  rcases h with rfl | rfl
  · unfold codeClass
    simp only
    repeat' split
    all_goals exact ⟨_, rfl⟩
  · unfold codeClass
    simp only
    repeat' split
    all_goals exact ⟨_, rfl⟩

theorem classNow_eq {d : Dec} (v : Code) (h : d.fault = .none) : classNow v d = codeClass d.state d.nf v := by
  simp [classNow, h]

theorem classNow_faulted {d : Dec} (v : Code) (h : d.fault ≠ .none) : classNow v d = none := by
  simp [classNow, h]

/-- A wire code runs under the class the table gives it. -/
theorem runAs_of_class {k : CodeClass} {v : Code} {d : Dec} (h : classNow v d = some k) :
    runAs k v d = runClass k v d := by
  simp [runAs, h]

/-- A wire code is refused under a class the table does not give it. -/
theorem runAs_refused {k : CodeClass} {v : Code} {d : Dec} (h : classNow v d ≠ some k) :
    runAs k v d = .refuse .codeNotOfThisClass := by
  simp [runAs, h]

/-- DEC_EXEC records the code and runs its class. -/
theorem executeCode_of_class {k : CodeClass} {v : Code} {w : CodeWidth} {d : Dec} (h : classNow v d = some k) :
    executeCode v w d = runClass k v { d with last := ⟨v, widthValue w, true⟩ } := by
  simp [executeCode, h]

/-! ## What a code does -/

/-- STEADY_TAIL without a previous sequence is stuck; in a full table it raises after the sequence has been emitted;
else it emits, learns and remembers (R226). -/
theorem steadyTail_cases (q : ByteSeq) (d : Dec) :
    (d.prev = none ∧ steadyTail q d = .stuck .noPreviousSequence) ∨
    ∃ p, d.prev = some p ∧
      ((d.nf.toNat = 4096 ∧ steadyTail q d = .raised ((emitData q d).enterFault .tableOverflow .invalidCode)) ∨
      (d.nf.toNat ≠ 4096 ∧ steadyTail q d =
        .ok ()
          { d with
            tab := tabWrite (slotCode d.nf) (p.snoc q.head) d.tab
            nf := d.nf + 1#13
            width := widthFor ((d.nf + 1#13).toNat + 1)
            prev := some q
            out := d.out ++ q.bytes })) := by
  unfold steadyTail
  cases h : d.prev with
  | none => exact Or.inl ⟨rfl, rfl⟩
  | some p =>
    refine Or.inr ⟨p, rfl, ?_⟩
    rcases learn_cases p q (emitData q d) with ⟨hf, hl⟩ | ⟨hf, hl⟩
    · exact Or.inl ⟨hf, by simp [hl]⟩
    · refine Or.inr ⟨hf, ?_⟩
      simp only [hl, bind_ok]
      simp [emitData]

/-- STEADY_TAIL is never refused. -/
theorem steadyTail_not_refused (q : ByteSeq) (d : Dec) (r : Refusal) : steadyTail q d ≠ .refuse r := by
  rcases steadyTail_cases q d with ⟨-, h⟩ | ⟨p, -, ⟨-, h⟩ | ⟨-, h⟩⟩ <;> simp [h]

/-- A code that has its class is never refused. -/
theorem runClass_not_refused {k : CodeClass} {v : Code} {d d' : Dec} (h : codeClass d.state d.nf v = some k)
    (hn : d'.nf = d.nf) (r : Refusal) : runClass k v d' ≠ .refuse r := by
  have hres : v.toNat < 256 ∨ (258 ≤ v.toNat ∧ v.toNat < d'.nf.toNat) → runResolved v d' ≠ .refuse r := by
    intro hp
    unfold runResolved
    rcases sequenceFor_cases v d' with ⟨-, q, -, hq⟩ | ⟨hn, -⟩
    · rw [hq]
      exact steadyTail_not_refused q d' r
    · exact absurd hp hn
  cases k with
  | eod => simp [runClass, runEod]
  | clear => simp [runClass, runClear]
  | litFirst =>
    have hv := (codeClass_spec _ _ _ _).mp h
    simp at hv
    simp [runClass, runLitFirst, sequenceFor_literal v d' hv.2]
  | invalidFirst => simp [runClass, runCorrupt, raiseDec]
  | lit =>
    have hv := (codeClass_spec _ _ _ _).mp h
    simp at hv
    exact hres (Or.inl hv.2)
  | dict =>
    have hv := (codeClass_spec _ _ _ _).mp h
    simp at hv
    exact hres (Or.inr ⟨hv.2.1, by rw [hn]; exact hv.2.2⟩)
  | kwkwk =>
    simp only [runClass, runKwkwk]
    cases d'.prev with
    | none => simp
    | some p => exact steadyTail_not_refused _ _ _
  | invalid => simp [runClass, runCorrupt, raiseDec]

/-- Whatever a code does, it keeps the unpacker and DEC.last, and what was emitted stays (R219 to R226). -/
theorem runClass_keeps {k : CodeClass} {v : Code} {d d' : Dec}
    (h : runClass k v d = .ok () d' ∨ runClass k v d = .raised d') :
    d'.upAcc = d.upAcc ∧ d'.upCnt = d.upCnt ∧ d'.last = d.last ∧ d.out <+: d'.out := by
  have tail : ∀ q, (steadyTail q d = .ok () d' ∨ steadyTail q d = .raised d') →
      d'.upAcc = d.upAcc ∧ d'.upCnt = d.upCnt ∧ d'.last = d.last ∧ d.out <+: d'.out := by
    intro q hq
    rcases steadyTail_cases q d with ⟨-, h'⟩ | ⟨p, -, ⟨-, h'⟩ | ⟨-, h'⟩⟩ <;> rw [h'] at hq <;>
      rcases hq with hq | hq <;> cases hq
    · exact ⟨rfl, rfl, rfl, ⟨q.bytes, rfl⟩⟩
    · exact ⟨rfl, rfl, rfl, ⟨q.bytes, rfl⟩⟩
  have resolved : (runResolved v d = .ok () d' ∨ runResolved v d = .raised d') →
      d'.upAcc = d.upAcc ∧ d'.upCnt = d.upCnt ∧ d'.last = d.last ∧ d.out <+: d'.out := by
    intro hq
    unfold runResolved at hq
    rcases sequenceFor_cases v d with ⟨-, q, -, h'⟩ | ⟨-, h'⟩ <;> rw [h'] at hq
    · exact tail q hq
    · rcases hq with hq | hq <;> cases hq
  cases k with
  | eod => rcases h with h | h <;> cases h; exact ⟨rfl, rfl, rfl, List.prefix_refl _⟩
  | clear => rcases h with h | h <;> cases h; exact ⟨rfl, rfl, rfl, List.prefix_refl _⟩
  | litFirst =>
    simp only [runClass, runLitFirst] at h
    rcases sequenceFor_cases v d with ⟨-, q, -, h'⟩ | ⟨-, h'⟩ <;> rw [h'] at h <;> rcases h with h | h <;> cases h
    exact ⟨rfl, rfl, rfl, ⟨q.bytes, rfl⟩⟩
  | invalidFirst => rcases h with h | h <;> cases h; exact ⟨rfl, rfl, rfl, List.prefix_refl _⟩
  | lit => exact resolved h
  | dict => exact resolved h
  | kwkwk =>
    simp only [runClass, runKwkwk] at h
    cases hp : d.prev with
    | none => rw [hp] at h; rcases h with h | h <;> cases h
    | some p => rw [hp] at h; exact tail _ h
  | invalid => rcases h with h | h <;> cases h; exact ⟨rfl, rfl, rfl, List.prefix_refl _⟩

/-- DEC_EXEC keeps the unpacker, and what was emitted stays (R218). -/
theorem executeCode_keeps {v : Code} {w : CodeWidth} {d d' : Dec}
    (h : executeCode v w d = .ok () d' ∨ executeCode v w d = .raised d') :
    d'.upAcc = d.upAcc ∧ d'.upCnt = d.upCnt ∧ d'.last = ⟨v, widthValue w, true⟩ ∧ d.out <+: d'.out := by
  cases hc : classNow v d with
  | none => simp [executeCode, hc] at h
  | some k =>
    rw [executeCode_of_class hc] at h
    exact runClass_keeps h

/-! ## Guards and the loop -/

/-- A guarded DEC command runs outside IDLE without a fault. -/
theorem whileOperating_runs {d : Dec} (body : Flow Dec Unit) (h1 : d.state ≠ .idle) (h2 : d.fault = .none) :
    whileOperating d body = body := by
  simp [whileOperating, h1, h2]

/-- A guarded DEC command is refused in IDLE and in a fault (R217). -/
theorem whileOperating_refused {d : Dec} (body : Flow Dec Unit) (h : d.state = .idle ∨ d.fault ≠ .none) :
    whileOperating d body = .refuse .decFaulted ∨ whileOperating d body = .refuse .decIdle := by
  unfold whileOperating
  by_cases hf : d.fault = .none
  · have hs : d.state = .idle := h.resolve_right (fun h => h hf)
    simp [hf, hs]
  · simp [hf]

/-- DEC_BYTE's loop stops where no code is complete, in DONE and in a fault (R215). -/
theorem takeCodes_stop (fuel : Nat) (d : Dec)
    (h : ¬ (d.state ≠ .done ∧ d.fault = .none ∧ d.width.bits ≤ d.upCnt.toNat)) : takeCodes fuel d = .ok () d := by
  cases fuel with
  | zero => rfl
  | succ n => rw [takeCodes, if_neg h]

/-- One turn of DEC_BYTE's loop (R215). -/
theorem takeCodes_step (fuel : Nat) (d : Dec)
    (h : d.state ≠ .done ∧ d.fault = .none ∧ d.width.bits ≤ d.upCnt.toNat) :
    takeCodes (fuel + 1) d =
      (getCode d.width d).bind fun v d1 => (executeCode v d.width d1).bind fun _ d2 => takeCodes fuel d2 := by
  rw [takeCodes, if_pos h]

/-- With fewer bits held than a code and a byte more, DEC_BYTE's loop turns once: after one code at most 7 bits are left,
which is less than any width (R215). -/
theorem takeCodes_once (fuel : Nat) (d : Dec) (h : d.state ≠ .done ∧ d.fault = .none ∧ d.width.bits ≤ d.upCnt.toNat)
    (hlt : d.upCnt.toNat < d.width.bits + 8) :
    takeCodes (fuel + 1) d = (getCode d.width d).bind fun v d1 => executeCode v d.width d1 := by
  rw [takeCodes_step _ _ h]
  rcases getCode_cases d.width d with ⟨hle, v, hg, -⟩ | ⟨hle, -⟩
  · rw [hg, bind_ok, bind_ok]
    generalize hd1 : ({ d with upAcc := d.upAcc >>> d.width.bits, upCnt := d.upCnt - BitVec.ofNat 5 d.width.bits } : Dec) = d1
    have hcnt : d1.upCnt.toNat ≤ 7 := by
      have hw := width_le d.width
      rw [← hd1]
      show (d.upCnt - BitVec.ofNat 5 d.width.bits).toNat ≤ 7
      rw [BitVec.toNat_sub_of_le (by simp [BitVec.le_def]; omega)]
      simp
      omega
    cases he : executeCode v d.width d1 with
    | ok a d2 =>
      rw [bind_ok]
      have hk := (executeCode_keeps (Or.inl he)).2.1
      exact takeCodes_stop _ _ fun hh => by
        have := width_le d2.width
        have := hh.2.2
        rw [hk] at this
        omega
    | raised d2 => rfl
    | stuck f => rfl
    | refuse r => rfl
  · omega

end Sys2Proof.Machine
end

