-- ==== Sys2Proof/Laws/Encoder.lean ====
section
/-! SUPPORT. The encoder's operations, each in one lemma that lists every way it can end (44_encoder.md). -/

namespace Sys2Proof.Machine

/-- A guarded ENC command runs in ACCUMULATING without a fault. -/
theorem whileAccumulating_runs {e : Enc} (body : Flow Enc Unit) (h1 : e.state = .accumulating) (h2 : e.fault = .none) :
    whileAccumulating e body = body := by
  simp [whileAccumulating, h1, h2]

/-- A guarded ENC command is refused out of ACCUMULATING and in a fault (R187). -/
theorem whileAccumulating_refused {e : Enc} (body : Flow Enc Unit) (h : e.state ≠ .accumulating ∨ e.fault ≠ .none) :
    whileAccumulating e body = .refuse .encFaulted ∨ whileAccumulating e body = .refuse .encNotAccumulating := by
  unfold whileAccumulating
  by_cases hf : e.fault = .none
  · have hs : e.state ≠ .accumulating := h.resolve_right (fun h => h hf)
    simp [hf, hs]
  · simp [hf]

theorem flushedFlag_eq_true (e : Enc) (x : Byte) : flushedFlag e x = true ↔ trieChild e.trie e.cur x = none := by
  simp [flushedFlag]

/-- Step 6 does nothing below 4095 (R186). -/
theorem proactiveReset_below (code : Code) (f : Bool) (e : Enc) (h : e.nf ≠ Config.clearAt) :
    proactiveReset code f e = e := by
  simp [proactiveReset, h]

/-- At 4095 step 6 leaves the baseline table, an empty run and an extended output (R186). -/
theorem proactiveReset_at (code : Code) (f : Bool) (e : Enc) (h : e.nf = Config.clearAt) :
    ∃ (sent : List Byte) (acc : Accumulator) (cnt : BitCount),
      proactiveReset code f e =
        { e with nf := Config.firstFree, width := .w9, trie := [], cur := .root, pkAcc := acc, pkCnt := cnt,
                 out := e.out ++ sent } ∧ cnt.toNat ≤ 7 := by
  unfold proactiveReset
  rw [if_pos h]
  cases f with
  | true =>
    obtain ⟨sent, acc, cnt, heq, hle⟩ := put_frame Config.clearCode e.width e
    exact ⟨sent, acc, cnt, by simp [heq, resetEncTable], hle⟩
  | false =>
    obtain ⟨sent, acc, cnt, heq, -⟩ := put_frame code e.width e
    obtain ⟨sent', acc', cnt', heq', hle'⟩ := put_frame Config.clearCode e.width (put code e.width e)
    refine ⟨sent ++ sent', acc', cnt', ?_, hle'⟩
    simp only [Bool.false_eq_true, if_false, put_width]
    rw [heq', heq]
    simp [resetEncTable]

/-- ENC_STEP raises exactly where its VISIT does, with VISIT's state. -/
theorem processByte_raised {b : Byte} {la : Lookahead} {e e1 : Enc} (h : visitByte b e = .raised e1) :
    processByte b la e = .raised e1 := by
  simp [processByte, h]

/-- ENC_STEP on the last byte: the match is written (R186 step 4). -/
theorem processByte_last {b : Byte} {e e1 : Enc} {g : Bool} {c : Code} (h : visitByte b e = .ok g e1)
    (hc : e1.cur = .code c) : processByte b .endOfData e = .ok () (put c e1.width e1) := by
  simp [processByte, h, hc]

/-- ENC_STEP with a byte to follow: steps 5 and 6 (R186). -/
theorem processByte_next {b x : Byte} {e e1 : Enc} {g : Bool} {c : Code} (h : visitByte b e = .ok g e1)
    (hc : e1.cur = .code c) :
    processByte b (.byte x) e =
      .ok () (proactiveReset c (flushedFlag e1 x) (if flushedFlag e1 x then put c e1.width e1 else e1)) := by
  simp [processByte, h, hc]

/-- Every way ENC_STEP can end: VISIT raised in a full table, or the step returned. It is never refused and never
stuck. -/
theorem processByte_cases (b : Byte) (la : Lookahead) (e : Enc) :
    (e.nf.toNat = 4096 ∧ processByte b la e = .raised (e.enterFault .tableOverflow)) ∨
    ∃ e1 g c, visitByte b e = .ok g e1 ∧ e1.cur = .code c ∧
      ((la = .endOfData ∧ processByte b la e = .ok () (put c e1.width e1)) ∨
        ∃ x, la = .byte x ∧ processByte b la e =
          .ok () (proactiveReset c (flushedFlag e1 x) (if flushedFlag e1 x then put c e1.width e1 else e1))) := by
  have hok : ∀ (g : Bool) (e1 : Enc), visitByte b e = .ok g e1 →
      ∃ e1 g c, visitByte b e = .ok g e1 ∧ e1.cur = .code c ∧
        ((la = .endOfData ∧ processByte b la e = .ok () (put c e1.width e1)) ∨
          ∃ x, la = .byte x ∧ processByte b la e =
            .ok () (proactiveReset c (flushedFlag e1 x) (if flushedFlag e1 x then put c e1.width e1 else e1))) := by
    intro g e1 hv
    obtain ⟨c, hc⟩ := visitByte_cur hv
    refine ⟨e1, g, c, hv, hc, ?_⟩
    cases la with
    | endOfData => exact Or.inl ⟨rfl, processByte_last hv hc⟩
    | byte x => exact Or.inr ⟨x, rfl, processByte_next hv hc⟩
  rcases visitByte_cases b e with ⟨c, -, hv⟩ | ⟨-, hf, hv⟩ | ⟨-, -, n, -, hv⟩
  · exact Or.inr (hok _ _ hv)
  · exact Or.inl ⟨hf, processByte_raised hv⟩
  · exact Or.inr (hok _ _ hv)

/-- ENC_STEP, returned, leaves the control state and the byte held, and what was emitted stays. -/
theorem processByte_frame {b : Byte} {la : Lookahead} {e e' : Enc} (h : processByte b la e = .ok () e') :
    e'.state = e.state ∧ e'.fault = e.fault ∧ e'.pending = e.pending ∧ e.out <+: e'.out := by
  rcases processByte_cases b la e with ⟨-, hr⟩ | ⟨e1, g, c, hv, hc, ⟨-, hp⟩ | ⟨x, -, hp⟩⟩
  · rw [hr] at h
    cases h
  · rw [hp] at h
    cases h
    obtain ⟨h1, h2, h3, -, -, h6⟩ := visitByte_frame hv
    refine ⟨by simp [h1], by simp [h2], by simp [h3], ?_⟩
    rw [← h6]
    exact put_out _ _ _
  · rw [hp] at h
    cases h
    obtain ⟨h1, h2, h3, -, -, h6⟩ := visitByte_frame hv
    have hw : ∀ f : Bool, (if f then put c e1.width e1 else e1).state = e1.state ∧
        (if f then put c e1.width e1 else e1).fault = e1.fault ∧
        (if f then put c e1.width e1 else e1).pending = e1.pending ∧
        e1.out <+: (if f then put c e1.width e1 else e1).out := by
      intro f
      cases f with
      | true => exact ⟨by simp, by simp, by simp, put_out _ _ _⟩
      | false => exact ⟨rfl, rfl, rfl, List.prefix_refl _⟩
    obtain ⟨w1, w2, w3, w4⟩ := hw (flushedFlag e1 x)
    generalize (if flushedFlag e1 x = true then put c e1.width e1 else e1) = e2 at w1 w2 w3 w4 ⊢
    rw [← h1, ← h2, ← h3, ← h6, ← w1, ← w2, ← w3]
    by_cases hn : e2.nf = Config.clearAt
    · obtain ⟨sent, acc, cnt, heq, -⟩ := proactiveReset_at c (flushedFlag e1 x) e2 hn
      rw [heq]
      exact ⟨rfl, rfl, rfl, w4.trans ⟨sent, rfl⟩⟩
    · rw [proactiveReset_below _ _ _ hn]
      exact ⟨rfl, rfl, rfl, w4⟩

/-- The end of ENC_END changes the control state, the packer and the output port only. -/
theorem closeStream_frame (e : Enc) :
    ∃ sent : List Byte,
      closeStream e = { e with state := .eof, pkAcc := 0#19, pkCnt := 0#5, out := e.out ++ sent } := by
  obtain ⟨sent, acc, cnt, heq, -⟩ := put_frame Config.eodCode (widthFor (e.nf.toNat + 1)) e
  obtain ⟨sent', heq'⟩ := flushBits_frame (put Config.eodCode (widthFor (e.nf.toNat + 1)) e)
  refine ⟨sent ++ sent', ?_⟩
  unfold closeStream
  rw [heq', heq]
  simp

end Sys2Proof.Machine
end

