-- ==== Sys2Proof/Laws/PerInstr.lean ====
section
/-! SUPPORT. One lemma per constructor of Instr: its encoding against its row of spec/opcode_table.json. -/

namespace Sys2Proof.Laws.TableRow

/-- What a row of spec/opcode_table.json says about the encoding of its instruction. -/
inductive Row where
  /-- The row's `match` and `mask`, over a word of at most 12 bits. -/
  | fixed (word mask : BitVec 12)
  /-- A wire code whose condition the table calls not expressible as match and mask. -/
  | byCondition
  /-- Format `internal`: no encoding. -/
  | internal
  deriving DecidableEq, Repr

/-- The row of each instruction. -/
def rowOf : Instr → Row
  | .encByte _ => .fixed 0x000#12 0x300#12
  | .encEnd => .fixed 0x100#12 0x3FF#12
  | .encStart => .fixed 0x200#12 0x3FF#12
  | .decByte _ => .fixed 0x000#12 0x300#12
  | .decEnd => .fixed 0x100#12 0x3FF#12
  | .decStart => .fixed 0x200#12 0x3FF#12
  | .reservedOp3 _ _ => .fixed 0x300#12 0x300#12
  | .reservedEndData _ _ => .fixed 0x100#12 0x300#12
  | .reservedStartData _ _ => .fixed 0x200#12 0x300#12
  | .eod => .fixed 0x101#12 0xFFF#12
  | .clear => .fixed 0x100#12 0xFFF#12
  | .litFirst _ => .fixed 0x000#12 0xF00#12
  | .lit _ => .fixed 0x000#12 0xF00#12
  | .invalidFirst _ | .dict _ | .kwkwk _ | .invalid _ => .byCondition
  | .put _ _ | .flush | .fill _ | .get _ | .tableReset _ | .addEntry _ => .internal
  | .childNodeB _ _ | .childNodeS _ _ | .getNode _ | .visit _ => .internal
  | .bytesFor _ | .addDec _ _ | .encStep _ _ | .decExec _ _ | .steadyTail _ => .internal

/-- The word of an encoded instruction, zero-extended to 12 bits. -/
def wordOf : Encoded → BitVec 12
  | .token _ t => t.setWidth 12
  | .code v => v

/-- A well-formed instruction is encoded as its row says. -/
def Statement (i : Instr) : Prop :=
  i.wellFormed = true →
    match rowOf i with
    | .fixed word mask => ∃ e, encode i = some e ∧ wordOf e &&& mask = word
    | .byCondition => ∃ v, encode i = some (.code v)
    | .internal => encode i = none

theorem token_high_bits : ∀ (op : BitVec 2) (data : Byte),
    (makeToken op data).setWidth 12 &&& 0x300#12 = (makeToken op 0#8).setWidth 12 := by decide

theorem literal_high_bits (v : Code) (h : v.toNat < 256) : v &&& 0xF00#12 = 0#12 := by
  have hv : v = (v.setWidth 8).setWidth 12 := by
    apply BitVec.eq_of_toNat_eq
    rw [BitVec.toNat_setWidth, BitVec.toNat_setWidth]
    omega
  have all : ∀ b : Byte, b.setWidth 12 &&& 0xF00#12 = 0#12 := by decide
  rw [hv]
  exact all _

theorem encByte (x : Byte) : Statement (.encByte x) := fun _ => ⟨_, rfl, token_high_bits 0#2 x⟩
theorem encEnd : Statement .encEnd := fun _ => ⟨_, rfl, by decide⟩
theorem encStart : Statement .encStart := fun _ => ⟨_, rfl, by decide⟩
theorem decByte (x : Byte) : Statement (.decByte x) := fun _ => ⟨_, rfl, token_high_bits 0#2 x⟩
theorem decEnd : Statement .decEnd := fun _ => ⟨_, rfl, by decide⟩
theorem decStart : Statement .decStart := fun _ => ⟨_, rfl, by decide⟩
theorem reservedOp3 (u : UnitId) (data : Byte) : Statement (.reservedOp3 u data) :=
  fun _ => ⟨_, rfl, token_high_bits 3#2 data⟩
theorem reservedEndData (u : UnitId) (data : Byte) : Statement (.reservedEndData u data) :=
  fun _ => ⟨_, rfl, token_high_bits 1#2 data⟩
theorem reservedStartData (u : UnitId) (data : Byte) : Statement (.reservedStartData u data) :=
  fun _ => ⟨_, rfl, token_high_bits 2#2 data⟩
theorem eod : Statement .eod := fun _ => ⟨_, rfl, by decide⟩
theorem clear : Statement .clear := fun _ => ⟨_, rfl, by decide⟩
theorem litFirst (v : Code) : Statement (.litFirst v) :=
  fun h => ⟨_, rfl, literal_high_bits v (of_decide_eq_true h)⟩
theorem invalidFirst (v : Code) : Statement (.invalidFirst v) := fun _ => ⟨v, rfl⟩
theorem lit (v : Code) : Statement (.lit v) := fun h => ⟨_, rfl, literal_high_bits v (of_decide_eq_true h)⟩
theorem dict (v : Code) : Statement (.dict v) := fun _ => ⟨v, rfl⟩
theorem kwkwk (v : Code) : Statement (.kwkwk v) := fun _ => ⟨v, rfl⟩
theorem invalid (v : Code) : Statement (.invalid v) := fun _ => ⟨v, rfl⟩
theorem put (v : Code) (w : CodeWidth) : Statement (.put v w) := fun _ => rfl
theorem flush : Statement .flush := fun _ => rfl
theorem fill (x : Byte) : Statement (.fill x) := fun _ => rfl
theorem get (w : CodeWidth) : Statement (.get w) := fun _ => rfl
theorem tableReset (u : UnitId) : Statement (.tableReset u) := fun _ => rfl
theorem addEntry (p : Payload) : Statement (.addEntry p) := fun _ => rfl
theorem childNodeB (n : NodeId) (b : Byte) : Statement (.childNodeB n b) := fun _ => rfl
theorem childNodeS (n : NodeId) (s : List Byte) : Statement (.childNodeS n s) := fun _ => rfl
theorem getNode (s : List Byte) : Statement (.getNode s) := fun _ => rfl
theorem visit (b : Byte) : Statement (.visit b) := fun _ => rfl
theorem bytesFor (c : Code) : Statement (.bytesFor c) := fun _ => rfl
theorem addDec (p s : ByteSeq) : Statement (.addDec p s) := fun _ => rfl
theorem encStep (b : Byte) (la : Lookahead) : Statement (.encStep b la) := fun _ => rfl
theorem decExec (v : Code) (w : CodeWidth) : Statement (.decExec v w) := fun _ => rfl
theorem steadyTail (s : ByteSeq) : Statement (.steadyTail s) := fun _ => rfl

end Sys2Proof.Laws.TableRow
end

