-- ==== Sys2Proof/Tests/Slice0.lean ====
section
/-! SUPPORT. Tests of the model. Every expected value is the spec's: a word written out from an encoding table, an
example of a rule, or a row of 95_test_vectors.md, named where it is used. The last part gives, for every statement with
hypotheses, a state and operands that meet them. -/

namespace Sys2Proof.Tests

open Sys2Proof Sys2Proof.Machine

/-! ## Small states -/

/-- ENC after ENC_START and three bytes of ABABABAB (95_test_vectors.md P2, fourth row): 65/9 and 66/9 are written, 258 is
the edge (65, B), the run is at 66 and the third byte is held. -/
def enc : Enc where
  state := .accumulating
  fault := .none
  nf := 259#13
  width := .w9
  cur := .code 66#12
  pending := some 0x41#8
  trie := [(256 * 65 + 66, 258#12)]
  pkAcc := 1#19
  pkCnt := 3#5
  out := [0x00#8, 0x83#8, 0x08#8]

/-- DEC after the first four bytes of the ABABABAB stream (95_test_vectors.md P3, sixth row). -/
def dec : Dec where
  state := .steady
  fault := .none
  cause := .invalidCode
  nf := 259#13
  width := .w9
  prev := some ⟨0x42#8, []⟩
  tab := [(258, ⟨0x41#8, [0x42#8]⟩)]
  upAcc := 2#19
  upCnt := 5#5
  last := ⟨66#12, 9#4, true⟩
  out := [0x41#8, 0x42#8]

/-- The machine in the middle of both operations. -/
def mid : State := { enc := enc, dec := dec, input := [], returned := none }

/-- The machine with ENC as given. -/
def withE (e : Enc) : State := { mid with enc := e }

/-- The machine with DEC as given. -/
def withD (d : Dec) : State := { mid with dec := d }

/-- DEC right after DEC_START and the bytes 00 and 83 (95_test_vectors.md P3, fourth row): CLEAR taken, 7 bits held. -/
def decFirst : Dec :=
  { dec with state := .awaitFirst, nf := 258#13, prev := none, tab := [], upAcc := 0x41#19, upCnt := 7#5,
             last := ⟨256#12, 9#4, true⟩, out := [] }

/-- The next state of an outcome, if it has one. -/
def after : Host.Outcome State Fault Refusal → Option State
  | .next t => some t
  | .fault _ => none
  | .refused _ => none

/-- Why an outcome is a refusal, if it is one. -/
def why : Host.Outcome State Fault Refusal → Option Refusal
  | .next _ => none
  | .fault _ => none
  | .refused r => some r

/-- What an instruction does to ENC: the status word after it and the bytes it emitted. -/
def encAfter (i : Instr) (e : Enc) : Option (StatusWord × List Byte) :=
  (after (exec i (withE e))).map fun t => (encStatus t.enc, t.enc.out.drop e.out.length)

/-- What an instruction does to DEC: both status words after it and the bytes it emitted. -/
def decAfter (i : Instr) (d : Dec) : Option (StatusWord × StatusWord × List Byte) :=
  (after (exec i (withD d))).map fun t => (decStatus t.dec, decInfo t.dec, t.dec.out.drop d.out.length)

/-- What a micro-operation returns. -/
def returns (i : Instr) (s : State) : Option Returned := (after (exec i s)).bind State.returned

/-! ## Decoding: words written out from 30_encoding.md R70 to R73 (tokens) and R74, R77 (codes) -/

-- OP = 00, DATA = 0x42
theorem test_decode_encByte : decodeToken .enc 0b0001000010#10 = .encByte 0x42#8 := by decide
theorem test_decode_decByte : decodeToken .dec 0b0011111100#10 = .decByte 0xFC#8 := by decide
-- OP = 01, DATA = 0
theorem test_decode_encEnd : decodeToken .enc 0x100#10 = .encEnd := by decide
theorem test_decode_decEnd : decodeToken .dec 0x100#10 = .decEnd := by decide
-- OP = 10, DATA = 0
theorem test_decode_encStart : decodeToken .enc 0x200#10 = .encStart := by decide
theorem test_decode_decStart : decodeToken .dec 0x200#10 = .decStart := by decide
-- OP = 11; OP = 01 and 10 with DATA ≠ 0
theorem test_decode_reservedOp3 : decodeToken .enc 0b1111111111#10 = .reservedOp3 .enc 0xFF#8 := by decide
theorem test_decode_reservedEndData : decodeToken .enc 0b0100000001#10 = .reservedEndData .enc 1#8 := by decide
theorem test_decode_reservedStartData : decodeToken .dec 0b1010000000#10 = .reservedStartData .dec 0x80#8 := by decide

-- codes, by the class table; the state and next free code are given
theorem test_decode_eod : decodeCode .awaitFirst 258#13 0b000100000001#12 = .ok .eod := by decide
theorem test_decode_clear : decodeCode .steady 300#13 0b000100000000#12 = .ok .clear := by decide
theorem test_decode_litFirst : decodeCode .awaitFirst 258#13 0b000011111111#12 = .ok (.litFirst 255#12) := by decide
theorem test_decode_invalidFirst :
    decodeCode .awaitFirst 258#13 0b111111111111#12 = .ok (.invalidFirst 4095#12) := by decide
theorem test_decode_lit : decodeCode .steady 258#13 0b000000000000#12 = .ok (.lit 0#12) := by decide
theorem test_decode_dict : decodeCode .steady 259#13 0b000100000010#12 = .ok (.dict 258#12) := by decide
theorem test_decode_kwkwk : decodeCode .steady 259#13 0b000100000011#12 = .ok (.kwkwk 259#12) := by decide
theorem test_decode_invalid : decodeCode .steady 259#13 0b000100000100#12 = .ok (.invalid 260#12) := by decide
-- 45_decoder.md R225: at next free code 4096 the largest code is a dictionary code
theorem test_decode_full_table : decodeCode .steady 4096#13 0xFFF#12 = .ok (.dict 4095#12) := by decide
-- 45_decoder.md R210: no code is executed in IDLE and DONE
theorem test_decode_idle : decodeCode .idle 258#13 65#12 = .error (.noCodeInState .idle) := by decide
theorem test_decode_done : decodeCode .done 258#13 65#12 = .error (.noCodeInState .done) := by decide
-- a command token is 10 bits
theorem test_decode_wide : decodeWord .enc 0x400 = .error .widerThanToken := by decide
theorem test_decode_table_word : decodeTableWord 16 0x200 = some .encStart := by decide

-- 20_memory.md R54: CLEAR at width 9 fills byte 0 and bit 0 of byte 1
theorem test_bits_of_clear :
    codeBits 256#12 .w9 = [false, false, false, false, false, false, false, false, true] := by decide

/-! ## Well-formedness: an ill-formed term for each check -/

theorem smoke_reservedEndData : (Instr.reservedEndData .enc 0#8).wellFormed = false := by decide
theorem smoke_reservedStartData : (Instr.reservedStartData .dec 0#8).wellFormed = false := by decide
theorem smoke_litFirst : (Instr.litFirst 256#12).wellFormed = false := by decide
theorem smoke_invalidFirst : (Instr.invalidFirst 257#12).wellFormed = false := by decide
theorem smoke_lit : (Instr.lit 256#12).wellFormed = false := by decide
theorem smoke_dict : (Instr.dict 257#12).wellFormed = false := by decide
theorem smoke_kwkwk : (Instr.kwkwk 257#12).wellFormed = false := by decide
theorem smoke_invalid : (Instr.invalid 258#12).wellFormed = false := by decide
theorem smoke_put : (Instr.put 512#12 .w9).wellFormed = false := by decide
theorem smoke_addEntry_root : (Instr.addEntry (.edge .root 0#8)).wellFormed = false := by decide
theorem smoke_addEntry_control : (Instr.addEntry (.edge (.code 257#12) 0#8)).wellFormed = false := by decide
theorem smoke_childNodeB : (Instr.childNodeB (.code 256#12) 0#8).wellFormed = false := by decide
theorem smoke_childNodeS : (Instr.childNodeS (.code 257#12) []).wellFormed = false := by decide
theorem smoke_bytesFor : (Instr.bytesFor 256#12).wellFormed = false := by decide
theorem smoke_decExec : (Instr.decExec 1024#12 .w10).wellFormed = false := by decide
/-- A sequence of one byte more than a slot can hold (00_scope.md R9). -/
def tooLong : ByteSeq := ⟨0#8, List.replicate 3839 0#8⟩
theorem tooLong_length : tooLong.length = 3840 := by
  show (List.replicate 3839 0#8).length + 1 = 3840
  rw [List.length_replicate]
theorem smoke_addEntry_sequence : (Instr.addEntry (.sequence tooLong)).wellFormed = false := by
  simp [Instr.wellFormed, ByteSeq.fits, tooLong_length, Config.longestSequence]
theorem smoke_addDec : (Instr.addDec tooLong ⟨0#8, []⟩).wellFormed = false := by
  simp [Instr.wellFormed, tooLong_length, Config.longestSequence]
theorem smoke_steadyTail : (Instr.steadyTail tooLong).wellFormed = false := by
  simp [Instr.wellFormed, ByteSeq.fits, tooLong_length, Config.longestSequence]

/-! ## The ports -/

-- 95_test_vectors.md P1, second row: the token 200 as the first command after reset
theorem test_step_start : (after (step (State.reset.withFetchWord 16 0x200))).map
    (fun t => (encStatus t.enc, t.enc.out, t.input)) = some (0x00820521#32, [0x00#8], []) := by decide
-- 95_test_vectors.md P5, first row: a BYTE in IDLE is refused
theorem test_step_byte_in_idle :
    why (step (State.reset.withFetchWord 16 0x041)) = some .encNotAccumulating := by decide
-- 70_reset_and_hazards.md R270: `rst` in the middle of both operations
theorem test_step_rst : (after (step (mid.withInput [.rst]))).map
    (fun t => (encStatus t.enc, decStatus t.dec, decInfo t.dec)) = some (0x00020520#32, 0x00020520#32, 0#32) := by decide
theorem test_step_nothing_waiting : after (step mid) = some mid := by decide

/-! ## The encoder -/

-- 44_encoder.md R184, example; and P5, sixth row: START aborts
theorem test_encStart : encAfter .encStart Enc.reset = some (0x00820521#32, [0x00#8]) := by decide
theorem test_encStart_aborts : encAfter .encStart enc = some (0x00820521#32, [0x00#8]) := by decide
-- P2, fifth and sixth row
theorem test_encByte : encAfter (.encByte 0x42#8) enc = some (0x01C20921#32, []) := by decide
theorem test_encByte_writes :
    encAfter (.encByte 0x41#8) { enc with nf := 260#13, cur := .code 65#12, pending := some 0x42#8 } =
      some (0x02420921#32, [0x11#8]) := by decide
-- P1, last row: B held after 65/9 was written
theorem test_encEnd :
    encAfter .encEnd { enc with nf := 258#13, cur := .code 65#12, pending := some 0x42#8, trie := [], pkAcc := 0#19,
                                pkCnt := 2#5 } = some (0x00020722#32, [0x08#8, 0x09#8, 0x08#8]) := by decide
-- 44_encoder.md R188, empty input: the stream goes on with 03 02
theorem test_encEnd_empty :
    encAfter .encEnd { enc with nf := 258#13, cur := .root, pending := none, trie := [], pkAcc := 1#19, pkCnt := 1#5 } =
      some (0x00020522#32, [0x03#8, 0x02#8]) := by decide
-- 44_encoder.md R186, example: 258/9 is written above the 3 bits held, value 1: 258 * 8 + 1 = 0x811
theorem test_encStep :
    (after (exec (.encStep 0x42#8 (.byte 0x41#8)) (withE { enc with cur := .code 65#12 }))).map
      (fun t => (t.enc.cur, t.enc.nf, t.enc.out.drop 3, t.enc.pkAcc)) =
      some (.code 258#12, 259#13, [0x11#8], 8#19) := by decide
-- 44_encoder.md R186, corner case 3: the literal, CLEAR/12, and the table and the run start again
theorem test_encStep_clears :
    (after (exec (.encStep 0x42#8 (.byte 0x41#8))
      (withE { enc with nf := 4094#13, width := .w12, trie := [], pkAcc := 0#19, pkCnt := 0#5 }))).map
      (fun t => (t.enc.cur, t.enc.nf, t.enc.width, t.enc.out.drop 3)) =
      some (.root, 258#13, .w9, [0x42#8, 0x00#8, 0x10#8]) := by decide

/-! ## The decoder's commands -/

-- 45_decoder.md R214, example
theorem test_decStart : decAfter .decStart dec = some (0x00020521#32, 0#32, []) := by decide
-- P3, seventh row; P4, the code 260 at next free code 258
theorem test_decByte : decAfter (.decByte 0x48#8) dec = some (0x02020922#32, 0x00019102#32, [0x41#8, 0x42#8]) := by
  decide
theorem test_decByte_corrupt :
    decAfter (.decByte 0x0C#8) { dec with nf := 258#13, prev := some ⟨0x41#8, []⟩, tab := [], upAcc := 4#19,
                                          upCnt := 6#5 } = some (0x02820526#32, 0x00019104#32, []) := by decide
-- P6, sixth row, and last row
theorem test_decEnd :
    decAfter .decEnd { dec with nf := 258#13, tab := [], upCnt := 6#5, last := ⟨65#12, 9#4, true⟩ } =
      some (0x03020536#32, 0x00019041#32, []) := by decide
theorem test_decEnd_done : after (exec .decEnd (withD { dec with state := .done })) =
    some (withD { dec with state := .done }) := by decide

/-! ## Reserved tokens (95_test_vectors.md P4 and P5) -/

theorem test_reservedOp3 : why (exec (.reservedOp3 .enc 0xFF#8) mid) = some .reservedToken := by decide
theorem test_reservedEndData : why (exec (.reservedEndData .enc 1#8) mid) = some .reservedToken := by decide
theorem test_reservedStartData : why (exec (.reservedStartData .dec 1#8) mid) = some .reservedToken := by decide

/-! ## Wire codes (45_decoder.md R219 to R226, examples; 95_test_vectors.md 1.1) -/

theorem test_eod : (after (exec .eod mid)).map (·.dec.state) = some .done := by decide
theorem test_clear : (after (exec .clear mid)).map (fun t => (t.dec.state, t.dec.nf, t.dec.prev)) =
    some (.awaitFirst, 258#13, none) := by decide
theorem test_litFirst : (after (exec (.litFirst 65#12) (withD decFirst))).map
    (fun t => (t.dec.state, t.dec.nf, t.dec.prev, t.dec.out)) =
    some (.steady, 258#13, some ⟨0x41#8, []⟩, [0x41#8]) := by decide
theorem test_invalidFirst : (after (exec (.invalidFirst 258#12) (withD decFirst))).map
    (fun t => (t.dec.state, t.dec.fault, t.dec.cause, t.dec.out)) =
    some (.awaitFirst, .corruptStream, .invalidCode, []) := by decide
-- 1.1 row 3, row 4 and row 5
theorem test_lit : (after (exec (.lit 66#12)
    (withD { dec with nf := 258#13, prev := some ⟨0x41#8, []⟩, tab := [], out := [] }))).map
    (fun t => (t.dec.tab, t.dec.prev, t.dec.out)) =
    some ([(258, ⟨0x41#8, [0x42#8]⟩)], some ⟨0x42#8, []⟩, [0x42#8]) := by decide
theorem test_dict : (after (exec (.dict 258#12) mid)).map (fun t => (t.dec.nf, t.dec.tab.drop 1, t.dec.prev)) =
    some (260#13, [(259, ⟨0x42#8, [0x41#8]⟩)], some ⟨0x41#8, [0x42#8]⟩) := by decide
theorem test_kwkwk : (after (exec (.kwkwk 260#12)
    (withD { dec with nf := 260#13, prev := some ⟨0x41#8, [0x42#8]⟩, out := [] }))).map
    (fun t => (tabRead t.dec.tab 260#12, t.dec.nf, t.dec.out)) =
    some (.bytes ⟨0x41#8, [0x42#8, 0x41#8]⟩, 261#13, [0x41#8, 0x42#8, 0x41#8]) := by decide
theorem test_invalid : (after (exec (.invalid 260#12) mid)).map (fun t => (t.dec.state, t.dec.fault, t.dec.prev)) =
    some (.steady, .corruptStream, some ⟨0x42#8, []⟩) := by decide
-- 45_decoder.md R218, example: 260 in STEADY at next free code 260 is recorded and runs as KWKWK
theorem test_decExec : (after (exec (.decExec 260#12 .w9) (withD { dec with nf := 260#13 }))).map
    (fun t => (decInfo t.dec, t.dec.prev)) = some (0x00019104#32, some ⟨0x42#8, [0x42#8]⟩) := by decide
-- 45_decoder.md R226, example; 60_exceptions.md R244: emitted, then the fault
theorem test_steadyTail : (after (exec (.steadyTail ⟨0x41#8, []⟩)
    (withD { dec with nf := 258#13, prev := some ⟨0x41#8, []⟩, tab := [] }))).map
    (fun t => (t.dec.tab, t.dec.prev)) = some ([(258, ⟨0x41#8, [0x41#8]⟩)], some ⟨0x41#8, []⟩) := by decide
theorem test_steadyTail_full : (after (exec (.steadyTail ⟨0x41#8, []⟩) (withD { dec with nf := 4096#13 }))).map
    (fun t => (t.dec.fault, t.dec.prev, t.dec.out)) =
    some (.tableOverflow, some ⟨0x42#8, []⟩, [0x41#8, 0x42#8, 0x41#8]) := by decide

/-! ## The Bit Channel (40_bit_channel.md, examples; 95_test_vectors.md 2.1) -/

theorem test_put : (after (exec (.put 257#12 .w9) (withE { enc with pkAcc := 1#19, pkCnt := 1#5 }))).map
    (fun t => (t.enc.out.drop 3, t.enc.pkAcc, t.enc.pkCnt)) = some ([0x03#8], 2#19, 2#5) := by decide
theorem test_put_width_12 : (after (exec (.put 0xABC#12 .w12) (withE { enc with pkAcc := 0#19, pkCnt := 0#5 }))).map
    (fun t => (t.enc.out.drop 3, t.enc.pkAcc, t.enc.pkCnt)) = some ([0xBC#8], 0x0A#19, 4#5) := by decide
theorem test_flush : (after (exec .flush (withE { enc with pkAcc := 2#19, pkCnt := 2#5 }))).map
    (fun t => (t.enc.out.drop 3, t.enc.pkAcc, t.enc.pkCnt)) = some ([0x02#8], 0#19, 0#5) := by decide
theorem test_flush_empty : (after (exec .flush (withE { enc with pkAcc := 0#19, pkCnt := 0#5 }))).map
    (fun t => t.enc.out.drop 3) = some [] := by decide
theorem test_fill : (after (exec (.fill 0x83#8) (withD { dec with upAcc := 0#19, upCnt := 8#5 }))).map
    (fun t => (t.dec.upAcc, t.dec.upCnt)) = some (0x8300#19, 16#5) := by decide
theorem test_get : (after (exec (.get .w9) (withD { dec with upAcc := 0x8300#19, upCnt := 16#5 }))).map
    (fun t => (t.returned, t.dec.upAcc, t.dec.upCnt)) = some (some (.code 256#12), 0x41#19, 7#5) := by decide

/-! ## Code table (41_code_table.md R120, R124, examples) -/

theorem test_tableReset : (after (exec (.tableReset .enc) (withE { enc with nf := 4095#13, width := .w12 }))).map
    (fun t => (t.enc.nf, t.enc.width, trieChild t.enc.trie (.code 65#12) 0x42#8)) =
    some (258#13, .w9, none) := by decide
theorem test_tableReset_dec : (after (exec (.tableReset .dec) mid)).map
    (fun t => (t.dec.nf, t.dec.width, tabRead t.dec.tab 257#12, t.dec.prev)) =
    some (258#13, .w9, .control, some ⟨0x42#8, []⟩) := by decide
-- the slots 509 and 510: the width becomes 10 with the second
theorem test_addEntry : (after (exec (.addEntry (.sequence ⟨0#8, []⟩)) (withD { dec with nf := 509#13 }))).map
    (fun t => (t.returned, t.dec.nf, t.dec.width)) = some (some (.slot 509#12), 510#13, .w9) := by decide
theorem test_addEntry_widens : (after (exec (.addEntry (.sequence ⟨0#8, []⟩)) (withD { dec with nf := 510#13 }))).map
    (fun t => (t.dec.nf, t.dec.width)) = some (511#13, .w10) := by decide

/-! ## The dictionaries (42_encode_dictionary.md and 43_decode_dictionary.md, examples) -/

theorem test_childNodeB_root : returns (.childNodeB .root 0x41#8) mid = some (.child (some 65#12)) := by decide
theorem test_childNodeB_missing : returns (.childNodeB (.code 66#12) 0x42#8) mid = some (.child none) := by decide
theorem test_childNodeS : returns (.childNodeS .root [0x41#8, 0x42#8]) mid = some (.node (some (.code 258#12))) := by
  decide
theorem test_childNodeS_missing : returns (.childNodeS .root [0x41#8, 0x42#8, 0x41#8]) mid = some (.node none) := by
  decide
theorem test_getNode : returns (.getNode [0x41#8]) mid = some (.node (some (.code 65#12))) := by decide
theorem test_getNode_empty : returns (.getNode []) mid = some (.node (some .root)) := by decide
theorem test_visit : (after (exec (.visit 0x42#8) (withE { enc with nf := 258#13, cur := .code 65#12, trie := [] }))).map
    (fun t => (t.returned, t.enc.trie, t.enc.cur, t.enc.nf)) =
    some (some (.grew true), [(256 * 65 + 66, 258#12)], .code 66#12, 259#13) := by decide
theorem test_visit_known : (after (exec (.visit 0x42#8) (withE { enc with cur := .code 65#12 }))).map
    (fun t => (t.returned, t.enc.cur, t.enc.nf)) = some (some (.grew false), .code 258#12, 259#13) := by decide
theorem test_bytesFor : returns (.bytesFor 258#12) mid = some (.bytes ⟨0x41#8, [0x42#8]⟩) := by decide
theorem test_bytesFor_literal : returns (.bytesFor 0x42#12) mid = some (.bytes ⟨0x42#8, []⟩) := by decide
theorem test_addDec : (after (exec (.addDec ⟨0x41#8, []⟩ ⟨0x42#8, []⟩) (withD { dec with nf := 258#13, tab := [] }))).map
    (fun t => (t.dec.tab, t.dec.nf)) = some ([(258, ⟨0x41#8, [0x42#8]⟩)], 259#13) := by decide

/-! ## Witnesses: states and operands that meet the hypotheses of the statements, clause by clause

`witness_<clause>` names the statement it is for in the comment above it. -/

/-- `mid` is a state between two commands, both units in the middle of an operation, each with one entry learned. -/
theorem mid_trie_holds : TrieHolds 259#13 enc.trie := by
  have key : ∀ (n : Code) (b : Byte) (c : Code), trieChild enc.trie (.code n) b = some c →
      n = 65#12 ∧ b = 66#8 ∧ c = 258#12 := by
    intro n b c h
    have hb := b.isLt
    simp only [trieChild, enc, Memory.get, edgeAddress] at h
    split at h
    · rename_i he
      refine ⟨BitVec.eq_of_toNat_eq ?_, BitVec.eq_of_toNat_eq ?_, ?_⟩
      · show n.toNat = 65
        omega
      · show b.toNat = 66
        omega
      · exact (Option.some.inj h).symm
    · cases h
  refine ⟨?_, ?_, ?_⟩
  · intro c h1 h2
    refine ⟨65#12, 66#8, ?_⟩
    have : c = 258#12 := BitVec.eq_of_toNat_eq (by simp at h2 ⊢; omega)
    rw [this]
    decide
  · intro n b c h
    obtain ⟨rfl, rfl, rfl⟩ := key n b c h
    exact ⟨by decide, by decide, by decide, Or.inl (by decide)⟩
  · intro n n' b b' c h h'
    obtain ⟨rfl, rfl, -⟩ := key n b c h
    obtain ⟨rfl, rfl, -⟩ := key n' b' c h'
    exact ⟨rfl, rfl⟩

theorem enc_inv : EncInv enc where
  noFault := rfl
  width := by decide
  freeLow := by decide
  freeHigh := by decide
  freeAccumulating := by decide
  held := by decide
  padding := by decide
  canonical := by decide
  trie := fun _ => mid_trie_holds
  current := fun _ c h => by
    have : c = 66#12 := (NodeId.code.inj h).symm
    rw [this]
    exact Or.inl (by decide)
  lookahead := by decide

theorem dec_inv : DecInv dec where
  width := by decide
  freeLow := by decide
  freeHigh := by decide
  held := by decide
  incomplete := by decide
  padding := by decide
  canonical := by decide
  table := fun _ c h1 h2 => by
    have : c = 258#12 := BitVec.eq_of_toNat_eq (by simp [dec] at h2 ⊢; omega)
    rw [this]
    exact ⟨⟨0x41#8, [0x42#8]⟩, by decide, by decide, by decide⟩
  noPrevious := by decide
  previous := fun _ => ⟨⟨0x42#8, []⟩, by decide, by decide⟩
  fresh := by decide
  idleNoFault := by decide
  cause := by decide

theorem decFirst_inv : DecInv decFirst where
  width := by decide
  freeLow := by decide
  freeHigh := by decide
  held := by decide
  incomplete := by decide
  padding := by decide
  canonical := by decide
  table := fun _ c h1 h2 => absurd h1 (by simp [decFirst] at h2; omega)
  noPrevious := by decide
  previous := by decide
  fresh := by decide
  idleNoFault := by decide
  cause := by decide

theorem mid_inv : Inv mid := ⟨enc_inv, dec_inv⟩

/-- `mid` with commands waiting meets the invariant too. -/
theorem mid_inv_input (inputs : List Input) : Inv (mid.withInput inputs) := ⟨enc_inv, dec_inv⟩

-- EveryStepKeepsTheInvariant, EncTableOverflowIsUnreachable, OutputsAreAppendOnlyAndCommandsTakenInOrder,
-- AFaultLastsUntilStartOrReset (step hypothesis)
theorem witness_inv_step : ∃ t, Inv (mid.withInput [byteToken .enc 0x42#8]) ∧
    step (mid.withInput [byteToken .enc 0x42#8]) = .next t := ⟨_, mid_inv_input _, rfl⟩
-- StepRunsTheDecodedInstruction and HardwareResetPutsBothUnitsInIdle, the three forms of the input queue
theorem witness_input_token : (mid.withInput [.token .dec 0x048#10]).input = .token .dec 0x048#10 :: [] := rfl
theorem witness_input_rst : (mid.withInput [.rst, .token .enc 0x200#10]).input = .rst :: [.token .enc 0x200#10] := rfl
theorem witness_input_empty : mid.input = [] := rfl
-- OnlyTheCommandsTheSpecRefusesHaveNoStep: a state that meets the invariant and steps, and one for each refusal
theorem witness_refused_reserved : Inv (mid.withInput [.token .enc 0x101#10]) ∧
    step (mid.withInput [.token .enc 0x101#10]) = .refused .reservedToken := ⟨mid_inv_input _, rfl⟩
theorem witness_refused_decFaulted : ({ dec with fault := .corruptStream } : Dec).fault ≠ .none ∧
    step ((withD { dec with fault := .corruptStream }).withInput [endToken .dec]) = .refused .decFaulted := ⟨by decide, rfl⟩
-- EveryInstructionKeepsTheMemoriesCanonical
theorem witness_wf : Memory.wf mid = true ∧ ∃ t, exec (.visit 0x41#8) mid = .next t := ⟨by decide, _, rfl⟩
-- TokensDecodeAndEncodeAgree, second clause
theorem witness_token : (Instr.reservedEndData .dec 255#8).wellFormed = true ∧
    encode (.reservedEndData .dec 255#8) = some (.token .dec 0x1FF#10) := by decide
-- EveryCodeHasExactlyOneClass, at the boundary next free codes and for a code of each side of them
theorem witness_class_first : (DecState.awaitFirst = .awaitFirst ∨ DecState.awaitFirst = .steady) ∧
    258 ≤ (258#13 : FreeCode).toNat ∧ encode (.invalidFirst 258#12) = some (.code 258#12) ∧
    (Instr.invalidFirst 258#12).occursIn .awaitFirst 258#13 := ⟨Or.inl rfl, by decide, by decide, rfl, by decide⟩
theorem witness_class_dict : encode (.dict 4095#12) = some (.code 4095#12) ∧
    (Instr.dict 4095#12).occursIn .steady 4096#13 := ⟨by decide, rfl, by decide, by decide⟩
theorem witness_class_kwkwk : encode (.kwkwk 258#12) = some (.code 258#12) ∧
    (Instr.kwkwk 258#12).occursIn .steady 258#13 := ⟨by decide, rfl, by decide, by decide⟩
theorem witness_class_invalid : encode (.invalid 259#12) = some (.code 259#12) ∧
    (Instr.invalid 259#12).occursIn .steady 258#13 := ⟨by decide, rfl, by decide, by decide⟩
-- StatusWordsShowTheUnits, the PK_BITS clause at its largest count
theorem witness_pk_bits : ({ enc with pkCnt := 7#5, pkAcc := 127#19 } : Enc).pkCnt.toNat ≤ 7 := by decide
-- PutSendsTheCodesBitsLowBitFirst: the largest code of the smallest and of the largest width, with 7 bits held
theorem witness_put_w9 : (511#12 : Code).toNat < 2 ^ CodeWidth.w9.bits ∧ (7#5 : BitCount).toNat ≤ 7 ∧
    (127#19 : Accumulator).toNat < 2 ^ (7#5 : BitCount).toNat := by decide
theorem witness_put_w12 : (4095#12 : Code).toNat < 2 ^ CodeWidth.w12.bits ∧ (0#5 : BitCount).toNat ≤ 7 ∧
    (0#19 : Accumulator).toNat < 2 ^ (0#5 : BitCount).toNat := by decide
-- FlushPadsTheLastByteWithZeros, with bits held (`enc` holds 3) and with none
theorem witness_flush : mid.enc.pkCnt.toNat ≤ 7 ∧ mid.enc.pkAcc.toNat < 2 ^ mid.enc.pkCnt.toNat ∧ mid.enc.pkCnt ≠ 0#5 := by
  decide
theorem witness_flush_empty : State.reset.enc.pkCnt.toNat ≤ 7 ∧
    State.reset.enc.pkAcc.toNat < 2 ^ State.reset.enc.pkCnt.toNat ∧ State.reset.enc.pkCnt = 0#5 := by decide
-- FillHoldsTheBytesBitsAfterThoseHeld, with the most bits held
theorem witness_fill : (11#5 : BitCount).toNat ≤ 11 ∧ (2047#19 : Accumulator).toNat < 2 ^ (11#5 : BitCount).toNat := by
  decide
-- GetTakesTheFirstBitsHeldAsACode, with exactly the bits of the code held
theorem witness_get : CodeWidth.w12.bits ≤ (12#5 : BitCount).toNat := by decide
-- UnpackingGivesBackWhatWasPacked (95_test_vectors.md 2.1, a width change in a byte)
theorem witness_unpacking : ∀ c ∈ [((0x155#12 : Code), CodeWidth.w9), (0x2AA#12, .w10)], c.1.toNat < 2 ^ c.2.bits := by
  decide
-- WidthFunctionFollowsTheThresholds: both sides of each threshold, and the ends of the last clause
theorem witness_widths : 511 < 512 ∧ (512 ≤ 512 ∧ 512 < 1024) ∧ (512 ≤ 1023 ∧ 1023 < 1024) ∧ (1024 ≤ 1024 ∧ 1024 < 2048) ∧
    (1024 ≤ 2047 ∧ 2047 < 2048) ∧ 2048 ≤ 2048 ∧ (258 ≤ 258 ∧ 258 ≤ 4096) ∧ (258 ≤ 4096 ∧ 4096 ≤ 4096) := by decide
-- AddEntryAssignsTheNextFreeCode, AddDecLearnsThePreviousAndOneByte and SteadyTailEmitsLearnsAndRemembers: the last slot,
-- the first slot, and the full table
theorem witness_last_slot : (4095#13 : FreeCode).toNat < 4096 ∧ 258 ≤ (4095#13 : FreeCode).toNat := by decide
theorem witness_first_slot : 258 ≤ (258#13 : FreeCode).toNat ∧ (258#13 : FreeCode).toNat < 4096 := by decide
theorem witness_full : (withD { dec with nf := 4096#13 }).dec.nf.toNat = 4096 ∧
    (withE { enc with nf := 4096#13 }).enc.nf.toNat = 4096 := by decide
theorem witness_steadyTail : mid.dec.prev = some ⟨0x42#8, []⟩ ∧ 258 ≤ mid.dec.nf.toNat ∧ mid.dec.nf.toNat < 4096 ∧
    (withD { dec with nf := 4096#13 }).dec.prev = some ⟨0x42#8, []⟩ := by decide
-- ChildNodeWalksASequence: a walk that ends nowhere and one that ends at a node
theorem witness_walks : exec (.childNodeS .root [0x42#8, 0x42#8]) mid =
      .next { mid with returned := some (.node none) } ∧
    exec (.childNodeS .root [0x41#8]) mid = .next { mid with returned := some (.node (some (.code 65#12))) } :=
  ⟨rfl, rfl⟩
-- VisitExtendsTheMatchOrLearnsTheRun: a known edge, an unknown one, and an unknown one in a full table
theorem witness_visit_known : trieChild enc.trie (.code 65#12) 0x42#8 = some 258#12 := by decide
theorem witness_visit_new : mid.enc.cur = .code 66#12 ∧ trieChild mid.enc.trie (.code 66#12) 0x41#8 = none ∧
    mid.enc.nf.toNat < 4096 := by decide
theorem witness_visit_full : trieChild (withE { enc with nf := 4096#13 }).enc.trie
    (withE { enc with nf := 4096#13 }).enc.cur 0x41#8 = none ∧ (withE { enc with nf := 4096#13 }).enc.nf.toNat = 4096 := by
  decide
-- EveryNodeHasExactlyOnePath: a literal and the node learned
theorem witness_nodes : EncInv enc ∧ enc.state ≠ .idle ∧ IsNode enc.nf 255#12 ∧ IsNode enc.nf 258#12 :=
  ⟨enc_inv, by decide, Or.inl (by decide), Or.inr (by decide)⟩
-- EncByteHoldsTheByteAndProcessesTheOneBefore, EncByteCompletesWhileAccumulating, EncEndCompletesWhileAccumulating:
-- nothing held, a byte held, a byte held whose step faults, and the refused states
theorem witness_encByte_first : ({ enc with pending := none } : Enc).state = .accumulating ∧
    ({ enc with pending := none } : Enc).fault = .none ∧ ({ enc with pending := none } : Enc).pending = none := by decide
theorem witness_encByte_next : mid.enc.state = .accumulating ∧ mid.enc.fault = .none ∧ mid.enc.pending = some 0x41#8 ∧
    mid.enc.nf.toNat ≠ 4096 ∧
    ∃ t, exec (.encStep 0x41#8 (.byte 0x42#8)) mid = .next t ∧ t.enc.fault = .none :=
  ⟨rfl, rfl, rfl, by decide, _, rfl, rfl⟩
theorem witness_encByte_fault : ∃ t, exec (.encStep 0x41#8 (.byte 0x42#8)) (withE { enc with nf := 4096#13 }) = .next t ∧
    t.enc.fault ≠ .none := ⟨_, rfl, by decide⟩
theorem witness_enc_refused : State.reset.enc.state ≠ .accumulating ∧
    ({ enc with state := .eof } : Enc).state ≠ .accumulating ∧
    ({ enc with fault := .tableOverflow } : Enc).fault ≠ .none := by decide
-- EncStepWritesTheMatchThatCannotExtend: VISIT returns and the match can, or cannot, go on; it brings the next free code to
-- 4095; it faults
theorem witness_encStep_writes : ∃ s1, exec (.visit 0x41#8) mid = .next s1 ∧ mid.enc.fault = .none ∧ s1.enc.fault = .none ∧
    s1.enc.cur = .code 65#12 ∧ s1.enc.nf.toNat ≠ 4095 ∧ trieChild s1.enc.trie (.code 65#12) 0x41#8 = none ∧
    trieChild s1.enc.trie (.code 65#12) 0x42#8 ≠ none :=
  ⟨_, rfl, rfl, rfl, rfl, by decide, by decide, by decide⟩
theorem witness_encStep_clears : ∃ s1, exec (.visit 0x41#8) (withE { enc with nf := 4094#13, width := .w12 }) = .next s1 ∧
    s1.enc.fault = .none ∧ s1.enc.nf.toNat = 4095 := ⟨_, rfl, rfl, by decide⟩
theorem witness_encStep_fault : ∃ s1, exec (.visit 0x41#8) (withE { enc with nf := 4096#13 }) = .next s1 ∧
    s1.enc.fault ≠ .none := ⟨_, rfl, by decide⟩
-- EncEndClosesTheStream: nothing held, a byte held, at a width threshold, and a fault on the way
theorem witness_encEnd_empty : ({ enc with pending := none } : Enc).pending = none ∧
    ({ enc with pending := none } : Enc).width = widthFor 259 ∧ enc.pkCnt.toNat ≤ 7 ∧
    enc.pkAcc.toNat < 2 ^ enc.pkCnt.toNat := by decide
theorem witness_encEnd_threshold :
    ∃ s1, exec (.encStep 0x41#8 .endOfData) (withE { enc with nf := 510#13 }) = .next s1 ∧ s1.enc.fault = .none ∧
      s1.enc.nf.toNat = 511 ∧ s1.enc.width = widthFor s1.enc.nf.toNat ∧ s1.enc.pkCnt.toNat ≤ 7 ∧
      s1.enc.pkAcc.toNat < 2 ^ s1.enc.pkCnt.toNat :=
  ⟨_, rfl, rfl, by decide, by decide, by decide, by decide⟩
theorem witness_encEnd_fault : ∃ s1, exec (.encStep 0x41#8 .endOfData) (withE { enc with nf := 4096#13 }) = .next s1 ∧
    s1.enc.fault ≠ .none := ⟨_, rfl, by decide⟩
-- EncRefusesExactlyWhatTheSpecLists, DecRefusesExactlyWhatTheSpecLists: a reserved token of each kind
theorem witness_reserved : (0x300#10 : Token).toNat / 256 = 3 ∧
    ((0x101#10 : Token).toNat / 256 = 1 ∧ (0x101#10 : Token).toNat % 256 ≠ 0) ∧
    ((0x2FF#10 : Token).toNat / 256 = 2 ∧ (0x2FF#10 : Token).toNat % 256 ≠ 0) := by decide
-- DecByteExecutesTheCodeItCompletes: DONE; a byte that completes no code (after DEC_START) and one that completes the code
-- exactly, each with the most or fewest bits held; refused states
theorem witness_decByte_waits : ({ decFirst with upAcc := 0#19, upCnt := 0#5 } : Dec).fault = .none ∧
    (0#5 : BitCount).toNat + 8 < decFirst.width.bits ∧ (0#5 : BitCount).toNat < decFirst.width.bits := by decide
theorem witness_decByte_completes : mid.dec.state = .steady ∧ mid.dec.fault = .none ∧
    mid.dec.upCnt.toNat < mid.dec.width.bits ∧ mid.dec.width.bits ≤ mid.dec.upCnt.toNat + 8 ∧
    (1#5 : BitCount).toNat < mid.dec.width.bits ∧ mid.dec.width.bits ≤ (1#5 : BitCount).toNat + 8 := by decide
theorem witness_dec_done : ({ dec with state := .done } : Dec).state = .done ∧
    ({ dec with state := .done } : Dec).fault = .none := by decide
theorem witness_dec_refused : State.reset.dec.state = .idle ∧ ({ dec with fault := .tableOverflow } : Dec).fault ≠ .none := by
  decide
-- DecByteCompletesWhileOperating, DecExecCompletesWhereCodesExecute
theorem witness_decByte_inv : DecInv dec ∧ dec.state ≠ .idle ∧ dec.fault = .none ∧ dec.state = .steady :=
  ⟨dec_inv, by decide, rfl, rfl⟩
theorem witness_decExec_inv_first : DecInv decFirst ∧ decFirst.fault = .none ∧ decFirst.state = .awaitFirst :=
  ⟨decFirst_inv, rfl, rfl⟩
-- DecExecRecordsTheCodeAndRunsItsClass
theorem witness_decExec : mid.dec.fault = .none ∧
    decodeCode mid.dec.state mid.dec.nf 259#12 = .ok (.kwkwk 259#12) := by decide
-- EodEndsTheStream, ClearResetsTheTableAndAwaitsAFirstCode, DecEndBeforeEodIsATruncatedStream, FirstLiteralIsEmitted...
theorem witness_dec_executes : (mid.dec.fault = .none ∧ mid.dec.state = .steady) ∧
    ((withD decFirst).dec.fault = .none ∧ (withD decFirst).dec.state = .awaitFirst ∧ (255#12 : Code).toNat < 256) := by
  decide
-- LiteralResolvesToItsByte, DictionaryCodeResolvesFromItsSlot, KwkwkBuildsItsSequenceFromThePrevious,
-- BytesForReturnsTheSequenceOfACode: the largest literal, the last code assigned, the next free code
theorem witness_steady_codes : mid.dec.prev = some ⟨0x42#8, []⟩ ∧ (255#12 : Code).toNat < 256 ∧
    (258 ≤ (258#12 : Code).toNat ∧ (258#12 : Code).toNat < mid.dec.nf.toNat ∧
      tabRead mid.dec.tab 258#12 = .bytes ⟨0x41#8, [0x42#8]⟩) ∧ (259#12 : Code).toNat = mid.dec.nf.toNat := by decide
-- InvalidCodesTakeTheCorruptStreamFault: one above the next free code in STEADY; 258 in AWAIT_FIRST
theorem witness_invalid_codes : (258 ≤ (260#12 : Code).toNat ∧ mid.dec.nf.toNat < (260#12 : Code).toNat ∧
      mid.dec.state = .steady) ∧ (258 ≤ (258#12 : Code).toNat ∧ decFirst.state = .awaitFirst ∧ decFirst.fault = .none) := by
  decide
-- EncFieldsChangeOnlyByTheirWriters, DecFieldsChangeOnlyByTheirWriters: an instruction that changes most fields
theorem witness_frame_enc : ∃ t, exec .encEnd mid = .next t ∧ t.enc.state ≠ mid.enc.state ∧
    t.enc.pending ≠ mid.enc.pending ∧ t.enc.cur ≠ mid.enc.cur ∧ t.enc.nf ≠ mid.enc.nf ∧ t.enc.out ≠ mid.enc.out :=
  ⟨_, rfl, by decide, by decide, by decide, by decide, by decide⟩
theorem witness_frame_dec : ∃ t, exec (.decByte 0x48#8) mid = .next t ∧ t.dec.nf ≠ mid.dec.nf ∧
    t.dec.prev ≠ mid.dec.prev ∧ t.dec.upCnt ≠ mid.dec.upCnt ∧ t.dec.last ≠ mid.dec.last ∧ t.dec.out ≠ mid.dec.out :=
  ⟨_, rfl, by decide, by decide, by decide, by decide, by decide⟩
theorem witness_frame_fault : ∃ t, exec .decEnd mid = .next t ∧ t.dec.fault ≠ mid.dec.fault ∧
    t.dec.cause ≠ mid.dec.cause := ⟨_, rfl, by decide, by decide⟩
-- AFaultLastsUntilStartOrReset: a faulted DEC, ENC's command first; and START first
theorem witness_fault_lasts : ∃ t,
    step ((withD { dec with fault := .corruptStream }).withInput [byteToken .enc 0x42#8]) = .next t ∧
      ((withD { dec with fault := .corruptStream }).withInput [byteToken .enc 0x42#8]).dec.fault ≠ .none ∧
      ((withD { dec with fault := .corruptStream }).withInput [byteToken .enc 0x42#8]).input.head? ≠
        some (startToken .dec) ∧
      ((withD { dec with fault := .corruptStream }).withInput [byteToken .enc 0x42#8]).input.head? ≠ some .rst :=
  ⟨_, rfl, by decide, by decide, by decide⟩
theorem witness_fault_lasts_enc : ∃ t,
    step ((withE { enc with fault := .tableOverflow }).withInput [byteToken .dec 0x42#8]) = .next t ∧
      ((withE { enc with fault := .tableOverflow }).withInput [byteToken .dec 0x42#8]).enc.fault ≠ .none :=
  ⟨_, rfl, by decide⟩
theorem witness_fault_cleared : ∃ t, step ((withD { dec with fault := .corruptStream }).withInput [startToken .dec]) = .next t ∧
    ((withD { dec with fault := .corruptStream }).withInput [startToken .dec]).input.head? = some (startToken .dec) :=
  ⟨_, rfl, by decide⟩
-- OutsideTheirPreconditionsMicroOperationsAreRefused: one bit too few; the control codes and the next free code; a
-- dictionary code in AWAIT_FIRST, and a code in a fault
theorem witness_outside : (8#5 : BitCount).toNat < CodeWidth.w9.bits ∧ (256#12 : Code).toNat = 256 ∧
    (258 ≤ (259#12 : Code).toNat ∧ mid.dec.nf.toNat ≤ (259#12 : Code).toNat) ∧ mid.enc.nf.toNat ≠ 4096 ∧
    encode (.dict 258#12) = some (.code 258#12) ∧ ({ dec with fault := .corruptStream } : Dec).fault ≠ .none := by decide
theorem witness_outside_class : encode (.dict 258#12) = some (.code 258#12) ∧
    ¬ (Instr.dict 258#12).occursIn decFirst.state decFirst.nf := ⟨by decide, fun h => by cases h.1⟩

end Sys2Proof.Tests
end

section
/-! What one step of the machine can do: it takes the first waiting input, and a token is one of three commands of its
unit (30_encoding.md R71) or is refused. Statements about every step are proved command by command from here. -/

namespace Sys2Proof.Machine

/-! ## Taking an input -/

theorem step_idle {s : State} (h : s.input = []) : step s = .next s := by
  simp [step, stepInput, h]

theorem step_token {s : State} {u : UnitId} {tok : Token} {rest : List Input} (h : s.input = .token u tok :: rest) :
    step s = exec (decodeToken u tok) (s.withInput rest) := by
  simp [step, stepInput, takeInput, h]

theorem step_rst {s : State} {rest : List Input} (h : s.input = .rst :: rest) :
    step s = .next (hardReset (s.withInput rest)) := by
  simp [step, stepInput, takeInput, h]

/-! ## The commands of a port -/

/-- The operation ends the step with its unit in state `u`: it returned there, or it raised a fault there. -/
def Flow.Leaves {σ : Type} (x : Flow σ Unit) (u : σ) : Prop := x = .ok () u ∨ x = .raised u

@[simp] theorem ok_leaves {σ : Type} {u v : σ} : (Flow.ok () u).Leaves v ↔ v = u := by
  simp [Flow.Leaves, eq_comm]

@[simp] theorem raised_leaves {σ : Type} {u v : σ} : (Flow.raised u : Flow σ Unit).Leaves v ↔ v = u := by
  simp [Flow.Leaves, eq_comm]

@[simp] theorem stuck_not_leaves {σ : Type} {f : Fault} {v : σ} : ¬ (Flow.stuck f : Flow σ Unit).Leaves v := by
  simp [Flow.Leaves]

@[simp] theorem refuse_not_leaves {σ : Type} {r : Refusal} {v : σ} : ¬ (Flow.refuse r : Flow σ Unit).Leaves v := by
  simp [Flow.Leaves]

/-- What a token other than a reserved one commands its unit to do (30_encoding.md R71). -/
inductive Command where
  | byte (x : Byte)
  | finish
  | start

/-- The operation of ENC for a command (44_encoder.md R184, R185, R188). -/
def encCommand : Command → Enc → Flow Enc Unit
  | .byte x => takeDataByte x
  | .finish => endEncoding
  | .start => fun e => .ok () (startEncoding e)

/-- The operation of DEC for a command (45_decoder.md R214 to R216). -/
def decCommand : Command → Dec → Flow Dec Unit
  | .byte x => takeWireByte x
  | .finish => endDecoding
  | .start => fun d => .ok () (startDecoding d)

/-- A command run by unit `u`, as a step of the machine. -/
def runCommand (u : UnitId) (c : Command) (s : State) : Host.Outcome State Fault Refusal :=
  match u with
  | .enc => onEnc (encCommand c) s
  | .dec => onDec (decCommand c) s

/-- A token is a command of the unit of its port, or reserved and refused (30_encoding.md R71, R73). -/
theorem exec_decodeToken (u : UnitId) (tok : Token) (s : State) :
    (∃ c, exec (decodeToken u tok) s = runCommand u c s) ∨ exec (decodeToken u tok) s = .refused .reservedToken := by
  unfold decodeToken
  split
  · exact Or.inl ⟨.byte (tokenData tok), by cases u <;> rfl⟩
  · split
    · split
      · exact Or.inl ⟨.finish, by cases u <;> rfl⟩
      · exact Or.inr rfl
    · split
      · split
        · exact Or.inl ⟨.start, by cases u <;> rfl⟩
        · exact Or.inr rfl
      · exact Or.inr rfl

/-- Every way a step can answer a next state: nothing was waiting, or `rst` was taken, or one unit ran a command and the
other is as it was. -/
theorem step_next_cases {s t : State} (h : step s = .next t) :
    (s.input = [] ∧ t = s) ∨
    ∃ x rest, s.input = x :: rest ∧
      (t = hardReset (s.withInput rest) ∨
      (∃ c e, (encCommand c s.enc).Leaves e ∧ t = (s.withInput rest).withEnc e) ∨
      ∃ c d, (decCommand c s.dec).Leaves d ∧ t = (s.withInput rest).withDec d) := by
  cases hin : s.input with
  | nil =>
    rw [step_idle hin] at h
    cases h
    exact Or.inl ⟨rfl, rfl⟩
  | cons x rest =>
    refine Or.inr ⟨x, rest, rfl, ?_⟩
    cases x with
    | rst =>
      rw [step_rst hin] at h
      cases h
      exact Or.inl rfl
    | token u tok =>
      rw [step_token hin] at h
      rcases exec_decodeToken u tok (s.withInput rest) with ⟨c, hc⟩ | hr
      · rw [hc] at h
        cases u with
        | enc => exact Or.inr (Or.inl ⟨c, onEnc_next.mp h⟩)
        | dec => exact Or.inr (Or.inr ⟨c, onDec_next.mp h⟩)
      · rw [hr] at h
        cases h

/-! ## What a command of a port leaves -/

/-- A guarded ENC command leaves a state only in ACCUMULATING without a fault, the one its body leaves (44_encoder.md
R187). -/
theorem whileAccumulating_leaves {e e' : Enc} {body : Flow Enc Unit} (h : (whileAccumulating e body).Leaves e') :
    e.state = .accumulating ∧ e.fault = .none ∧ body.Leaves e' := by
  by_cases hr : e.state ≠ .accumulating ∨ e.fault ≠ .none
  · rcases whileAccumulating_refused body hr with h' | h' <;> simp [h'] at h
  · obtain ⟨hs, hf⟩ : e.state = .accumulating ∧ e.fault = .none := by simpa using hr
    rw [whileAccumulating_runs body hs hf] at h
    exact ⟨hs, hf, h⟩

/-- A guarded DEC command leaves a state only outside IDLE without a fault, the one its body leaves (45_decoder.md
R217). -/
theorem whileOperating_leaves {d d' : Dec} {body : Flow Dec Unit} (h : (whileOperating d body).Leaves d') :
    d.state ≠ .idle ∧ d.fault = .none ∧ body.Leaves d' := by
  by_cases hr : d.state = .idle ∨ d.fault ≠ .none
  · rcases whileOperating_refused body hr with h' | h' <;> simp [h'] at h
  · obtain ⟨hs, hf⟩ : d.state ≠ .idle ∧ d.fault = .none := by simpa using hr
    rw [whileOperating_runs body hs hf] at h
    exact ⟨hs, hf, h⟩

/-- ENC_STEP raises in a full table or returns (44_encoder.md R186). -/
theorem processByte_ends (b : Byte) (la : Lookahead) (e : Enc) :
    (e.nf.toNat = 4096 ∧ processByte b la e = .raised (e.enterFault .tableOverflow)) ∨
    ∃ e1, processByte b la e = .ok () e1 := by
  rcases processByte_cases b la e with hraised | ⟨e1, g, c, -, -, ⟨-, hok⟩ | ⟨x, -, hok⟩⟩
  · exact Or.inl hraised
  · exact Or.inr ⟨_, hok⟩
  · exact Or.inr ⟨_, hok⟩

/-- ENC_BYTE holds its byte; a byte held before is processed first, and a fault there ends the command (44_encoder.md
R185). -/
theorem takeDataByte_leaves {x : Byte} {e e' : Enc} (h : (takeDataByte x e).Leaves e') :
    e.state = .accumulating ∧ e.fault = .none ∧
      ((e.pending = none ∧ e' = { e with pending := some x }) ∨
      ∃ b, e.pending = some b ∧
        ((e.nf.toNat = 4096 ∧ e' = e.enterFault .tableOverflow) ∨
        ∃ e1, processByte b (.byte x) e = .ok () e1 ∧ e' = { e1 with pending := some x })) := by
  obtain ⟨hs, hf, h⟩ := whileAccumulating_leaves h
  refine ⟨hs, hf, ?_⟩
  cases hp : e.pending with
  | none =>
    rw [hp] at h
    exact Or.inl ⟨rfl, by simpa using h⟩
  | some b =>
    rw [hp] at h
    refine Or.inr ⟨b, rfl, ?_⟩
    rcases processByte_ends b (.byte x) e with ⟨hnf, hr⟩ | ⟨e1, hok⟩
    · exact Or.inl ⟨hnf, by simpa [hr] using h⟩
    · exact Or.inr ⟨e1, hok, by simpa [hok] using h⟩

/-- ENC_END closes the stream, after the byte held, if any, has been processed as the last; a fault there ends the
command (44_encoder.md R188). -/
theorem endEncoding_leaves {e e' : Enc} (h : (endEncoding e).Leaves e') :
    e.state = .accumulating ∧ e.fault = .none ∧
      ((e.pending = none ∧ e' = closeStream e) ∨
      ∃ b, e.pending = some b ∧
        ((e.nf.toNat = 4096 ∧ e' = e.enterFault .tableOverflow) ∨
        ∃ e1, processByte b .endOfData e = .ok () e1 ∧ e' = closeStream { e1 with pending := none })) := by
  obtain ⟨hs, hf, h⟩ := whileAccumulating_leaves h
  refine ⟨hs, hf, ?_⟩
  cases hp : e.pending with
  | none =>
    rw [hp] at h
    exact Or.inl ⟨rfl, by simpa using h⟩
  | some b =>
    rw [hp] at h
    refine Or.inr ⟨b, rfl, ?_⟩
    rcases processByte_ends b .endOfData e with ⟨hnf, hr⟩ | ⟨e1, hok⟩
    · exact Or.inl ⟨hnf, by simpa [hr] using h⟩
    · exact Or.inr ⟨e1, hok, by simpa [hok] using h⟩

/-- DEC_BYTE does nothing in DONE; else the byte is held and the codes complete by then are executed (45_decoder.md
R215). -/
theorem takeWireByte_leaves {x : Byte} {d d' : Dec} (h : (takeWireByte x d).Leaves d') :
    d.state ≠ .idle ∧ d.fault = .none ∧
      ((d.state = .done ∧ d' = d) ∨ (d.state ≠ .done ∧ (takeCodes 4 (fillByte x d)).Leaves d')) := by
  obtain ⟨hs, hf, h⟩ := whileOperating_leaves h
  refine ⟨hs, hf, ?_⟩
  by_cases hd : d.state = .done
  · exact Or.inl ⟨hd, by simpa [hd] using h⟩
  · exact Or.inr ⟨hd, by simpa [hd] using h⟩

/-- DEC_END does nothing in DONE; else the stream is truncated (45_decoder.md R216). -/
theorem endDecoding_leaves {d d' : Dec} (h : (endDecoding d).Leaves d') :
    d.state ≠ .idle ∧ d.fault = .none ∧
      ((d.state = .done ∧ d' = d) ∨ (d.state ≠ .done ∧ d' = d.enterFault .corruptStream .truncated)) := by
  obtain ⟨hs, hf, h⟩ := whileOperating_leaves h
  refine ⟨hs, hf, ?_⟩
  by_cases hd : d.state = .done
  · exact Or.inl ⟨hd, by simpa [hd] using h⟩
  · exact Or.inr ⟨hd, by simpa [hd, raiseDec] using h⟩

/-! ## The output ports are append-only (20_memory.md R57) -/

theorem startEncoding_out (e : Enc) : e.out <+: (startEncoding e).out :=
  put_out Config.clearCode .w9
    ({ resetEncTable { e with pkAcc := 0#19, pkCnt := 0#5 } with cur := .root, pending := none } : Enc).clearFault

theorem closeStream_out (e : Enc) : e.out <+: (closeStream e).out := by
  obtain ⟨sent, heq⟩ := closeStream_frame e
  rw [heq]
  exact ⟨sent, rfl⟩

theorem encCommand_out {c : Command} {e e' : Enc} (h : (encCommand c e).Leaves e') : e.out <+: e'.out := by
  cases c with
  | byte x =>
    obtain ⟨-, -, ⟨-, rfl⟩ | ⟨b, -, ⟨-, rfl⟩ | ⟨e1, hp, rfl⟩⟩⟩ := takeDataByte_leaves h
    · exact List.prefix_refl _
    · exact List.prefix_refl _
    · obtain ⟨-, -, -, hout⟩ := processByte_frame hp
      exact hout
  | finish =>
    obtain ⟨-, -, ⟨-, rfl⟩ | ⟨b, -, ⟨-, rfl⟩ | ⟨e1, hp, rfl⟩⟩⟩ := endEncoding_leaves h
    · exact closeStream_out e
    · exact List.prefix_refl _
    · obtain ⟨-, -, -, hout⟩ := processByte_frame hp
      exact hout.trans (closeStream_out { e1 with pending := none })
  | start =>
    obtain rfl := ok_leaves.mp h
    exact startEncoding_out e

/-- Whatever codes DEC_BYTE's loop executes, what was emitted stays. -/
theorem takeCodes_out {fuel : Nat} {d d' : Dec} (h : (takeCodes fuel d).Leaves d') : d.out <+: d'.out := by
  induction fuel generalizing d with
  | zero =>
    obtain rfl := ok_leaves.mp h
    exact List.prefix_refl _
  | succ n ih =>
    by_cases hrun : d.state ≠ .done ∧ d.fault = .none ∧ d.width.bits ≤ d.upCnt.toNat
    · rw [takeCodes_step n d hrun] at h
      rcases getCode_cases d.width d with ⟨-, v, hg, -⟩ | ⟨-, hg⟩
      · rw [hg, bind_ok] at h
        generalize hd1 : ({ d with upAcc := d.upAcc >>> d.width.bits,
                                   upCnt := d.upCnt - BitVec.ofNat 5 d.width.bits } : Dec) = d1 at h
        have hout1 : d1.out = d.out := by rw [← hd1]
        cases hx : executeCode v d.width d1 with
        | ok a d2 =>
          rw [hx, bind_ok] at h
          obtain ⟨-, -, -, hout2⟩ := executeCode_keeps (Or.inl hx)
          exact hout1 ▸ hout2.trans (ih h)
        | raised d2 =>
          rw [hx, bind_raised] at h
          obtain rfl := raised_leaves.mp h
          obtain ⟨-, -, -, hout2⟩ := executeCode_keeps (Or.inr hx)
          exact hout1 ▸ hout2
        | stuck f => simp [hx] at h
        | refuse r => simp [hx] at h
      · simp [hg] at h
    · rw [takeCodes_stop _ _ hrun] at h
      obtain rfl := ok_leaves.mp h
      exact List.prefix_refl _

theorem decCommand_out {c : Command} {d d' : Dec} (h : (decCommand c d).Leaves d') : d.out <+: d'.out := by
  cases c with
  | byte x =>
    obtain ⟨-, -, ⟨-, rfl⟩ | ⟨-, htake⟩⟩ := takeWireByte_leaves h
    · exact List.prefix_refl _
    · exact takeCodes_out (d := fillByte x d) htake
  | finish =>
    obtain ⟨-, -, ⟨-, rfl⟩ | ⟨-, rfl⟩⟩ := endDecoding_leaves h
    · exact List.prefix_refl _
    · exact List.prefix_refl _
  | start =>
    obtain rfl := ok_leaves.mp h
    exact List.prefix_refl _

/-! ## The statements about one step -/

/-- Settles O4: `step` on each kind of first waiting input. -/
theorem stepRunsTheDecodedInstruction : Obligations.StepRunsTheDecodedInstruction :=
  ⟨fun _ _ _ _ h => step_token h, fun _ _ h => step_rst h, fun _ h => step_idle h⟩

/-- Settles O6: by the cases of a step; the unit that runs a command extends its output, the other is untouched. -/
theorem outputsAreAppendOnlyAndCommandsTakenInOrder : Obligations.OutputsAreAppendOnlyAndCommandsTakenInOrder := by
  intro s t h
  rcases step_next_cases h with ⟨hin, rfl⟩ | ⟨x, rest, hin, rfl | ⟨c, e, he, rfl⟩ | ⟨c, d, hd, rfl⟩⟩
  · simp [hin]
  · simp [hin]
  · simp [hin, encCommand_out he]
  · simp [hin, decCommand_out hd]

end Sys2Proof.Machine
end

section
/-! The invariant of ENC: every command of `enc_cmd` keeps it (10_state.md R43, 44_encoder.md R192). -/

namespace Sys2Proof

open Sys2Proof.Machine

/-! ## Widths and nodes at a next free code -/

/-- The control codes and the literals fit every width. -/
theorem fits_every_width {v : Code} (h : v.toNat < 512) (w : CodeWidth) : v.toNat < 2 ^ w.bits :=
  lt_of_lt_of_le h (Nat.pow_le_pow_right (by omega) (width_le w).1 : 2 ^ 9 ≤ 2 ^ w.bits)

theorem isNode_literal (nf : FreeCode) (b : Byte) : IsNode nf (literalCode b) :=
  Or.inl (by rw [literalCode_toNat]; exact b.isLt)

/-- Every node is older than the next code assigned. -/
theorem IsNode.lt {nf : FreeCode} {c : Code} (h : IsNode nf c) (hlow : 258 ≤ nf.toNat) : c.toNat < nf.toNat := by
  rcases h with h | ⟨-, h⟩
  · omega
  · exact h

theorem IsNode.mono {nf nf' : FreeCode} {c : Code} (h : IsNode nf c) (hle : nf.toNat ≤ nf'.toNat) : IsNode nf' c :=
  h.imp id fun h => ⟨h.1, h.2.trans_le hle⟩

/-! ## The stored edges -/

theorem trieHolds_nil (nf : FreeCode) (h : nf.toNat ≤ 258) : TrieHolds nf [] where
  assigned c h1 h2 := by omega
  children n b c h := by simp at h
  unique n n' b b' c h := by simp at h

/-- What an edge reads as after a write: the new child on the edge written, and elsewhere what it was. -/
theorem trieChild_set_eq_some {t : Memory Code} {n m : Code} {b y : Byte} {c k : Code}
    (h : trieChild (trieSetChild n b c t) (.code m) y = some k) :
    (m = n ∧ y = b ∧ k = c) ∨ trieChild t (.code m) y = some k := by
  by_cases heq : (m, y) = (n, b)
  · obtain ⟨rfl, rfl⟩ := Prod.mk.inj heq
    exact Or.inl ⟨rfl, rfl, by simpa [eq_comm] using h⟩
  · rw [trieChild_set_ne heq] at h
    exact Or.inr h

/-- Storing the next free code under a new edge of a node keeps the tree (10_state.md R43 items 3 and 4). -/
theorem TrieHolds.add {nf : FreeCode} {t : Memory Code} {n : Code} {b : Byte} (h : TrieHolds nf t)
    (hlow : 258 ≤ nf.toNat) (hhigh : nf.toNat < 4096) (hn : IsNode nf n) (hnew : trieChild t (.code n) b = none) :
    TrieHolds (nf + 1#13) (trieSetChild n b (slotCode nf) t) := by
  have hsucc := nf_succ hhigh
  have hslot := slotCode_toNat hhigh
  have hgrow : nf.toNat ≤ (nf + 1#13).toNat := by omega
  refine ⟨fun c h1 h2 => ?_, fun m y c hc => ?_, fun m m' y y' c hc hc' => ?_⟩
  · by_cases hlast : c.toNat = nf.toNat
    · have hc : c = slotCode nf := BitVec.eq_of_toNat_eq (by omega)
      exact ⟨n, b, by rw [hc, trieChild_set_self]⟩
    · obtain ⟨m, y, hm⟩ := h.assigned c h1 (by omega)
      refine ⟨m, y, ?_⟩
      rw [trieChild_set_ne ?_, hm]
      intro heq
      obtain ⟨rfl, rfl⟩ := Prod.mk.inj heq
      simp [hnew] at hm
  · rcases trieChild_set_eq_some hc with ⟨rfl, rfl, rfl⟩ | hold
    · have hlt := hn.lt hlow
      exact ⟨by omega, by omega, by omega, hn.mono hgrow⟩
    · obtain ⟨h1, h2, h3, h4⟩ := h.children m y c hold
      exact ⟨h1, by omega, h3, h4.mono hgrow⟩
  · rcases trieChild_set_eq_some hc with ⟨rfl, rfl, rfl⟩ | hold <;>
      rcases trieChild_set_eq_some hc' with ⟨rfl, rfl, hk⟩ | hold'
    · exact ⟨rfl, rfl⟩
    · have := (h.children _ _ _ hold').2.1
      omega
    · have := (h.children _ _ _ hold).2.1
      rw [hk] at this
      omega
    · exact h.unique m m' y y' c hold hold'

/-! ## ENC inside a command -/

/-- What holds of ENC outside IDLE, between the operations of a command too: the next free code may be 4095 there, until
step 6 of ENC_STEP resets the table (44_encoder.md R186). -/
structure EncRunning (e : Enc) : Prop where
  noFault : e.fault = .none
  width : e.width = widthFor e.nf.toNat
  freeLow : 258 ≤ e.nf.toNat
  freeHigh : e.nf.toNat ≤ 4095
  held : e.pkCnt.toNat ≤ 7
  padding : e.pkAcc.toNat < 2 ^ e.pkCnt.toNat
  canonical : Memory.trieWf e.trie = true
  trie : TrieHolds e.nf e.trie
  current : ∀ c, e.cur = .code c → IsNode e.nf c

theorem EncInv.running {e : Enc} (h : EncInv e) (hs : e.state ≠ .idle) : EncRunning e :=
  { h with trie := h.trie hs, current := h.current hs }

theorem EncRunning.inv {e : Enc} (h : EncRunning e) (hfree : e.state = .accumulating → e.nf.toNat ≤ 4094)
    (hpending : e.pending ≠ none → e.state = .accumulating) : EncInv e :=
  { h with freeAccumulating := hfree, trie := fun _ => h.trie, current := fun _ => h.current, lookahead := hpending }

theorem EncRunning.withPending {e : Enc} (h : EncRunning e) (p : Option Byte) :
    EncRunning { e with pending := p } := { h with }

/-- PUT of a code that fits keeps the packer in range and touches nothing else (40_bit_channel.md R101). -/
theorem EncRunning.put {e : Enc} {v : Code} {w : CodeWidth} (h : EncRunning e) (hv : v.toNat < 2 ^ w.bits) :
    EncRunning (put v w e) := by
  obtain ⟨sent, acc, cnt, heq, -, hheld, hpad, -⟩ := put_spec v w e hv h.held h.padding
  rw [heq]
  exact { h with held := hheld, padding := hpad }

/-- The code of a node fits the width in force. -/
theorem EncRunning.fits {e : Enc} {c : Code} (h : EncRunning e) (hc : IsNode e.nf c) : c.toNat < 2 ^ e.width.bits := by
  rw [h.width]
  exact code_fits_width (hc.lt h.freeLow) (by have := h.freeHigh; omega)

theorem emptyPacker_held : (0#5 : BitCount).toNat ≤ 7 := by decide

theorem emptyPacker_padding : (0#19 : Accumulator).toNat < 2 ^ (0#5 : BitCount).toNat := by decide

/-- ENC runs with the baseline table and an empty run (41_code_table.md R120). -/
theorem encRunning_baseline {e : Enc} (hf : e.fault = .none) (hnf : e.nf = Config.firstFree) (hw : e.width = .w9)
    (hc : e.cur = .root) (ht : e.trie = []) (held : e.pkCnt.toNat ≤ 7) (padding : e.pkAcc.toNat < 2 ^ e.pkCnt.toNat) :
    EncRunning e where
  noFault := hf
  width := by rw [hw, hnf]; rfl
  freeLow := by rw [hnf]; decide
  freeHigh := by rw [hnf]; decide
  held := held
  padding := padding
  canonical := by rw [ht]; rfl
  trie := by rw [ht, hnf]; exact trieHolds_nil _ (by decide)
  current c h := by simp [hc] at h

/-- TABLE_RESET with the run emptied keeps ENC running (44_encoder.md R186). -/
theorem EncRunning.reset {e : Enc} (h : EncRunning e) : EncRunning { resetEncTable e with cur := .root } :=
  encRunning_baseline h.noFault rfl rfl rfl rfl h.held h.padding

/-- VISIT below next free code 4095 keeps the tree: it follows a stored edge, or learns one and restarts the run at a
literal (42_encode_dictionary.md R143). -/
theorem EncRunning.visit {b : Byte} {e e1 : Enc} {g : Bool} (h : EncRunning e) (hfree : e.nf.toNat ≤ 4094)
    (hv : visitByte b e = .ok g e1) : EncRunning e1 := by
  rcases visitByte_cases b e with ⟨c, hc, hok⟩ | ⟨-, hf, -⟩ | ⟨hnew, -, n, hn, hok⟩
  · rw [hok] at hv
    cases hv
    refine { h with current := fun k hk => ?_ }
    cases hk
    cases hcur : e.cur with
    | root =>
      rw [hcur, trieChild_root, Option.some.injEq] at hc
      exact hc ▸ isNode_literal e.nf b
    | code m =>
      rw [hcur] at hc
      obtain ⟨h1, h2, -, -⟩ := h.trie.children m b c hc
      exact Or.inr ⟨h1, h2⟩
  · omega
  · rw [hok] at hv
    cases hv
    have hlow := h.freeLow
    have hsucc : (e.nf + 1#13).toNat = e.nf.toNat + 1 := nf_succ (by omega)
    rw [hn] at hnew
    refine { h with
      width := rfl, freeLow := ?_, freeHigh := ?_, canonical := trieWf_set _ _ _ _ h.canonical
      trie := h.trie.add hlow (by omega) (h.current n hn) hnew, current := fun k hk => ?_ }
    · show 258 ≤ (e.nf + 1#13).toNat
      omega
    · show (e.nf + 1#13).toNat ≤ 4095
      omega
    · cases hk
      exact isNode_literal _ b

/-- Step 6 of ENC_STEP leaves a next free code of at most 4094 (44_encoder.md R186, R192). -/
theorem EncRunning.proactiveReset {code : Code} {f : Bool} {e : Enc} (h : EncRunning e)
    (hcode : code.toNat < 2 ^ e.width.bits) :
    EncRunning (proactiveReset code f e) ∧ (proactiveReset code f e).nf.toNat ≤ 4094 := by
  by_cases hn : e.nf = Config.clearAt
  · have hclear : ∀ w : CodeWidth, Config.clearCode.toNat < 2 ^ w.bits := fits_every_width (by decide)
    have hfirst : Config.firstFree.toNat ≤ 4094 := by decide
    unfold Machine.proactiveReset
    rw [if_pos hn]
    cases f with
    | true => exact ⟨(h.put (hclear _)).reset, hfirst⟩
    | false => exact ⟨((h.put hcode).put (hclear _)).reset, hfirst⟩
  · rw [proactiveReset_below code f e hn]
    refine ⟨h, ?_⟩
    have hne : e.nf.toNat ≠ 4095 := fun heq => hn (BitVec.eq_of_toNat_eq heq)
    have := h.freeHigh
    omega

/-- ENC_STEP begun below next free code 4095 keeps ENC running, and leaves at most 4094 where a byte follows
(44_encoder.md R186, R192). -/
theorem EncRunning.processByte {b : Byte} {la : Lookahead} {e e' : Enc} (h : EncRunning e) (hfree : e.nf.toNat ≤ 4094)
    (hp : processByte b la e = .ok () e') : EncRunning e' ∧ (la ≠ .endOfData → e'.nf.toNat ≤ 4094) := by
  rcases processByte_cases b la e with ⟨hf, -⟩ | ⟨e1, g, c, hv, hc, hends⟩
  · omega
  · have h1 := h.visit hfree hv
    have hfits := h1.fits (h1.current c hc)
    rcases hends with ⟨rfl, hok⟩ | ⟨x, rfl, hok⟩
    · rw [hok] at hp
      cases hp
      exact ⟨h1.put hfits, fun hne => absurd rfl hne⟩
    · rw [hok] at hp
      cases hp
      cases flushedFlag e1 x with
      | true =>
        obtain ⟨hrun, hlow⟩ := (h1.put hfits).proactiveReset (f := true) (by simpa using hfits)
        exact ⟨hrun, fun _ => hlow⟩
      | false =>
        obtain ⟨hrun, hlow⟩ := h1.proactiveReset (f := false) hfits
        exact ⟨hrun, fun _ => hlow⟩

/-! ## The commands -/

/-- The end of ENC_END leaves ENC in EOF with nothing held (44_encoder.md R188, R189). -/
theorem EncRunning.closeStream {e : Enc} (h : EncRunning e) (hp : e.pending = none) : EncInv (closeStream e) := by
  obtain ⟨sent, heq⟩ := closeStream_frame e
  rw [heq]
  have hrun : EncRunning { e with state := .eof, pkAcc := 0#19, pkCnt := 0#5, out := e.out ++ sent } :=
    { h with held := emptyPacker_held, padding := emptyPacker_padding }
  exact hrun.inv (fun hs => by cases hs) (fun hne => absurd hp hne)

/-- ENC_START begins from every state (44_encoder.md R184). -/
theorem startEncoding_inv (e : Enc) : EncInv (startEncoding e) := by
  have hrun : EncRunning
      ({ resetEncTable { e with pkAcc := 0#19, pkCnt := 0#5 } with cur := .root, pending := none } : Enc).clearFault :=
    encRunning_baseline rfl rfl rfl rfl rfl emptyPacker_held emptyPacker_padding
  have hput := hrun.put (v := Config.clearCode) (w := .w9) (by decide)
  have hstart : EncRunning (startEncoding e) := { hput with }
  refine hstart.inv (fun _ => ?_) (fun _ => rfl)
  simp [startEncoding, Config.firstFree]

/-- Every command of `enc_cmd` keeps the invariant of ENC; TableOverflow is never reached (44_encoder.md R192). -/
theorem EncInv.command {c : Command} {e e' : Enc} (h : EncInv e) (hc : (encCommand c e).Leaves e') : EncInv e' := by
  cases c with
  | byte x =>
    obtain ⟨hs, -, hends⟩ := takeDataByte_leaves hc
    have hrun := h.running (by simp [hs])
    have hfree := h.freeAccumulating hs
    rcases hends with ⟨-, rfl⟩ | ⟨b, -, ⟨hf, -⟩ | ⟨e1, hp, rfl⟩⟩
    · exact (hrun.withPending _).inv (fun _ => hfree) (fun _ => hs)
    · omega
    · obtain ⟨hrun1, hfree1⟩ := hrun.processByte hfree hp
      obtain ⟨hs1, -, -, -⟩ := processByte_frame hp
      exact (hrun1.withPending _).inv (fun _ => hfree1 (by simp)) (fun _ => hs1.trans hs)
  | finish =>
    obtain ⟨hs, -, hends⟩ := endEncoding_leaves hc
    have hrun := h.running (by simp [hs])
    have hfree := h.freeAccumulating hs
    rcases hends with ⟨hp, rfl⟩ | ⟨b, -, ⟨hf, -⟩ | ⟨e1, hp, rfl⟩⟩
    · exact hrun.closeStream hp
    · omega
    · obtain ⟨hrun1, -⟩ := hrun.processByte hfree hp
      exact (hrun1.withPending none).closeStream rfl
  | start =>
    obtain rfl := ok_leaves.mp hc
    exact startEncoding_inv e

/-- `rst` leaves the invariant of ENC, whatever was emitted (10_state.md R44). -/
theorem encReset_inv (out : List Byte) : EncInv { Enc.reset with out := out } := by
  have hrun : EncRunning { Enc.reset with out := out } :=
    encRunning_baseline rfl rfl rfl rfl rfl emptyPacker_held emptyPacker_padding
  exact hrun.inv (fun hs => by cases hs) (fun hne => absurd rfl hne)

end Sys2Proof
end

section
/-! The invariant of DEC: every command of `dec_cmd` keeps it (10_state.md R43, 00_scope.md R9), and the invariant of the
machine with it. -/

namespace Sys2Proof

open Sys2Proof.Machine

/-! ## The lengths of sequences (00_scope.md R9) -/

theorem ByteSeq.one_le_length (q : ByteSeq) : 1 ≤ q.length := Nat.le_add_left 1 _

@[simp] theorem ByteSeq.length_snoc (q : ByteSeq) (b : Byte) : (q.snoc b).length = q.length + 1 := by
  simp [ByteSeq.length, ByteSeq.snoc]

@[simp] theorem ByteSeq.length_single (b : Byte) : (ByteSeq.single b).length = 1 := rfl

/-- Slot `c` holds a sequence of 2 to `c - 256` bytes, as every assigned slot does. -/
def SlotInRange (t : Memory ByteSeq) (c : Code) : Prop :=
  ∃ q, tabRead t c = .bytes q ∧ 2 ≤ q.length ∧ q.length ≤ c.toNat - 256

/-- Learning a sequence of the next slot's range keeps every assigned slot in range. -/
theorem slotInRange_write {nf : FreeCode} {t : Memory ByteSeq} {q : ByteSeq} (hlow : 258 ≤ nf.toNat)
    (hhigh : nf.toNat < 4096) (ht : ∀ c : Code, 258 ≤ c.toNat → c.toNat < nf.toNat → SlotInRange t c)
    (hq2 : 2 ≤ q.length) (hq : q.length ≤ nf.toNat - 256) (c : Code) (h1 : 258 ≤ c.toNat)
    (h2 : c.toNat < (nf + 1#13).toNat) : SlotInRange (tabWrite (slotCode nf) q t) c := by
  have hslot := slotCode_toNat hhigh
  by_cases hc : c = slotCode nf
  · exact ⟨q, by rw [hc, tabRead_write_self _ _ _ (by omega)], hq2, by rw [hc, hslot]; exact hq⟩
  · have hne : c.toNat ≠ nf.toNat := fun heq => hc (BitVec.eq_of_toNat_eq (by omega))
    rw [nf_succ hhigh] at h2
    obtain ⟨q', hread, hlen⟩ := ht c h1 (by omega)
    exact ⟨q', by rw [tabRead_write_ne hc, hread], hlen⟩

/-! ## What keeps the invariant of DEC -/

/-- At most 7 bits are less than a code of any width. -/
theorem lt_bits_of_le_seven {n : Nat} (h : n ≤ 7) (w : CodeWidth) : n < w.bits := by
  have := (width_le w).1
  omega

/-- DEC with the baseline table, no previous sequence and no fault, before its first code (41_code_table.md R120). -/
theorem decInv_baseline {d : Dec} (hs : d.state = .idle ∨ d.state = .awaitFirst) (hf : d.fault = .none)
    (hcause : d.cause = .invalidCode) (hnf : d.nf = Config.firstFree) (hw : d.width = .w9) (hp : d.prev = none)
    (ht : d.tab = []) (held : d.upCnt.toNat ≤ 7) (padding : d.upAcc.toNat < 2 ^ d.upCnt.toNat) : DecInv d where
  width := by rw [hw, hnf]; rfl
  freeLow := by rw [hnf]; decide
  freeHigh := by rw [hnf]; decide
  held := by omega
  incomplete _ _ := lt_bits_of_le_seven held _
  padding := padding
  canonical := by rw [ht]; rfl
  table _ c h1 h2 := by
    rw [hnf, show Config.firstFree.toNat = 258 from rfl] at h2
    omega
  noPrevious _ := hp
  previous h := by rcases hs with hs | hs <;> simp [hs] at h
  fresh _ := hnf
  idleNoFault _ := hf
  cause _ := hcause

/-- Other contents of the unpacker, in range and with no whole code held. -/
theorem DecInv.withUnpacker {d : Dec} {acc : Accumulator} {cnt : BitCount} (h : DecInv d)
    (held : cnt.toNat < d.width.bits) (padding : acc.toNat < 2 ^ cnt.toNat) :
    DecInv { d with upAcc := acc, upCnt := cnt } :=
  { h with
    held := by
      have := (width_le d.width).2
      show cnt.toNat ≤ 11
      omega
    incomplete := fun _ _ => held
    padding := padding }

theorem DecInv.withLast {d : Dec} (h : DecInv d) (l : LastCode) : DecInv { d with last := l } := { h with }

theorem DecInv.emitData {d : Dec} (h : DecInv d) (q : ByteSeq) : DecInv (emitData q d) := { h with }

/-- A fault outside IDLE keeps everything but the fault and its cause (60_exceptions.md R240). -/
theorem DecInv.enterFault {d : Dec} (h : DecInv d) (hs : d.state ≠ .idle) {kind : DecFault} (hk : kind ≠ .none)
    (cause : Cause) : DecInv (d.enterFault kind cause) :=
  { h with
    incomplete := fun hf => absurd hf hk
    idleNoFault := fun hi => absurd hi hs
    cause := fun hne => if_neg hne }

/-! ## What a code leaves -/

/-- STEADY_TAIL keeps the invariant for a sequence that the slot after next can extend (45_decoder.md R226). -/
theorem DecInv.steadyTail {d d' : Dec} {q : ByteSeq} (h : DecInv d) (hs : d.state = .steady)
    (hcnt : d.upCnt.toNat ≤ 7) (hq : q.length ≤ d.nf.toNat - 256) (hl : (steadyTail q d).Leaves d') : DecInv d' := by
  have hlow := h.freeLow
  have hhigh := h.freeHigh
  obtain ⟨p, hp, hplen⟩ := h.previous hs
  have hp1 := p.one_le_length
  rcases steadyTail_cases q d with ⟨hnone, -⟩ | ⟨p', hp', ⟨-, hr⟩ | ⟨hnf, hok⟩⟩
  · simp [hp] at hnone
  · rw [hr] at hl
    obtain rfl := raised_leaves.mp hl
    exact (h.emitData q).enterFault (by simp [hs]) (by decide) _
  · obtain rfl : p = p' := by simpa [hp] using hp'
    rw [hok] at hl
    obtain rfl := ok_leaves.mp hl
    have hlt : d.nf.toNat < 4096 := by omega
    have hsucc := nf_succ hlt
    exact
      { h with
        width := rfl
        freeLow := by simp only [hsucc]; omega
        freeHigh := by simp only [hsucc]; omega
        incomplete := fun _ _ => lt_bits_of_le_seven hcnt _
        canonical := tabWf_write _ _ _ h.canonical
        table := fun hi => slotInRange_write hlow hlt (h.table hi) (by simp; omega) (by simp; omega)
        noPrevious := fun hn => by simp [hs] at hn
        previous := fun _ => ⟨q, rfl, hq.trans_eq (by simp only [hsucc]; exact (Nat.add_sub_add_right _ 1 256).symm)⟩
        fresh := fun hf => by simp [hs] at hf }

/-- LIT and DICT keep the invariant: the sequence of a code is shorter than the next slot allows (R222, R223). -/
theorem DecInv.runResolved {d d' : Dec} {v : Code} (h : DecInv d) (hs : d.state = .steady)
    (hcnt : d.upCnt.toNat ≤ 7) (hv : v.toNat < 256 ∨ (258 ≤ v.toNat ∧ v.toNat < d.nf.toNat))
    (hl : (runResolved v d).Leaves d') : DecInv d' := by
  have hlow := h.freeLow
  rcases hv with hlit | ⟨h1, h2⟩
  · rw [Machine.runResolved, sequenceFor_literal v d hlit, bind_ok] at hl
    exact h.steadyTail hs hcnt (by simp; omega) hl
  · obtain ⟨q, hread, -, hlen⟩ := h.table (by simp [hs]) v h1 h2
    rw [Machine.runResolved, sequenceFor_assigned v d q h1 h2 hread, bind_ok] at hl
    exact h.steadyTail hs hcnt (hlen.trans (Nat.sub_le_sub_right h2.le 256)) hl

/-- KWKWK keeps the invariant: its sequence is one byte longer than the previous one (R224). -/
theorem DecInv.runKwkwk {d d' : Dec} (h : DecInv d) (hs : d.state = .steady) (hcnt : d.upCnt.toNat ≤ 7)
    (hl : (runKwkwk d).Leaves d') : DecInv d' := by
  have hlow := h.freeLow
  obtain ⟨p, hp, hlen⟩ := h.previous hs
  rw [Machine.runKwkwk, hp] at hl
  exact h.steadyTail hs hcnt (by simp; omega) hl

/-- EOD keeps the invariant (R219). -/
theorem DecInv.runEod {d d' : Dec} (h : DecInv d) (hs : d.state ≠ .idle) (hl : (runEod d).Leaves d') : DecInv d' := by
  obtain rfl := ok_leaves.mp hl
  exact
    { h with
      incomplete := fun _ hi => by simp at hi
      table := fun _ => h.table hs
      noPrevious := fun hn => by simp at hn
      previous := fun hn => by cases hn
      fresh := fun hn => by cases hn
      idleNoFault := fun hn => by cases hn }

/-- CLEAR goes back to the baseline table and awaits a first code (R220). -/
theorem DecInv.runClear {d d' : Dec} (h : DecInv d) (hf : d.fault = .none) (hcnt : d.upCnt.toNat ≤ 7)
    (hl : (runClear d).Leaves d') : DecInv d' := by
  obtain rfl := ok_leaves.mp hl
  exact decInv_baseline (Or.inr rfl) hf (h.cause (by simp [hf])) rfl rfl rfl rfl hcnt h.padding

/-- The first literal becomes the previous sequence (R221). -/
theorem DecInv.runLitFirst {d d' : Dec} {v : Code} (h : DecInv d) (hs : d.state = .awaitFirst)
    (hcnt : d.upCnt.toNat ≤ 7) (hv : v.toNat < 256) (hl : (runLitFirst v d).Leaves d') : DecInv d' := by
  have hlow := h.freeLow
  rw [Machine.runLitFirst, sequenceFor_literal v d hv, bind_ok] at hl
  obtain rfl := ok_leaves.mp hl
  exact
    { h with
      incomplete := fun _ _ => lt_bits_of_le_seven hcnt _
      table := fun _ => h.table (by simp [hs])
      noPrevious := fun hn => by simp at hn
      previous := fun _ => ⟨_, rfl, by simp; omega⟩
      fresh := fun hn => by cases hn
      idleNoFault := fun hn => by cases hn }

/-- A code run under its class keeps the invariant, with at most 7 bits held after it (30_encoding.md R77). -/
theorem DecInv.runClass {d d' : Dec} {k : CodeClass} {v : Code} (h : DecInv d) (hf : d.fault = .none)
    (hcnt : d.upCnt.toNat ≤ 7) (hk : codeClass d.state d.nf v = some k) (hl : (runClass k v d).Leaves d') :
    DecInv d' := by
  rcases (codeClass_spec _ _ _ _).mp hk with ⟨rfl, hs, -⟩ | ⟨rfl, -, -⟩ | ⟨rfl, hs, hv⟩ | ⟨rfl, hs, -⟩ |
    ⟨rfl, hs, hv⟩ | ⟨rfl, hs, hv⟩ | ⟨rfl, hs, -, -⟩ | ⟨rfl, hs, -, -⟩
  · exact h.runEod (by rcases hs with hs | hs <;> simp [hs]) hl
  · exact h.runClear hf hcnt hl
  · exact h.runLitFirst hs hcnt hv hl
  · obtain rfl := raised_leaves.mp hl
    exact h.enterFault (by simp [hs]) (by decide) _
  · exact h.runResolved hs hcnt (Or.inl hv) hl
  · exact h.runResolved hs hcnt (Or.inr hv) hl
  · exact h.runKwkwk hs hcnt hl
  · obtain rfl := raised_leaves.mp hl
    exact h.enterFault (by simp [hs]) (by decide) _

/-- DEC_EXEC keeps the invariant, with at most 7 bits held after the code (45_decoder.md R218). -/
theorem DecInv.executeCode {d d' : Dec} {v : Code} {w : CodeWidth} (h : DecInv d) (hf : d.fault = .none)
    (hcnt : d.upCnt.toNat ≤ 7) (hl : (executeCode v w d).Leaves d') : DecInv d' := by
  cases hc : classNow v d with
  | none => simp [Machine.executeCode, hc] at hl
  | some k =>
    rw [executeCode_of_class hc] at hl
    rw [classNow_eq v hf] at hc
    exact (h.withLast ⟨v, widthValue w, true⟩).runClass hf hcnt hc hl

/-! ## The commands -/

/-- DEC_BYTE where codes execute: a byte more completes at most one code, and at most 7 bits are left after it
(45_decoder.md R215). -/
theorem DecInv.takeCodes_fillByte {x : Byte} {d d' : Dec} (h : DecInv d) (hf : d.fault = .none)
    (hs : d.state = .awaitFirst ∨ d.state = .steady) (hl : (takeCodes 4 (fillByte x d)).Leaves d') : DecInv d' := by
  have hlt := h.incomplete hf hs
  obtain ⟨hcnt, hpad, -⟩ := fillByte_spec x d h.held h.padding
  rw [← hcnt] at hpad
  by_cases hrun : (fillByte x d).state ≠ .done ∧ (fillByte x d).fault = .none ∧
      (fillByte x d).width.bits ≤ (fillByte x d).upCnt.toNat
  · rw [takeCodes_once 3 _ hrun (by rw [hcnt]; simp only [fillByte_width]; omega)] at hl
    obtain ⟨-, -, hle⟩ := hrun
    rcases getCode_cases (fillByte x d).width (fillByte x d) with ⟨-, v, hget, -⟩ | ⟨hno, -⟩
    · rw [hget, bind_ok] at hl
      simp only [fillByte_width] at hle hl
      have hleft : ((fillByte x d).upCnt - BitVec.ofNat 5 d.width.bits).toNat =
          (fillByte x d).upCnt.toNat - d.width.bits := by
        have := (width_le d.width).2
        rw [BitVec.toNat_sub_of_le (by rw [BitVec.le_def, BitVec.toNat_ofNat]; omega), BitVec.toNat_ofNat]
        omega
      have hseven : ((fillByte x d).upCnt - BitVec.ofNat 5 d.width.bits).toNat ≤ 7 := by omega
      have hrest : ((fillByte x d).upAcc >>> d.width.bits).toNat <
          2 ^ ((fillByte x d).upCnt - BitVec.ofNat 5 d.width.bits).toNat := by
        rw [hleft]
        exact shift_lt _ _ _ hpad hle
      have hgot := h.withUnpacker (lt_bits_of_le_seven hseven _) hrest
      exact hgot.executeCode hf hseven hl
    · omega
  · rw [takeCodes_stop 4 _ hrun] at hl
    obtain rfl := ok_leaves.mp hl
    have hnot : ¬ d.width.bits ≤ (fillByte x d).upCnt.toNat := fun hle =>
      hrun ⟨by rcases hs with hs | hs <;> simp [hs], hf, hle⟩
    exact h.withUnpacker (Nat.not_le.mp hnot) hpad

/-- DEC_START begins from every state (45_decoder.md R214). -/
theorem startDecoding_inv (d : Dec) : DecInv (startDecoding d) :=
  decInv_baseline (Or.inr rfl) rfl rfl rfl rfl rfl rfl emptyPacker_held emptyPacker_padding

/-- Every command of `dec_cmd` keeps the invariant of DEC. -/
theorem DecInv.command {c : Command} {d d' : Dec} (h : DecInv d) (hc : (decCommand c d).Leaves d') : DecInv d' := by
  cases c with
  | byte x =>
    obtain ⟨hidle, hf, ⟨-, rfl⟩ | ⟨hdone, hl⟩⟩ := takeWireByte_leaves hc
    · exact h
    · refine h.takeCodes_fillByte hf ?_ hl
      cases hs : d.state <;> simp [hs] at hidle hdone ⊢
  | finish =>
    obtain ⟨hidle, -, ⟨-, rfl⟩ | ⟨-, rfl⟩⟩ := endDecoding_leaves hc
    · exact h
    · exact h.enterFault hidle (by decide) _
  | start =>
    obtain rfl := ok_leaves.mp hc
    exact startDecoding_inv d

/-- `rst` leaves the invariant of DEC, whatever was emitted (10_state.md R44). -/
theorem decReset_inv (out : List Byte) : DecInv { Dec.reset with out := out } :=
  decInv_baseline (Or.inl rfl) rfl rfl rfl rfl rfl rfl emptyPacker_held emptyPacker_padding

/-! ## The machine -/

/-- Settles O3: by the cases of a step; the unit that runs a command keeps its part of the invariant, the other is
untouched, and `rst` leaves both parts. -/
theorem everyStepKeepsTheInvariant : Obligations.EveryStepKeepsTheInvariant := by
  intro s t hinv h
  rcases step_next_cases h with ⟨-, rfl⟩ | ⟨x, rest, -, rfl | ⟨c, e, he, rfl⟩ | ⟨c, d, hd, rfl⟩⟩
  · exact hinv
  · exact ⟨encReset_inv _, decReset_inv _⟩
  · exact ⟨hinv.enc.command he, hinv.dec⟩
  · exact ⟨hinv.enc, hinv.dec.command hd⟩

end Sys2Proof
end

section
/-! Hardware reset (10_state.md R44, 70_reset_and_hazards.md R270). -/

namespace Sys2Proof

open Sys2Proof.Machine

/-- Settles O1: the fields of `State.reset` by evaluation. -/
theorem resetLeavesTheValuesTheSpecGives : Obligations.ResetLeavesTheValuesTheSpecGives := by
  unfold Obligations.ResetLeavesTheValuesTheSpecGives
  decide

/-- Settles O2: both units meet their invariants after reset, with nothing emitted. -/
theorem resetMeetsTheInvariant : Obligations.ResetMeetsTheInvariant :=
  ⟨encReset_inv [], decReset_inv []⟩

/-- Settles O5: the step is `hardReset` of the state with the `rst` taken. -/
theorem hardwareResetPutsBothUnitsInIdle : Obligations.HardwareResetPutsBothUnitsInIdle := by
  intro s rest h
  refine ⟨_, step_rst h, ?_⟩
  simp [Enc.reset, Dec.reset, Cause.value]

end Sys2Proof
end

section
/-! The status words, field by field (10_state.md R36 to R39). -/

namespace Sys2Proof.Machine

@[simp] theorem widthValue_toNat (w : CodeWidth) : (widthValue w).toNat = w.bits := by
  cases w <;> rfl

theorem pendingFlag_eq_one (e : Enc) : pendingFlag e = 1#1 ↔ e.pending ≠ none := by
  unfold pendingFlag
  split <;> simp_all

theorem ofBool_eq_one (b : Bool) : BitVec.ofBool b = 1#1 ↔ b = true := by
  cases b <;> decide

/-- The fields of ENC_STATUS (R36): those below a field are taken off one by one, and the field is then the lowest. -/
theorem encStatus_fields (e : Enc) :
    (encStatus e).extractLsb' 0 2 = e.state.value ∧ (encStatus e).extractLsb' 2 2 = e.fault.value ∧
    (encStatus e).extractLsb' 4 1 = 0#1 ∧ (encStatus e).extractLsb' 5 4 = widthValue e.width ∧
    (encStatus e).extractLsb' 9 13 = e.nf ∧ (encStatus e).extractLsb' 22 1 = pendingFlag e ∧
    (encStatus e).extractLsb' 23 3 = e.pkCnt.setWidth 3 ∧ (encStatus e).extractLsb' 26 6 = 0#6 := by
  unfold encStatus
  refine ⟨?_, ?_, ?_, ?_, ?_, ?_, ?_, ?top⟩
  all_goals repeat rw [BitVec.extractLsb'_append_eq_of_le (by decide)]
  case top => exact BitVec.extractLsb'_eq_self
  all_goals exact BitVec.extractLsb'_append_eq_right

/-- The fields of DEC_STATUS (R37). -/
theorem decStatus_fields (d : Dec) :
    (decStatus d).extractLsb' 0 2 = decStateValue d.state ∧ (decStatus d).extractLsb' 2 2 = d.fault.value ∧
    (decStatus d).extractLsb' 4 1 = d.cause.value ∧ (decStatus d).extractLsb' 5 4 = widthValue d.width ∧
    (decStatus d).extractLsb' 9 13 = d.nf ∧ (decStatus d).extractLsb' 22 1 = 0#1 ∧
    (decStatus d).extractLsb' 23 5 = d.upCnt ∧ (decStatus d).extractLsb' 28 4 = 0#4 := by
  unfold decStatus
  refine ⟨?_, ?_, ?_, ?_, ?_, ?_, ?_, ?top⟩
  all_goals repeat rw [BitVec.extractLsb'_append_eq_of_le (by decide)]
  case top => exact BitVec.extractLsb'_eq_self
  all_goals exact BitVec.extractLsb'_append_eq_right

/-- The fields of DEC_INFO (R38). -/
theorem decInfo_fields (d : Dec) :
    (decInfo d).extractLsb' 0 12 = d.last.value ∧ (decInfo d).extractLsb' 12 4 = d.last.width ∧
    (decInfo d).extractLsb' 16 1 = BitVec.ofBool d.last.valid ∧ (decInfo d).extractLsb' 17 15 = 0#15 := by
  unfold decInfo
  refine ⟨?_, ?_, ?_, ?top⟩
  all_goals repeat rw [BitVec.extractLsb'_append_eq_of_le (by decide)]
  case top => exact BitVec.extractLsb'_eq_self
  all_goals exact BitVec.extractLsb'_append_eq_right

/-- Settles O12: the values by evaluation, the fields by their places in the words. -/
theorem statusWordsShowTheUnits : Obligations.StatusWordsShowTheUnits := by
  refine ⟨by decide, by decide, fun e => ?_, fun d => ?_⟩
  · obtain ⟨hstate, hfault, hzero, hwidth, hnf, hpending, hbits, htop⟩ := encStatus_fields e
    refine ⟨hstate, hfault, hzero, by rw [hwidth, widthValue_toNat], hnf, ?_, fun hle => ?_, htop⟩
    · rw [hpending, pendingFlag_eq_one]
    · rw [hbits, BitVec.toNat_setWidth]
      exact Nat.mod_eq_of_lt (Nat.lt_succ_of_le hle)
  · obtain ⟨hstate, hfault, hcause, hwidth, hnf, hzero, hbits, htop⟩ := decStatus_fields d
    obtain ⟨hcode, hlast, hvalid, hinfo⟩ := decInfo_fields d
    refine ⟨hstate, hfault, hcause, by rw [hwidth, widthValue_toNat], hnf, hzero, hbits, htop, hcode, hlast, ?_, hinfo⟩
    rw [hvalid, ofBool_eq_one]

end Sys2Proof.Machine
end

section
/-! The paths of the trie: the byte sequences GET_NODE finds a node for (42_encode_dictionary.md R142, R145). -/

namespace Sys2Proof

open Sys2Proof.Machine

/-- GET_NODE along one byte more is one edge more (42_encode_dictionary.md R141, R142). -/
theorem nodeOf_snoc (t : Memory Code) (p : List Byte) (b : Byte) :
    nodeOf t (p ++ [b]) = (nodeOf t p).bind fun n => (trieChild t n b).map .code := by
  unfold nodeOf
  rw [walk_append]
  congr 1
  funext n
  rw [walk_cons]
  cases trieChild t n b <;> rfl

/-- Only the empty sequence leads to ROOT (42_encode_dictionary.md R142). -/
theorem nodeOf_eq_root {t : Memory Code} {p : List Byte} (h : nodeOf t p = some .root) : p = [] := by
  rcases List.eq_nil_or_concat' p with rfl | ⟨p, b, rfl⟩
  · rfl
  · simp [nodeOf_snoc, Option.bind_eq_some_iff] at h

/-- A sequence that leads to a code ends in an edge to it: from ROOT, to the literal of its only byte, or from the node
the other bytes lead to. -/
theorem nodeOf_eq_code {t : Memory Code} {q : List Byte} {c : Code} (h : nodeOf t q = some (.code c)) :
    (∃ b, q = [b] ∧ c = literalCode b) ∨
    ∃ p b n, q = p ++ [b] ∧ nodeOf t p = some (.code n) ∧ trieChild t (.code n) b = some c := by
  rcases List.eq_nil_or_concat' q with rfl | ⟨p, b, rfl⟩
  · simp [nodeOf] at h
  · rw [nodeOf_snoc] at h
    obtain ⟨n, hn, hedge⟩ := Option.bind_eq_some_iff.mp h
    obtain ⟨c', hchild, hc⟩ := Option.map_eq_some_iff.mp hedge
    cases hc
    cases n with
    | root =>
      obtain rfl := nodeOf_eq_root hn
      exact Or.inl ⟨b, rfl, by simpa [eq_comm] using hchild⟩
    | code n => exact Or.inr ⟨p, b, n, rfl, hn, hchild⟩

theorem literalCode_literalByte {c : Code} (h : c.toNat < 256) : literalCode (literalByte c) = c := by
  refine BitVec.eq_of_toNat_eq ?_
  rw [literalCode_toNat, literalByte, BitVec.toNat_setWidth]
  exact Nat.mod_eq_of_lt h

theorem literalCode_inj {b b' : Byte} (h : literalCode b = literalCode b') : b = b' := by
  have := congrArg BitVec.toNat h
  rw [literalCode_toNat, literalCode_toNat] at this
  exact BitVec.eq_of_toNat_eq this

/-- Exactly one byte sequence leads to the node of code `c`. -/
def HasOnePath (t : Memory Code) (c : Code) : Prop :=
  ∃ p : List Byte, nodeOf t p = some (.code c) ∧ ∀ q : List Byte, nodeOf t q = some (.code c) → q = p

/-- A literal is the node of its byte only: no stored edge leads to it. -/
theorem TrieHolds.literal_hasOnePath {nf : FreeCode} {t : Memory Code} (ht : TrieHolds nf t) {c : Code}
    (h : c.toNat < 256) : HasOnePath t c := by
  refine ⟨[literalByte c], ?_, fun q hq => ?_⟩
  · simp [nodeOf, walk_cons, literalCode_literalByte h]
  · rcases nodeOf_eq_code hq with ⟨b, rfl, rfl⟩ | ⟨p, b, n, rfl, -, hchild⟩
    · rw [literalCode_inj (literalCode_literalByte h)]
    · obtain ⟨hlow, -⟩ := ht.children n b c hchild
      omega

/-- The child of a node with one path has one path: the one edge to it goes on from the node's path. -/
theorem TrieHolds.child_hasOnePath {nf : FreeCode} {t : Memory Code} (ht : TrieHolds nf t) {n c : Code} {b : Byte}
    (hchild : trieChild t (.code n) b = some c) (hn : HasOnePath t n) : HasOnePath t c := by
  obtain ⟨p, hp, honly⟩ := hn
  obtain ⟨hlow, -⟩ := ht.children n b c hchild
  refine ⟨p ++ [b], by simp [nodeOf_snoc, hp, hchild], fun q hq => ?_⟩
  rcases nodeOf_eq_code hq with ⟨b', -, rfl⟩ | ⟨p', b', n', rfl, hp', hchild'⟩
  · rw [literalCode_toNat] at hlow
    have := b'.isLt
    omega
  · obtain ⟨rfl, rfl⟩ := ht.unique n' n b' b c hchild' hchild
    rw [honly p' hp']

/-- Every node has one path, by induction on its code: a parent is older than its child (10_state.md R43). -/
theorem TrieHolds.hasOnePath {nf : FreeCode} {t : Memory Code} (ht : TrieHolds nf t) (c : Code) (hc : IsNode nf c) :
    HasOnePath t c := by
  rcases hc with hlit | ⟨hlow, hhigh⟩
  · exact ht.literal_hasOnePath hlit
  · obtain ⟨n, b, hchild⟩ := ht.assigned c hlow hhigh
    obtain ⟨-, -, hlt, hn⟩ := ht.children n b c hchild
    exact ht.child_hasOnePath hchild (ht.hasOnePath n hn)
termination_by c.toNat

/-- Settles O25: outside IDLE the trie of the invariant gives every node one path. -/
theorem everyNodeHasExactlyOnePath : Obligations.EveryNodeHasExactlyOnePath :=
  fun _ hinv hs c hc => (hinv.trie hs).hasOnePath c hc

end Sys2Proof
end

section
/-! Nothing of one operation is used by the next (20_memory.md R65, 70_reset_and_hazards.md R273). No operation of a
unit reads the bytes the unit has emitted, so what was emitted before it is carried along unread; and START leaves
nothing else of what the unit held. -/

namespace Sys2Proof.Machine

/-! ## A change of the unit carried through an operation -/

/-- An operation's end with its unit changed by `g`. -/
def Flow.mapUnit {σ α : Type} (g : σ → σ) : Flow σ α → Flow σ α
  | .ok a u => .ok a (g u)
  | .raised u => .raised (g u)
  | .stuck f => .stuck f
  | .refuse r => .refuse r

/-- The unit after the host offered a command that ends like this: a stop and a refusal leave it as it was (`offer`). -/
def Flow.unitAfter {σ : Type} (u : σ) : Flow σ Unit → σ
  | .ok _ v => v
  | .raised v => v
  | .stuck _ => u
  | .refuse _ => u

/-- Two operations in a row carry a change of the unit along if the second does. -/
theorem bind_mapUnit {σ α β : Type} {g : σ → σ} (x : Flow σ α) {k : α → σ → Flow σ β}
    (h : ∀ a u, k a (g u) = (k a u).mapUnit g) : (x.mapUnit g).bind k = (x.bind k).mapUnit g := by
  cases x with
  | ok a u => exact h a u
  | raised u => rfl
  | stuck f => rfl
  | refuse r => rfl

theorem unitAfter_mapUnit {σ : Type} (g : σ → σ) (u : σ) (x : Flow σ Unit) :
    (x.mapUnit g).unitAfter (g u) = g (x.unitAfter u) := by
  cases x <;> rfl

/-! ## ENC carries what it emitted along -/

/-- ENC with more bytes emitted, before all others. -/
def Enc.after (sent : List Byte) (e : Enc) : Enc := { e with out := sent ++ e.out }

@[simp] theorem encAfter_state (sent : List Byte) (e : Enc) : (e.after sent).state = e.state := rfl
@[simp] theorem encAfter_fault (sent : List Byte) (e : Enc) : (e.after sent).fault = e.fault := rfl
@[simp] theorem encAfter_nf (sent : List Byte) (e : Enc) : (e.after sent).nf = e.nf := rfl
@[simp] theorem encAfter_width (sent : List Byte) (e : Enc) : (e.after sent).width = e.width := rfl
@[simp] theorem encAfter_cur (sent : List Byte) (e : Enc) : (e.after sent).cur = e.cur := rfl
@[simp] theorem encAfter_pending (sent : List Byte) (e : Enc) : (e.after sent).pending = e.pending := rfl
@[simp] theorem encAfter_trie (sent : List Byte) (e : Enc) : (e.after sent).trie = e.trie := rfl
@[simp] theorem encAfter_pkAcc (sent : List Byte) (e : Enc) : (e.after sent).pkAcc = e.pkAcc := rfl
@[simp] theorem encAfter_pkCnt (sent : List Byte) (e : Enc) : (e.after sent).pkCnt = e.pkCnt := rfl
@[simp] theorem encAfter_out (sent : List Byte) (e : Enc) : (e.after sent).out = sent ++ e.out := rfl

theorem drain_after (sent : List Byte) (fuel : Nat) (e : Enc) :
    drain fuel (e.after sent) = (drain fuel e).after sent := by
  induction fuel generalizing e with
  | zero => rfl
  | succ n ih =>
    by_cases h : 8 ≤ e.pkCnt.toNat
    · rw [drain_step n e h, ← ih, drain_step n (e.after sent) h]
      simp [Enc.after]
    · rw [drain_stop _ e (by omega), drain_stop _ (e.after sent) (Nat.not_le.mp h)]

theorem put_after (sent : List Byte) (v : Code) (w : CodeWidth) (e : Enc) :
    put v w (e.after sent) = (put v w e).after sent := by
  unfold put
  rw [← drain_after]
  rfl

theorem flushBits_after (sent : List Byte) (e : Enc) : flushBits (e.after sent) = (flushBits e).after sent := by
  by_cases h : 0 < e.pkCnt.toNat <;> simp [flushBits, emitWire, Enc.after, h]

theorem closeStream_after (sent : List Byte) (e : Enc) : closeStream (e.after sent) = (closeStream e).after sent := by
  unfold closeStream
  rw [put_after, flushBits_after]
  simp [Enc.after]

theorem addEdge_after (sent : List Byte) (n : NodeId) (b : Byte) (e : Enc) :
    addEdge n b (e.after sent) = (addEdge n b e).mapUnit (Enc.after sent) := by
  unfold addEdge
  rw [encAfter_nf]
  split
  · rfl
  · cases n <;> rfl

theorem visitByte_after (sent : List Byte) (b : Byte) (e : Enc) :
    visitByte b (e.after sent) = (visitByte b e).mapUnit (Enc.after sent) := by
  unfold visitByte
  rw [encAfter_trie, encAfter_cur]
  cases trieChild e.trie e.cur b with
  | some c => rfl
  | none =>
    simp only [addEdge_after]
    exact bind_mapUnit _ fun _ _ => rfl

theorem proactiveReset_after (sent : List Byte) (c : Code) (f : Bool) (e : Enc) :
    proactiveReset c f (e.after sent) = (proactiveReset c f e).after sent := by
  unfold proactiveReset
  rw [encAfter_nf]
  split
  · cases f <;> simp [put_after] <;> rfl
  · rfl

theorem processByte_after (sent : List Byte) (b : Byte) (la : Lookahead) (e : Enc) :
    processByte b la (e.after sent) = (processByte b la e).mapUnit (Enc.after sent) := by
  unfold processByte
  rw [visitByte_after]
  refine bind_mapUnit _ fun _ e1 => ?_
  rw [encAfter_cur]
  cases e1.cur with
  | root => rfl
  | code c =>
    cases la with
    | endOfData => exact congrArg (Flow.ok ()) (put_after sent c e1.width e1)
    | byte x =>
      have hf : flushedFlag (e1.after sent) x = flushedFlag e1 x := rfl
      simp only [hf, Flow.mapUnit, ← proactiveReset_after]
      cases flushedFlag e1 x <;> simp [put_after]

theorem whileAccumulating_after (sent : List Byte) (e : Enc) (body : Flow Enc Unit) :
    whileAccumulating (e.after sent) (body.mapUnit (Enc.after sent)) =
      (whileAccumulating e body).mapUnit (Enc.after sent) := by
  unfold whileAccumulating
  rw [encAfter_fault, encAfter_state]
  split
  · rfl
  · split <;> rfl

theorem takeDataByte_after (sent : List Byte) (x : Byte) (e : Enc) :
    takeDataByte x (e.after sent) = (takeDataByte x e).mapUnit (Enc.after sent) := by
  unfold takeDataByte
  rw [← whileAccumulating_after, encAfter_pending]
  cases e.pending with
  | none => rfl
  | some b =>
    simp only [processByte_after]
    rw [bind_mapUnit _ fun _ _ => rfl]

theorem endEncoding_after (sent : List Byte) (e : Enc) :
    endEncoding (e.after sent) = (endEncoding e).mapUnit (Enc.after sent) := by
  unfold endEncoding
  rw [← whileAccumulating_after, encAfter_pending]
  cases e.pending with
  | none => exact congrArg (fun u => whileAccumulating (e.after sent) (.ok () u)) (closeStream_after sent e)
  | some b =>
    simp only [processByte_after]
    refine congrArg (whileAccumulating (e.after sent)) (bind_mapUnit _ fun _ e1 => ?_)
    exact congrArg (Flow.ok ()) (closeStream_after sent ({ e1 with pending := none } : Enc))

/-- START leaves nothing of what ENC held but the bytes it had emitted (44_encoder.md R184). -/
theorem startEncoding_eq (e : Enc) :
    startEncoding e =
      { Enc.reset with state := .accumulating, pkAcc := 1#19, pkCnt := 1#5, out := e.out ++ [0x00#8] } := by
  simp [startEncoding, put, drain, CodeWidth.bits, Config.clearCode, resetEncTable, Enc.reset, Config.firstFree]

theorem startEncoding_after (sent : List Byte) (e : Enc) :
    startEncoding (e.after sent) = (startEncoding e).after sent := by
  simp [startEncoding_eq, Enc.after]

/-- Every command of `enc_cmd` carries what ENC emitted before along unread. -/
theorem encCommand_after (sent : List Byte) (c : Command) (e : Enc) :
    encCommand c (e.after sent) = (encCommand c e).mapUnit (Enc.after sent) := by
  cases c with
  | byte x => exact takeDataByte_after sent x e
  | finish => exact endEncoding_after sent e
  | start => exact congrArg (Flow.ok ()) (startEncoding_after sent e)

/-! ## DEC carries what it emitted along -/

/-- DEC with more bytes emitted, before all others. -/
def Dec.after (sent : List Byte) (d : Dec) : Dec := { d with out := sent ++ d.out }

@[simp] theorem decAfter_state (sent : List Byte) (d : Dec) : (d.after sent).state = d.state := rfl
@[simp] theorem decAfter_fault (sent : List Byte) (d : Dec) : (d.after sent).fault = d.fault := rfl
@[simp] theorem decAfter_cause (sent : List Byte) (d : Dec) : (d.after sent).cause = d.cause := rfl
@[simp] theorem decAfter_nf (sent : List Byte) (d : Dec) : (d.after sent).nf = d.nf := rfl
@[simp] theorem decAfter_width (sent : List Byte) (d : Dec) : (d.after sent).width = d.width := rfl
@[simp] theorem decAfter_prev (sent : List Byte) (d : Dec) : (d.after sent).prev = d.prev := rfl
@[simp] theorem decAfter_tab (sent : List Byte) (d : Dec) : (d.after sent).tab = d.tab := rfl
@[simp] theorem decAfter_upAcc (sent : List Byte) (d : Dec) : (d.after sent).upAcc = d.upAcc := rfl
@[simp] theorem decAfter_upCnt (sent : List Byte) (d : Dec) : (d.after sent).upCnt = d.upCnt := rfl
@[simp] theorem decAfter_last (sent : List Byte) (d : Dec) : (d.after sent).last = d.last := rfl
@[simp] theorem decAfter_out (sent : List Byte) (d : Dec) : (d.after sent).out = sent ++ d.out := rfl

theorem emitData_after (sent : List Byte) (q : ByteSeq) (d : Dec) :
    emitData q (d.after sent) = (emitData q d).after sent := by
  simp [emitData, Dec.after]

theorem getCode_after (sent : List Byte) (w : CodeWidth) (d : Dec) :
    getCode w (d.after sent) = (getCode w d).mapUnit (Dec.after sent) := by
  unfold getCode
  rw [decAfter_upCnt]
  split <;> rfl

theorem addSequence_after (sent : List Byte) (q : ByteSeq) (d : Dec) :
    addSequence q (d.after sent) = (addSequence q d).mapUnit (Dec.after sent) := by
  unfold addSequence
  rw [decAfter_nf]
  split <;> rfl

theorem learn_after (sent : List Byte) (p q : ByteSeq) (d : Dec) :
    learn p q (d.after sent) = (learn p q d).mapUnit (Dec.after sent) := by
  unfold learn
  rw [addSequence_after]
  exact bind_mapUnit _ fun _ _ => rfl

theorem steadyTail_after (sent : List Byte) (q : ByteSeq) (d : Dec) :
    steadyTail q (d.after sent) = (steadyTail q d).mapUnit (Dec.after sent) := by
  unfold steadyTail
  rw [decAfter_prev, emitData_after]
  cases d.prev with
  | none => rfl
  | some p =>
    simp only [learn_after]
    exact bind_mapUnit _ fun _ _ => rfl

theorem sequenceFor_after (sent : List Byte) (c : Code) (d : Dec) :
    sequenceFor c (d.after sent) = (sequenceFor c d).mapUnit (Dec.after sent) := by
  unfold sequenceFor
  rw [decAfter_nf, decAfter_tab]
  split
  · cases tabRead d.tab c <;> rfl
  · rfl

/-- A code of any class runs without reading what was emitted (45_decoder.md R219 to R226). -/
theorem runClass_after (sent : List Byte) (k : CodeClass) (v : Code) (d : Dec) :
    runClass k v (d.after sent) = (runClass k v d).mapUnit (Dec.after sent) := by
  have resolved : runResolved v (d.after sent) = (runResolved v d).mapUnit (Dec.after sent) := by
    unfold runResolved
    rw [sequenceFor_after]
    exact bind_mapUnit _ (steadyTail_after sent)
  cases k with
  | eod => rfl
  | clear => rfl
  | litFirst =>
    unfold runClass runLitFirst
    simp only [sequenceFor_after]
    refine bind_mapUnit _ fun q d1 => ?_
    rw [emitData_after]
    rfl
  | invalidFirst => rfl
  | lit => exact resolved
  | dict => exact resolved
  | kwkwk =>
    unfold runClass runKwkwk
    simp only [decAfter_prev]
    cases d.prev with
    | none => rfl
    | some p => exact steadyTail_after sent _ d
  | invalid => rfl

theorem executeCode_after (sent : List Byte) (v : Code) (w : CodeWidth) (d : Dec) :
    executeCode v w (d.after sent) = (executeCode v w d).mapUnit (Dec.after sent) := by
  have hclass : classNow v (d.after sent) = classNow v d := rfl
  unfold executeCode
  rw [hclass]
  cases classNow v d with
  | none => rfl
  | some k => exact runClass_after sent k v { d with last := ⟨v, widthValue w, true⟩ }

theorem takeCodes_after (sent : List Byte) (fuel : Nat) (d : Dec) :
    takeCodes fuel (d.after sent) = (takeCodes fuel d).mapUnit (Dec.after sent) := by
  induction fuel generalizing d with
  | zero => rfl
  | succ n ih =>
    unfold takeCodes
    simp only [decAfter_state, decAfter_fault, decAfter_width, decAfter_upCnt, getCode_after]
    split
    · refine bind_mapUnit _ fun v d1 => ?_
      rw [executeCode_after]
      exact bind_mapUnit _ fun _ d2 => ih d2
    · rfl

theorem whileOperating_after (sent : List Byte) (d : Dec) (body : Flow Dec Unit) :
    whileOperating (d.after sent) (body.mapUnit (Dec.after sent)) =
      (whileOperating d body).mapUnit (Dec.after sent) := by
  unfold whileOperating
  rw [decAfter_fault, decAfter_state]
  split
  · rfl
  · split <;> rfl

theorem takeWireByte_after (sent : List Byte) (x : Byte) (d : Dec) :
    takeWireByte x (d.after sent) = (takeWireByte x d).mapUnit (Dec.after sent) := by
  unfold takeWireByte
  rw [← whileOperating_after, decAfter_state]
  split
  · rfl
  · exact congrArg (whileOperating (d.after sent)) (takeCodes_after sent 4 (fillByte x d))

theorem endDecoding_after (sent : List Byte) (d : Dec) :
    endDecoding (d.after sent) = (endDecoding d).mapUnit (Dec.after sent) := by
  unfold endDecoding
  rw [← whileOperating_after, decAfter_state]
  split <;> rfl

/-- START leaves nothing of what DEC held but the bytes it had emitted (45_decoder.md R214). -/
theorem startDecoding_eq (d : Dec) :
    startDecoding d = { Dec.reset with state := .awaitFirst, out := d.out } := rfl

/-- Every command of `dec_cmd` carries what DEC emitted before along unread. -/
theorem decCommand_after (sent : List Byte) (c : Command) (d : Dec) :
    decCommand c (d.after sent) = (decCommand c d).mapUnit (Dec.after sent) := by
  cases c with
  | byte x => exact takeWireByte_after sent x d
  | finish => exact endDecoding_after sent d
  | start => rfl

/-! ## Inputs offered one after the other -/

/-- A token is one command of its unit in every state, or is refused in every state (30_encoding.md R71, R73). -/
theorem exec_decodeToken_uniform (u : UnitId) (tok : Token) :
    (∃ c, ∀ s, exec (decodeToken u tok) s = runCommand u c s) ∨
    ∀ s, exec (decodeToken u tok) s = .refused .reservedToken := by
  unfold decodeToken
  split
  · exact Or.inl ⟨.byte (tokenData tok), by cases u <;> exact fun _ => rfl⟩
  · split
    · split
      · exact Or.inl ⟨.finish, by cases u <;> exact fun _ => rfl⟩
      · exact Or.inr fun _ => rfl
    · split
      · split
        · exact Or.inl ⟨.start, by cases u <;> exact fun _ => rfl⟩
        · exact Or.inr fun _ => rfl
      · exact Or.inr fun _ => rfl

theorem offer_rst (s : State) : offer .rst s = hardReset s := rfl

/-- Offering a refused token changes nothing (60_exceptions.md R246). -/
theorem offer_refused {u : UnitId} {tok : Token} {s : State} {r : Refusal}
    (h : exec (decodeToken u tok) s = .refused r) : offer (.token u tok) s = s := by
  simp [offer, takeInput, h]

/-- Offering a command on `enc_cmd` changes ENC only, to where the command leaves it. -/
theorem offer_encCommand {tok : Token} {c : Command} {s : State}
    (h : exec (decodeToken .enc tok) s = runCommand .enc c s) :
    offer (.token .enc tok) s = s.withEnc ((encCommand c s.enc).unitAfter s.enc) := by
  unfold offer
  simp only [takeInput, h, runCommand, onEnc]
  cases encCommand c s.enc <;> rfl

/-- Offering a command on `dec_cmd` changes DEC only, to where the command leaves it. -/
theorem offer_decCommand {tok : Token} {c : Command} {s : State}
    (h : exec (decodeToken .dec tok) s = runCommand .dec c s) :
    offer (.token .dec tok) s = s.withDec ((decCommand c s.dec).unitAfter s.dec) := by
  unfold offer
  simp only [takeInput, h, runCommand, onDec]
  cases decCommand c s.dec <;> rfl

theorem offer_startToken_enc (s : State) : offer (startToken .enc) s = s.withEnc (startEncoding s.enc) :=
  offer_encCommand (c := .start) rfl

theorem offer_startToken_dec (s : State) : offer (startToken .dec) s = s.withDec (startDecoding s.dec) :=
  offer_decCommand (c := .start) rfl

/-- A relation of two machines that every input keeps holds after any inputs if it held before them. -/
theorem feed_keeps {R : State → State → Prop} (hoffer : ∀ x s s', R s s' → R (offer x s) (offer x s'))
    (xs : List Input) {s s' : State} (h : R s s') : R (feed xs s) (feed xs s') := by
  induction xs generalizing s s' with
  | nil => exact h
  | cons x xs ih => exact ih (hoffer x s s' h)

/-! ## Two runs from START -/

/-- The ENCs of two machines are equal but for what each had emitted before a common point, `old` and `old'`. -/
def EncsAgree (old old' : List Byte) (s s' : State) : Prop := ∃ e : Enc, s.enc = e.after old ∧ s'.enc = e.after old'

/-- The DECs of two machines are equal but for what each had emitted before a common point, `old` and `old'`. -/
def DecsAgree (old old' : List Byte) (s s' : State) : Prop := ∃ d : Dec, s.dec = d.after old ∧ s'.dec = d.after old'

/-- Whatever the host offers, the two ENCs go on to agree: a token on `enc_cmd` runs one command in both, one on
`dec_cmd` touches neither, and `rst` keeps nothing but what was emitted. -/
theorem encsAgree_offer {old old' : List Byte} (x : Input) (s s' : State) (h : EncsAgree old old' s s') :
    EncsAgree old old' (offer x s) (offer x s') := by
  obtain ⟨e, he, he'⟩ := h
  cases x with
  | rst =>
    rw [offer_rst, offer_rst]
    exact ⟨{ Enc.reset with out := e.out }, by rw [hardReset_enc, he]; rfl, by rw [hardReset_enc, he']; rfl⟩
  | token u tok =>
    rcases exec_decodeToken_uniform u tok with ⟨c, hc⟩ | hr
    · cases u with
      | enc =>
        rw [offer_encCommand (hc s), offer_encCommand (hc s'), he, he', encCommand_after, encCommand_after,
          unitAfter_mapUnit, unitAfter_mapUnit]
        exact ⟨_, rfl, rfl⟩
      | dec =>
        rw [offer_decCommand (hc s), offer_decCommand (hc s')]
        exact ⟨e, he, he'⟩
    · rw [offer_refused (hr s), offer_refused (hr s')]
      exact ⟨e, he, he'⟩

/-- Whatever the host offers, the two DECs go on to agree. -/
theorem decsAgree_offer {old old' : List Byte} (x : Input) (s s' : State) (h : DecsAgree old old' s s') :
    DecsAgree old old' (offer x s) (offer x s') := by
  obtain ⟨d, hd, hd'⟩ := h
  cases x with
  | rst =>
    rw [offer_rst, offer_rst]
    exact ⟨{ Dec.reset with out := d.out }, by rw [hardReset_dec, hd]; rfl, by rw [hardReset_dec, hd']; rfl⟩
  | token u tok =>
    rcases exec_decodeToken_uniform u tok with ⟨c, hc⟩ | hr
    · cases u with
      | enc =>
        rw [offer_encCommand (hc s), offer_encCommand (hc s')]
        exact ⟨d, hd, hd'⟩
      | dec =>
        rw [offer_decCommand (hc s), offer_decCommand (hc s'), hd, hd', decCommand_after, decCommand_after,
          unitAfter_mapUnit, unitAfter_mapUnit]
        exact ⟨_, rfl, rfl⟩
    · rw [offer_refused (hr s), offer_refused (hr s')]
      exact ⟨d, hd, hd'⟩

/-- Right after START the two ENCs agree, whatever they held (44_encoder.md R184). -/
theorem encsAgree_start (s s' : State) :
    EncsAgree s.enc.out s'.enc.out (offer (startToken .enc) s) (offer (startToken .enc) s') := by
  rw [offer_startToken_enc, offer_startToken_enc]
  exact ⟨startEncoding Enc.reset, by simp [startEncoding_eq, Enc.after, Enc.reset],
    by simp [startEncoding_eq, Enc.after, Enc.reset]⟩

/-- Right after START the two DECs agree, whatever they held (45_decoder.md R214). -/
theorem decsAgree_start (s s' : State) :
    DecsAgree s.dec.out s'.dec.out (offer (startToken .dec) s) (offer (startToken .dec) s') := by
  rw [offer_startToken_dec, offer_startToken_dec]
  exact ⟨startDecoding Dec.reset, by simp [startDecoding_eq, Dec.after, Dec.reset],
    by simp [startDecoding_eq, Dec.after, Dec.reset]⟩

/-- Settles O57: after START the unit is the same in both runs but for what was emitted before, and every input keeps
it so, as no command reads what was emitted. -/
theorem nothingOfOneOperationIsUsedByTheNext : Obligations.NothingOfOneOperationIsUsedByTheNext := by
  intro xs s s'
  constructor
  · obtain ⟨e, he, he'⟩ : EncsAgree s.enc.out s'.enc.out
        (feed (startToken .enc :: xs) s) (feed (startToken .enc :: xs) s') :=
      feed_keeps encsAgree_offer xs (encsAgree_start s s')
    exact ⟨e.out, by rw [he, encAfter_out], by rw [he, he']; rfl⟩
  · obtain ⟨d, hd, hd'⟩ : DecsAgree s.dec.out s'.dec.out
        (feed (startToken .dec :: xs) s) (feed (startToken .dec :: xs) s') :=
      feed_keeps decsAgree_offer xs (decsAgree_start s s')
    exact ⟨d.out, by rw [hd, decAfter_out], by rw [hd, hd']; rfl⟩

end Sys2Proof.Machine
end

section
/-! Which instruction changes which field of ENC (10_state.md R22 to R28): every way an instruction that answers a next
state can change ENC, said once for all of them. -/

namespace Sys2Proof.Machine

/-! ## The other unit, the waiting inputs and the value returned -/

theorem onEnc_keeps {f : Enc → Flow Enc Unit} {s t : State} (h : onEnc f s = .next t) :
    t.dec = s.dec ∧ t.input = s.input ∧ t.returned = s.returned := by
  obtain ⟨e, -, rfl⟩ := onEnc_next.mp h
  exact ⟨rfl, rfl, rfl⟩

theorem onDec_keeps {f : Dec → Flow Dec Unit} {s t : State} (h : onDec f s = .next t) :
    t.enc = s.enc ∧ t.input = s.input ∧ t.returned = s.returned := by
  obtain ⟨d, -, rfl⟩ := onDec_next.mp h
  exact ⟨rfl, rfl, rfl⟩

theorem onEncReturning_keeps {α : Type} {f : Enc → Flow Enc α} {r : α → Returned} {s t : State}
    (h : onEncReturning f r s = .next t) : t.dec = s.dec ∧ t.input = s.input := by
  obtain ⟨a, e, -, rfl⟩ | ⟨e, -, rfl⟩ := onEncReturning_next.mp h <;> exact ⟨rfl, rfl⟩

theorem onDecReturning_keeps {α : Type} {f : Dec → Flow Dec α} {r : α → Returned} {s t : State}
    (h : onDecReturning f r s = .next t) : t.enc = s.enc ∧ t.input = s.input := by
  obtain ⟨a, d, -, rfl⟩ | ⟨d, -, rfl⟩ := onDecReturning_next.mp h <;> exact ⟨rfl, rfl⟩

/-- A returning ENC micro-operation returned or raised in the ENC the step leaves. -/
theorem onEncReturning_enc {α : Type} {f : Enc → Flow Enc α} {r : α → Returned} {s t : State}
    (h : onEncReturning f r s = .next t) : (∃ a, f s.enc = .ok a t.enc) ∨ f s.enc = .raised t.enc := by
  obtain ⟨a, e, he, rfl⟩ | ⟨e, he, rfl⟩ := onEncReturning_next.mp h
  · exact Or.inl ⟨a, he⟩
  · exact Or.inr he

/-- A returning DEC micro-operation returned or raised in the DEC the step leaves. -/
theorem onDecReturning_dec {α : Type} {f : Dec → Flow Dec α} {r : α → Returned} {s t : State}
    (h : onDecReturning f r s = .next t) : (∃ a, f s.dec = .ok a t.dec) ∨ f s.dec = .raised t.dec := by
  obtain ⟨a, d, hd, rfl⟩ | ⟨d, hd, rfl⟩ := onDecReturning_next.mp h
  · exact Or.inl ⟨a, hd⟩
  · exact Or.inr hd

/-! ## ENC -/

/-- `EncChange e i e'`: instruction `i` may take ENC from `e` to `e'`, as far as the frames say: each constructor names
what the instruction keeps, or all it changes. -/
inductive EncChange (e : Enc) : Instr → Enc → Prop
  | kept (i : Instr) : EncChange e i e
  | start {e' : Enc} (hout : e.out <+: e'.out) : EncChange e .encStart e'
  | finish {e' : Enc} (hout : e.out <+: e'.out) : EncChange e .encEnd e'
  | byte (x : Byte) {e' : Enc} (hstate : e'.state = e.state) (hout : e.out <+: e'.out) : EncChange e (.encByte x) e'
  | step (b : Byte) (la : Lookahead) {e' : Enc} (hstate : e'.state = e.state) (hpending : e'.pending = e.pending)
      (hout : e.out <+: e'.out) : EncChange e (.encStep b la) e'
  | visit (b : Byte) {e' : Enc} (hstate : e'.state = e.state) (hpending : e'.pending = e.pending)
      (hacc : e'.pkAcc = e.pkAcc) (hcnt : e'.pkCnt = e.pkCnt) (hout : e'.out = e.out) : EncChange e (.visit b) e'
  | fault (n : NodeId) (b : Byte) (k : EncFault) : EncChange e (.addEntry (.edge n b)) (e.enterFault k)
  | entry (n : NodeId) (b : Byte) (nf : FreeCode) (w : CodeWidth) (t : Memory Code) :
      EncChange e (.addEntry (.edge n b)) { e with nf := nf, width := w, trie := t }
  | tableReset : EncChange e (.tableReset .enc) (resetEncTable e)
  | put (v : Code) (w : CodeWidth) (acc : Accumulator) (cnt : BitCount) (sent : List Byte) :
      EncChange e (.put v w) { e with pkAcc := acc, pkCnt := cnt, out := e.out ++ sent }
  | flush (acc : Accumulator) (cnt : BitCount) (sent : List Byte) :
      EncChange e .flush { e with pkAcc := acc, pkCnt := cnt, out := e.out ++ sent }

theorem onDec_encChange {i : Instr} {f : Dec → Flow Dec Unit} {s t : State} (h : onDec f s = .next t) :
    EncChange s.enc i t.enc ∧ t.input = s.input := by
  obtain ⟨henc, hin, -⟩ := onDec_keeps h
  exact ⟨henc ▸ .kept i, hin⟩

theorem onDecReturning_encChange {α : Type} {i : Instr} {f : Dec → Flow Dec α} {r : α → Returned} {s t : State}
    (h : onDecReturning f r s = .next t) : EncChange s.enc i t.enc ∧ t.input = s.input := by
  obtain ⟨henc, hin⟩ := onDecReturning_keeps h
  exact ⟨henc ▸ .kept i, hin⟩

/-- ENC_BYTE keeps ENC.state (44_encoder.md R185). -/
theorem takeDataByte_encChange {x : Byte} {e e' : Enc} (h : (takeDataByte x e).Leaves e') :
    EncChange e (.encByte x) e' := by
  refine .byte x ?_ (encCommand_out (c := .byte x) h)
  obtain ⟨-, -, ⟨-, rfl⟩ | ⟨b, -, ⟨-, rfl⟩ | ⟨e1, hp, rfl⟩⟩⟩ := takeDataByte_leaves h
  · rfl
  · rfl
  · exact (processByte_frame hp).1

/-- ENC_STEP keeps ENC.state and the byte held (44_encoder.md R186). -/
theorem processByte_encChange {b : Byte} {la : Lookahead} {e e' : Enc} (h : (processByte b la e).Leaves e') :
    EncChange e (.encStep b la) e' := by
  rcases processByte_ends b la e with ⟨-, hr⟩ | ⟨e1, hok⟩
  · rw [hr] at h
    obtain rfl := raised_leaves.mp h
    exact .step b la rfl rfl (List.prefix_refl _)
  · obtain ⟨hstate, -, hpending, hout⟩ := processByte_frame hok
    rw [hok] at h
    obtain rfl := ok_leaves.mp h
    exact .step b la hstate hpending hout

/-- VISIT keeps ENC.state, the byte held, the packer and the port (42_encode_dictionary.md R143). -/
theorem execVisit_encChange {b : Byte} {s t : State} (h : execVisit b s = .next t) :
    EncChange s.enc (.visit b) t.enc := by
  rcases onEncReturning_enc h with ⟨g, hok⟩ | hr
  · obtain ⟨hstate, -, hpending, hacc, hcnt, hout⟩ := visitByte_frame hok
    exact .visit b hstate hpending hacc hcnt hout
  · rcases visitByte_cases b s.enc with ⟨c, -, hv⟩ | ⟨-, -, hv⟩ | ⟨-, -, n, -, hv⟩ <;> simp [hv] at hr
    rw [← hr]
    exact .visit b rfl rfl rfl rfl rfl

/-- ADD_ENTRY(ENC) raises, or changes the next free code, the width and the trie (41_code_table.md R124). -/
theorem execAddEdge_encChange {n : NodeId} {b : Byte} {s t : State} (h : execAddEntry (.edge n b) s = .next t) :
    EncChange s.enc (.addEntry (.edge n b)) t.enc := by
  have hends := onEncReturning_enc h
  rcases addEdge_cases n b s.enc with ⟨-, ha⟩ | ⟨-, -, ha⟩ | ⟨-, m, -, ha⟩ <;> simp [ha] at hends <;> rw [← hends]
  · exact .fault n b _
  · exact .entry n b _ _ _

/-- Every instruction that answers a next state changes ENC as its frame says and leaves the waiting inputs. -/
theorem exec_encChange {i : Instr} {s t : State} (h : exec i s = .next t) :
    EncChange s.enc i t.enc ∧ t.input = s.input := by
  cases i
  case reservedOp3 | reservedEndData | reservedStartData => cases h
  case decByte | decEnd | eod | clear | litFirst | invalidFirst | lit | dict | kwkwk | invalid | addDec | decExec |
      steadyTail =>
    exact onDec_encChange h
  case get | bytesFor => exact onDecReturning_encChange h
  case decStart | fill | childNodeB | childNodeS | getNode =>
    cases h
    exact ⟨.kept _, rfl⟩
  case encByte x =>
    obtain ⟨e, he, rfl⟩ := onEnc_next.mp h
    exact ⟨takeDataByte_encChange he, rfl⟩
  case encEnd =>
    obtain ⟨e, he, rfl⟩ := onEnc_next.mp h
    exact ⟨.finish (encCommand_out (c := .finish) he), rfl⟩
  case encStart =>
    cases h
    exact ⟨.start (startEncoding_out s.enc), rfl⟩
  case encStep b la =>
    obtain ⟨e, he, rfl⟩ := onEnc_next.mp h
    exact ⟨processByte_encChange he, rfl⟩
  case visit b => exact ⟨execVisit_encChange h, (onEncReturning_keeps h).2⟩
  case addEntry p =>
    cases p with
    | edge n b => exact ⟨execAddEdge_encChange h, (onEncReturning_keeps h).2⟩
    | sequence q => exact onDecReturning_encChange h
  case tableReset u =>
    cases u with
    | enc =>
      cases h
      exact ⟨.tableReset, rfl⟩
    | dec =>
      cases h
      exact ⟨.kept _, rfl⟩
  case put v w =>
    cases h
    obtain ⟨sent, acc, cnt, heq, -⟩ := put_frame v w s.enc
    exact ⟨by rw [withEnc_enc, heq]; exact .put v w acc cnt sent, rfl⟩
  case flush =>
    cases h
    obtain ⟨sent, heq⟩ := flushBits_frame s.enc
    exact ⟨by rw [withEnc_enc, heq]; exact .flush _ _ sent, rfl⟩

/-- Settles O53: by the frames of the instructions, one case each. -/
theorem encFieldsChangeOnlyByTheirWriters : Obligations.EncFieldsChangeOnlyByTheirWriters := by
  intro i s t h
  obtain ⟨hchange, hin⟩ := exec_encChange h
  generalize s.enc = e at hchange ⊢
  generalize t.enc = e' at hchange ⊢
  cases hchange with
  | kept i => simp [hin]
  | start hout => simp [hin, hout]
  | finish hout => simp [hin, hout]
  | byte x hstate hout => simp [hin, hstate, hout]
  | step b la hstate hpending hout => simp [hin, hstate, hpending, hout]
  | visit b hstate hpending hacc hcnt hout => simp [hin, hstate, hpending, hacc, hcnt, hout]
  | fault n b k => simp [hin]
  | entry n b nf w tr => simp [hin]
  | tableReset => simp [hin]
  | put v w acc cnt sent => simp [hin]
  | flush acc cnt sent => simp [hin]

end Sys2Proof.Machine
end

section
/-! Which instruction changes which field of DEC (10_state.md R29 to R34), as for ENC, and which one leaves a returned
value. -/

namespace Sys2Proof.Machine

/-! ## What the decoder's operations keep -/

/-- What a change of the table, of the previous sequence and of the output port keeps: the control state, the unpacker,
DEC.last and what was emitted. -/
structure KeepsControl (d d' : Dec) : Prop where
  state : d'.state = d.state
  upAcc : d'.upAcc = d.upAcc
  upCnt : d'.upCnt = d.upCnt
  last : d'.last = d.last
  out : d.out <+: d'.out

/-- STEADY_TAIL keeps the control state, the unpacker and DEC.last (45_decoder.md R226). -/
theorem steadyTail_keepsControl {q : ByteSeq} {d d' : Dec} (h : (steadyTail q d).Leaves d') : KeepsControl d d' := by
  rcases steadyTail_cases q d with ⟨-, hs⟩ | ⟨p, -, ⟨-, hr⟩ | ⟨-, hok⟩⟩
  · simp [hs] at h
  · rw [hr] at h
    obtain rfl := raised_leaves.mp h
    exact ⟨rfl, rfl, rfl, rfl, ⟨q.bytes, rfl⟩⟩
  · rw [hok] at h
    obtain rfl := ok_leaves.mp h
    exact ⟨rfl, rfl, rfl, rfl, ⟨q.bytes, rfl⟩⟩

/-- With room in the table STEADY_TAIL takes no fault (45_decoder.md R226). -/
theorem steadyTail_noFault {q : ByteSeq} {d d' : Dec} (hnf : d.nf.toNat ≠ 4096) (h : (steadyTail q d).Leaves d') :
    d'.fault = d.fault ∧ d'.cause = d.cause := by
  rcases steadyTail_cases q d with ⟨-, hs⟩ | ⟨p, -, ⟨hfull, -⟩ | ⟨-, hok⟩⟩
  · simp [hs] at h
  · exact absurd hfull hnf
  · rw [hok] at h
    obtain rfl := ok_leaves.mp h
    exact ⟨rfl, rfl⟩

/-- LIT and DICT keep what their STEADY_TAIL keeps (45_decoder.md R222, R223). -/
theorem runResolved_keepsControl {v : Code} {d d' : Dec} (h : (runResolved v d).Leaves d') : KeepsControl d d' := by
  unfold runResolved at h
  rcases sequenceFor_cases v d with ⟨-, q, -, hq⟩ | ⟨-, hq⟩
  · rw [hq, bind_ok] at h
    exact steadyTail_keepsControl h
  · simp [hq] at h

/-- KWKWK is STEADY_TAIL of a sequence built from the previous one (45_decoder.md R224). -/
theorem runKwkwk_leaves {d d' : Dec} (h : (runKwkwk d).Leaves d') : ∃ q, (steadyTail q d).Leaves d' := by
  unfold runKwkwk at h
  cases hp : d.prev with
  | none => simp [hp] at h
  | some p =>
    rw [hp] at h
    exact ⟨_, h⟩

/-- LIT_FIRST emits its sequence, remembers it and goes to STEADY (45_decoder.md R221). -/
theorem runLitFirst_leaves {v : Code} {d d' : Dec} (h : (runLitFirst v d).Leaves d') :
    ∃ q, d' = { emitData q d with prev := some q, state := .steady } := by
  unfold runLitFirst at h
  rcases sequenceFor_cases v d with ⟨-, q, -, hq⟩ | ⟨-, hq⟩
  · rw [hq, bind_ok] at h
    exact ⟨q, ok_leaves.mp h⟩
  · simp [hq] at h

/-- A wire code executed under a class has that class and runs it (30_encoding.md R77). -/
theorem runAs_leaves {k : CodeClass} {v : Code} {d d' : Dec} (h : (runAs k v d).Leaves d') :
    classNow v d = some k ∧ (runClass k v d).Leaves d' := by
  by_cases hk : classNow v d = some k
  · rw [runAs_of_class hk] at h
    exact ⟨hk, h⟩
  · simp [runAs_refused hk] at h

/-- KWKWK never takes a fault: its code is the next free code, so the table is not full (30_encoding.md R77). -/
theorem runAs_kwkwk_noFault {v : Code} {d d' : Dec} (h : (runAs .kwkwk v d).Leaves d') :
    d'.fault = d.fault ∧ d'.cause = d.cause := by
  obtain ⟨hclass, hrun⟩ := runAs_leaves h
  have hf : d.fault = .none := by
    by_contra hf
    simp [classNow_faulted v hf] at hclass
  have hv : v.toNat = d.nf.toNat := by
    rw [classNow_eq v hf, codeClass_spec] at hclass
    simp at hclass
    exact hclass.2.2
  have := v.isLt
  obtain ⟨q, hq⟩ := runKwkwk_leaves hrun
  exact steadyTail_noFault (by omega) hq

/-! ## DEC -/

/-- `DecChange d i d'`: instruction `i` may take DEC from `d` to `d'`, as far as the frames say: each constructor names
what the instruction keeps, or all it changes. -/
inductive DecChange (d : Dec) : Instr → Dec → Prop
  | kept (i : Instr) : DecChange d i d
  | start : DecChange d .decStart (startDecoding d)
  | byte (x : Byte) {d' : Dec} (hout : d.out <+: d'.out) : DecChange d (.decByte x) d'
  | finish (k : DecFault) (c : Cause) : DecChange d .decEnd (d.enterFault k c)
  | eod : DecChange d .eod { d with state := .done }
  | clear : DecChange d .clear { resetDecTable d with prev := none, state := .awaitFirst }
  | litFirst (v : Code) (q : ByteSeq) :
      DecChange d (.litFirst v) { emitData q d with prev := some q, state := .steady }
  | invalidFirst (v : Code) (k : DecFault) (c : Cause) : DecChange d (.invalidFirst v) (d.enterFault k c)
  | lit (v : Code) {d' : Dec} (hkeep : KeepsControl d d') : DecChange d (.lit v) d'
  | dict (v : Code) {d' : Dec} (hkeep : KeepsControl d d') : DecChange d (.dict v) d'
  | kwkwk (v : Code) {d' : Dec} (hkeep : KeepsControl d d') (hfault : d'.fault = d.fault)
      (hcause : d'.cause = d.cause) : DecChange d (.kwkwk v) d'
  | invalid (v : Code) (k : DecFault) (c : Cause) : DecChange d (.invalid v) (d.enterFault k c)
  | decExec (v : Code) (w : CodeWidth) {d' : Dec} (hacc : d'.upAcc = d.upAcc) (hcnt : d'.upCnt = d.upCnt)
      (hout : d.out <+: d'.out) : DecChange d (.decExec v w) d'
  | steadyTail (q : ByteSeq) {d' : Dec} (hkeep : KeepsControl d d') : DecChange d (.steadyTail q) d'
  | learnFault (p q : ByteSeq) (k : DecFault) (c : Cause) : DecChange d (.addDec p q) (d.enterFault k c)
  | learn (p q : ByteSeq) (nf : FreeCode) (w : CodeWidth) (t : Memory ByteSeq) :
      DecChange d (.addDec p q) { d with nf := nf, width := w, tab := t }
  | entryFault (q : ByteSeq) (k : DecFault) (c : Cause) : DecChange d (.addEntry (.sequence q)) (d.enterFault k c)
  | entry (q : ByteSeq) (nf : FreeCode) (w : CodeWidth) (t : Memory ByteSeq) :
      DecChange d (.addEntry (.sequence q)) { d with nf := nf, width := w, tab := t }
  | tableReset : DecChange d (.tableReset .dec) (resetDecTable d)
  | fill (x : Byte) : DecChange d (.fill x) (fillByte x d)
  | get (w : CodeWidth) (acc : Accumulator) (cnt : BitCount) :
      DecChange d (.get w) { d with upAcc := acc, upCnt := cnt }

/-- DEC_END raises or does nothing (45_decoder.md R216). -/
theorem endDecoding_decChange {d d' : Dec} (h : (endDecoding d).Leaves d') : DecChange d .decEnd d' := by
  obtain ⟨-, -, ⟨-, rfl⟩ | ⟨-, rfl⟩⟩ := endDecoding_leaves h
  · exact .kept _
  · exact .finish _ _

/-- A wire code changes DEC as the rule of its class says (45_decoder.md R219 to R225). -/
theorem runAs_decChange {k : CodeClass} {v : Code} {d d' : Dec} (h : (runAs k v d).Leaves d') :
    DecChange d (codeInstr k v) d' := by
  obtain ⟨-, hrun⟩ := runAs_leaves h
  cases k with
  | eod =>
    obtain rfl := ok_leaves.mp hrun
    exact .eod
  | clear =>
    obtain rfl := ok_leaves.mp hrun
    exact .clear
  | litFirst =>
    obtain ⟨q, rfl⟩ := runLitFirst_leaves hrun
    exact .litFirst v q
  | invalidFirst =>
    obtain rfl := raised_leaves.mp hrun
    exact .invalidFirst v _ _
  | lit => exact .lit v (runResolved_keepsControl hrun)
  | dict => exact .dict v (runResolved_keepsControl hrun)
  | kwkwk =>
    obtain ⟨q, hq⟩ := runKwkwk_leaves hrun
    obtain ⟨hfault, hcause⟩ := runAs_kwkwk_noFault h
    exact .kwkwk v (steadyTail_keepsControl hq) hfault hcause
  | invalid =>
    obtain rfl := raised_leaves.mp hrun
    exact .invalid v _ _

/-- ADD_DEC raises, or changes the next free code, the width and the table (43_decode_dictionary.md R162). -/
theorem learn_decChange {p q : ByteSeq} {d d' : Dec} (h : (learn p q d).Leaves d') : DecChange d (.addDec p q) d' := by
  rcases learn_cases p q d with ⟨-, hl⟩ | ⟨-, hl⟩
  · rw [hl] at h
    obtain rfl := raised_leaves.mp h
    exact .learnFault p q _ _
  · rw [hl] at h
    obtain rfl := ok_leaves.mp h
    exact .learn p q _ _ _

/-- ADD_ENTRY(DEC) raises, or changes the next free code, the width and the table (41_code_table.md R124). -/
theorem execAddSequence_decChange {q : ByteSeq} {s t : State} (h : execAddEntry (.sequence q) s = .next t) :
    DecChange s.dec (.addEntry (.sequence q)) t.dec := by
  have hends := onDecReturning_dec h
  rcases addSequence_cases q s.dec with ⟨-, ha⟩ | ⟨-, ha⟩ <;> simp [ha] at hends <;> rw [← hends]
  · exact .entryFault q _ _
  · exact .entry q _ _ _

/-- GET changes the unpacker only (40_bit_channel.md R104). -/
theorem execGet_decChange {w : CodeWidth} {s t : State} (h : execGet w s = .next t) :
    DecChange s.dec (.get w) t.dec := by
  have hends := onDecReturning_dec h
  rcases getCode_cases w s.dec with ⟨-, v, hg, -⟩ | ⟨-, hg⟩ <;> simp [hg] at hends
  rw [← hends]
  exact .get w _ _

/-- BYTES_FOR leaves DEC as it is (43_decode_dictionary.md R160). -/
theorem execBytesFor_keeps_dec {c : Code} {s t : State} (h : execBytesFor c s = .next t) : t.dec = s.dec := by
  have hends := onDecReturning_dec h
  rcases sequenceFor_cases c s.dec with ⟨-, q, -, hq⟩ | ⟨-, hq⟩ <;> simp [hq] at hends
  exact hends.symm

/-- Every instruction that answers a next state changes DEC as its frame says. -/
theorem exec_decChange {i : Instr} {s t : State} (h : exec i s = .next t) : DecChange s.dec i t.dec := by
  cases i
  case reservedOp3 | reservedEndData | reservedStartData => cases h
  case encByte | encEnd | encStep =>
    rw [(onEnc_keeps h).1]
    exact .kept _
  case visit =>
    rw [(onEncReturning_keeps h).1]
    exact .kept _
  case encStart | put | flush | childNodeB | childNodeS | getNode =>
    cases h
    exact .kept _
  case decByte x =>
    obtain ⟨d, hd, rfl⟩ := onDec_next.mp h
    exact .byte x (decCommand_out (c := .byte x) hd)
  case decEnd =>
    obtain ⟨d, hd, rfl⟩ := onDec_next.mp h
    exact endDecoding_decChange hd
  case decStart =>
    cases h
    exact .start
  case eod | clear | litFirst | invalidFirst | lit | dict | kwkwk | invalid =>
    obtain ⟨d, hd, rfl⟩ := onDec_next.mp h
    exact runAs_decChange hd
  case fill x =>
    cases h
    exact .fill x
  case get w => exact execGet_decChange h
  case tableReset u =>
    cases u <;> cases h
    · exact .kept _
    · exact .tableReset
  case addEntry p =>
    cases p with
    | edge n b =>
      rw [(onEncReturning_keeps h).1]
      exact .kept _
    | sequence q => exact execAddSequence_decChange h
  case bytesFor c =>
    rw [execBytesFor_keeps_dec h]
    exact .kept _
  case addDec p q =>
    obtain ⟨d, hd, rfl⟩ := onDec_next.mp h
    exact learn_decChange hd
  case decExec v w =>
    obtain ⟨d, hd, rfl⟩ := onDec_next.mp h
    obtain ⟨hacc, hcnt, -, hout⟩ := executeCode_keeps hd
    exact .decExec v w hacc hcnt hout
  case steadyTail q =>
    obtain ⟨d, hd, rfl⟩ := onDec_next.mp h
    exact .steadyTail q (steadyTail_keepsControl hd)

/-! ## The value returned -/

/-- The micro-operations that return a value when they run on their own (log entry 7). -/
def ReturnsValue (i : Instr) : Prop :=
  (∃ w, i = .get w) ∨ (∃ p, i = .addEntry p) ∨ (∃ n b, i = .childNodeB n b) ∨ (∃ n q, i = .childNodeS n q) ∨
    (∃ q, i = .getNode q) ∨ (∃ b, i = .visit b) ∨ ∃ c, i = .bytesFor c

/-- Only these leave a returned value (log entry 7). -/
theorem exec_returned {i : Instr} {s t : State} (h : exec i s = .next t) :
    t.returned = s.returned ∨ ReturnsValue i := by
  cases i
  case get | addEntry | childNodeB | childNodeS | getNode | visit | bytesFor => exact Or.inr (by simp [ReturnsValue])
  case reservedOp3 | reservedEndData | reservedStartData => cases h
  case encByte | encEnd | encStep => exact Or.inl (onEnc_keeps h).2.2
  case decByte | decEnd | eod | clear | litFirst | invalidFirst | lit | dict | kwkwk | invalid | addDec | decExec |
      steadyTail =>
    exact Or.inl (onDec_keeps h).2.2
  case encStart | decStart | put | flush | fill =>
    cases h
    exact Or.inl rfl
  case tableReset u => cases u <;> cases h <;> exact Or.inl rfl

/-- Settles O54: by the frames of the instructions, one case each. -/
theorem decFieldsChangeOnlyByTheirWriters : Obligations.DecFieldsChangeOnlyByTheirWriters := by
  intro i s t h
  have hreturned : t.returned ≠ s.returned → ReturnsValue i := fun hne => (exec_returned h).resolve_left hne
  have hchange := exec_decChange h
  generalize s.dec = d at hchange ⊢
  generalize t.dec = d' at hchange ⊢
  cases hchange with
  | kept i => simpa [ReturnsValue] using hreturned
  | start => simpa [ReturnsValue, startDecoding_eq] using hreturned
  | byte x hout => simpa [ReturnsValue, hout] using hreturned
  | finish k c => simpa [ReturnsValue] using hreturned
  | eod => simpa [ReturnsValue] using hreturned
  | clear => simpa [ReturnsValue] using hreturned
  | litFirst v q => simpa [ReturnsValue] using hreturned
  | invalidFirst v k c => simpa [ReturnsValue] using hreturned
  | lit v hkeep =>
    obtain ⟨hstate, hacc, hcnt, hlast, hout⟩ := hkeep
    simpa [ReturnsValue, hstate, hacc, hcnt, hlast, hout] using hreturned
  | dict v hkeep =>
    obtain ⟨hstate, hacc, hcnt, hlast, hout⟩ := hkeep
    simpa [ReturnsValue, hstate, hacc, hcnt, hlast, hout] using hreturned
  | kwkwk v hkeep hfault hcause =>
    obtain ⟨hstate, hacc, hcnt, hlast, hout⟩ := hkeep
    simpa [ReturnsValue, hstate, hacc, hcnt, hlast, hout, hfault, hcause] using hreturned
  | invalid v k c => simpa [ReturnsValue] using hreturned
  | decExec v w hacc hcnt hout => simpa [ReturnsValue, hacc, hcnt, hout] using hreturned
  | steadyTail q hkeep =>
    obtain ⟨hstate, hacc, hcnt, hlast, hout⟩ := hkeep
    simpa [ReturnsValue, hstate, hacc, hcnt, hlast, hout] using hreturned
  | learnFault p q k c => simpa [ReturnsValue] using hreturned
  | learn p q nf w tab => simpa [ReturnsValue] using hreturned
  | entryFault q k c => simp
  | entry q nf w tab => simp
  | tableReset => simpa [ReturnsValue] using hreturned
  | fill x => simpa [ReturnsValue] using hreturned
  | get w acc cnt => simp

end Sys2Proof.Machine
end

section
/-! ADD_ENTRY and VISIT: what each stores, and what it leaves as it is (41_code_table.md R124, 42_encode_dictionary.md
R143). -/

namespace Sys2Proof.Machine

/-! ## Steps built from a returning operation -/

theorem onEncReturning_ok {α : Type} {f : Enc → Flow Enc α} {r : α → Returned} {s : State} {a : α} {e : Enc}
    (h : f s.enc = .ok a e) : onEncReturning f r s = .next ((s.withEnc e).withReturned (some (r a))) :=
  onEncReturning_next.mpr (Or.inl ⟨a, e, h, rfl⟩)

theorem onEncReturning_raised {α : Type} {f : Enc → Flow Enc α} {r : α → Returned} {s : State} {e : Enc}
    (h : f s.enc = .raised e) : onEncReturning f r s = .next ((s.withEnc e).withReturned none) :=
  onEncReturning_next.mpr (Or.inr ⟨e, h, rfl⟩)

theorem onDecReturning_ok {α : Type} {f : Dec → Flow Dec α} {r : α → Returned} {s : State} {a : α} {d : Dec}
    (h : f s.dec = .ok a d) : onDecReturning f r s = .next ((s.withDec d).withReturned (some (r a))) :=
  onDecReturning_next.mpr (Or.inl ⟨a, d, h, rfl⟩)

theorem onDecReturning_raised {α : Type} {f : Dec → Flow Dec α} {r : α → Returned} {s : State} {d : Dec}
    (h : f s.dec = .raised d) : onDecReturning f r s = .next ((s.withDec d).withReturned none) :=
  onDecReturning_next.mpr (Or.inr ⟨d, h, rfl⟩)

theorem onEncReturning_refuse {α : Type} {f : Enc → Flow Enc α} {r : α → Returned} {s : State} {x : Refusal}
    (h : f s.enc = .refuse x) : onEncReturning f r s = .refused x := by
  simp [onEncReturning, h, Flow.toOutcome]

theorem onDecReturning_refuse {α : Type} {f : Dec → Flow Dec α} {r : α → Returned} {s : State} {x : Refusal}
    (h : f s.dec = .refuse x) : onDecReturning f r s = .refused x := by
  simp [onDecReturning, h, Flow.toOutcome]

/-! ## The ends of ADD_ENTRY and VISIT, each under its condition -/

/-- With room in the table ADD_ENTRY(ENC) stores an edge of a non-root node. -/
theorem addEdge_stores {e : Enc} (h : e.nf.toNat ≠ 4096) (n : Code) (b : Byte) :
    addEdge (.code n) b e =
      .ok (slotCode e.nf)
        { e with
          trie := trieSetChild n b (slotCode e.nf) e.trie
          nf := e.nf + 1#13
          width := widthFor (e.nf + 1#13).toNat } := by
  rcases addEdge_cases (.code n) b e with ⟨hfull, -⟩ | ⟨-, hroot, -⟩ | ⟨-, c, hc, hok⟩
  · exact absurd hfull h
  · cases hroot
  · cases hc
    exact hok

/-- In a full table ADD_ENTRY(ENC) raises, whatever the edge. -/
theorem addEdge_full {e : Enc} (h : e.nf.toNat = 4096) (n : NodeId) (b : Byte) :
    addEdge n b e = .raised (e.enterFault .tableOverflow) := by
  rcases addEdge_cases n b e with ⟨-, hraised⟩ | ⟨hroom, -⟩ | ⟨hroom, -⟩
  · exact hraised
  · exact absurd h hroom
  · exact absurd h hroom

/-- With room in the table an edge of ROOT is refused. -/
theorem addEdge_root {e : Enc} (h : e.nf.toNat ≠ 4096) (b : Byte) : addEdge .root b e = .refuse .fixedEdge := by
  rcases addEdge_cases .root b e with ⟨hfull, -⟩ | ⟨-, -, hrefused⟩ | ⟨-, c, hc, -⟩
  · exact absurd hfull h
  · exact hrefused
  · cases hc

/-- With room in the table ADD_ENTRY(DEC) stores its sequence. -/
theorem addSequence_stores {d : Dec} (h : d.nf.toNat ≠ 4096) (q : ByteSeq) :
    addSequence q d =
      .ok (slotCode d.nf)
        { d with
          tab := tabWrite (slotCode d.nf) q d.tab
          nf := d.nf + 1#13
          width := widthFor ((d.nf + 1#13).toNat + 1) } := by
  rcases addSequence_cases q d with ⟨hfull, -⟩ | ⟨-, hok⟩
  · exact absurd hfull h
  · exact hok

/-- In a full table ADD_ENTRY(DEC) raises. -/
theorem addSequence_full {d : Dec} (h : d.nf.toNat = 4096) (q : ByteSeq) :
    addSequence q d = .raised (d.enterFault .tableOverflow .invalidCode) := by
  rcases addSequence_cases q d with ⟨-, hraised⟩ | ⟨hroom, -⟩
  · exact hraised
  · exact absurd h hroom

/-- VISIT follows a known edge. -/
theorem visitByte_known {b : Byte} {e : Enc} {c : Code} (h : trieChild e.trie e.cur b = some c) :
    visitByte b e = .ok false { e with cur := .code c } := by
  simp [visitByte, h]

/-- VISIT of an unknown edge with room in the table learns it and restarts the run. -/
theorem visitByte_learns {b : Byte} {e : Enc} {n : Code} (hcur : e.cur = .code n)
    (h : trieChild e.trie (.code n) b = none) (hroom : e.nf.toNat ≠ 4096) :
    visitByte b e =
      .ok true
        { e with
          trie := trieSetChild n b (slotCode e.nf) e.trie
          nf := e.nf + 1#13
          width := widthFor (e.nf + 1#13).toNat
          cur := .code (literalCode b) } := by
  simp [visitByte, hcur, h, addEdge_stores hroom]

/-- VISIT of an unknown edge in a full table raises. -/
theorem visitByte_full {b : Byte} {e : Enc} (h : trieChild e.trie e.cur b = none) (hfull : e.nf.toNat = 4096) :
    visitByte b e = .raised (e.enterFault .tableOverflow) := by
  simp [visitByte, h, addEdge_full hfull]

/-! ## What the memories read as after the next free code is assigned -/

/-- The next free code stored under an edge: it is what that edge reads as, the count is one more, and every other edge
reads as before. -/
theorem nextEdge_reads {nf : FreeCode} (h : nf.toNat < 4096) (t : Memory Code) (n : Code) (b : Byte) :
    (slotCode nf).toNat = nf.toNat ∧ (nf + 1#13).toNat = nf.toNat + 1 ∧
    trieChild (trieSetChild n b (slotCode nf) t) (.code n) b = some (slotCode nf) ∧
    ∀ (n' : Code) (b' : Byte), (n', b') ≠ (n, b) →
      trieChild (trieSetChild n b (slotCode nf) t) (.code n') b' = trieChild t (.code n') b' :=
  ⟨slotCode_toNat h, nf_succ h, trieChild_set_self _ _ _ _, fun _ _ hne => trieChild_set_ne hne _ _⟩

/-- A sequence written to the next free slot: that slot holds it, the count is one more, and every other slot reads as
before. -/
theorem nextSlot_reads {nf : FreeCode} (hlow : 258 ≤ nf.toNat) (h : nf.toNat < 4096) (t : Memory ByteSeq)
    (q : ByteSeq) :
    (slotCode nf).toNat = nf.toNat ∧ (nf + 1#13).toNat = nf.toNat + 1 ∧
    tabRead (tabWrite (slotCode nf) q t) (slotCode nf) = .bytes q ∧
    ∀ c' : Code, c' ≠ slotCode nf → tabRead (tabWrite (slotCode nf) q t) c' = tabRead t c' :=
  ⟨slotCode_toNat h, nf_succ h, tabRead_write_self _ _ _ (hlow.trans_eq (slotCode_toNat h).symm),
    fun _ hne => tabRead_write_ne hne _ _⟩

/-! ## The statements -/

/-- Settles O21: ADD_ENTRY of each unit stores with room in its table and raises in a full one. -/
theorem addEntryAssignsTheNextFreeCode : Obligations.AddEntryAssignsTheNextFreeCode := by
  refine ⟨fun s n b h => ?_, fun s q hlow h => ?_, fun s n b h => ?_, fun s q h => ?_⟩
  · exact ⟨_, _, _, onEncReturning_ok (addEdge_stores h.ne n b), nextEdge_reads h s.enc.trie n b⟩
  · exact ⟨_, _, _, onDecReturning_ok (addSequence_stores h.ne q), nextSlot_reads hlow h s.dec.tab q⟩
  · exact ⟨_, onEncReturning_raised (addEdge_full h n b), rfl, rfl, rfl⟩
  · exact ⟨_, onDecReturning_raised (addSequence_full h q), rfl, rfl, rfl⟩

/-- Settles O24: VISIT follows a known edge, learns an unknown one with room in the table, and raises in a full one. -/
theorem visitExtendsTheMatchOrLearnsTheRun : Obligations.VisitExtendsTheMatchOrLearnsTheRun := by
  refine fun s b => ⟨fun c h => ?_, fun n hcur h hroom => ?_, fun h hfull => ?_⟩
  · exact onEncReturning_ok (visitByte_known h)
  · exact ⟨_, _, _, onEncReturning_ok (visitByte_learns hcur h hroom.ne), nextEdge_reads hroom s.enc.trie n b⟩
  · exact ⟨_, onEncReturning_raised (visitByte_full h hfull), rfl, rfl, rfl⟩

end Sys2Proof.Machine
end

section
/-! The refusals of micro-operations and wire codes run on their own outside their preconditions (log entry 8). -/

namespace Sys2Proof.Machine

/-- A code occurs where the class table gives it its class (30_encoding.md R77). -/
theorem occursIn_of_codeClass {st : DecState} {nf : FreeCode} {v : Code} {k : CodeClass}
    (h : codeClass st nf v = some k) : (codeInstr k v).occursIn st nf := by
  rcases (codeClass_spec st nf v k).mp h with ⟨rfl, hst, -⟩ | ⟨rfl, hst, -⟩ | ⟨rfl, hocc⟩ | ⟨rfl, hocc⟩ | ⟨rfl, hocc⟩ |
    ⟨rfl, hocc⟩ | ⟨rfl, hocc⟩ | ⟨rfl, hocc⟩
  · exact hst
  · exact hst
  all_goals exact hocc

/-- An instruction encoded as a wire code is that code under one class, and runs as it (30_encoding.md R75). -/
theorem wireCode_runAs {i : Instr} {v : Code} (h : encode i = some (.code v)) :
    ∃ k, i = codeInstr k v ∧ ∀ s, exec i s = onDec (runAs k v) s := by
  cases i <;> cases h
  case eod => exact ⟨.eod, rfl, fun _ => rfl⟩
  case clear => exact ⟨.clear, rfl, fun _ => rfl⟩
  case litFirst => exact ⟨.litFirst, rfl, fun _ => rfl⟩
  case invalidFirst => exact ⟨.invalidFirst, rfl, fun _ => rfl⟩
  case lit => exact ⟨.lit, rfl, fun _ => rfl⟩
  case dict => exact ⟨.dict, rfl, fun _ => rfl⟩
  case kwkwk => exact ⟨.kwkwk, rfl, fun _ => rfl⟩
  case invalid => exact ⟨.invalid, rfl, fun _ => rfl⟩

/-- A wire code in a fault, or where it does not occur, is refused. -/
theorem wireCode_refused {i : Instr} {v : Code} (hi : encode i = some (.code v)) {s : State}
    (h : s.dec.fault ≠ .none ∨ ¬ i.occursIn s.dec.state s.dec.nf) : exec i s = .refused .codeNotOfThisClass := by
  obtain ⟨k, rfl, hexec⟩ := wireCode_runAs hi
  rw [hexec, onDec_refused]
  refine runAs_refused fun hclass => ?_
  by_cases hf : s.dec.fault = .none
  · rw [classNow_eq v hf] at hclass
    exact h.elim (fun hfault => hfault hf) fun hocc => hocc (occursIn_of_codeClass hclass)
  · simp [classNow_faulted v hf] at hclass

theorem getCode_refused {w : CodeWidth} {d : Dec} (h : d.upCnt.toNat < w.bits) :
    getCode w d = .refuse .codeIncomplete := by
  rcases getCode_cases w d with ⟨hle, -⟩ | ⟨-, hrefused⟩
  · exact absurd hle (Nat.not_le.mpr h)
  · exact hrefused

/-- Settles O60: each operation is refused outside its precondition, and its step with it. -/
theorem outsideTheirPreconditionsMicroOperationsAreRefused :
    Obligations.OutsideTheirPreconditionsMicroOperationsAreRefused := by
  refine ⟨fun s w h => ?_, fun s c h => ?_, fun s b h => ?_, fun s i v hi h => ?_⟩
  · exact onDecReturning_refuse (getCode_refused h)
  · exact onDecReturning_refuse (sequenceFor_refused c s.dec (by omega))
  · exact onEncReturning_refuse (addEdge_root h b)
  · exact wireCode_refused hi h

end Sys2Proof.Machine
end

section
/-! Every instruction keeps the two memories in canonical form (20_memory.md R55, R56, log entry 13): the form is kept
by each operation of a unit, through both ways it can end in a state of the unit. -/

namespace Sys2Proof.Machine

/-! ## A property of the unit an operation leaves -/

/-- The unit an operation leaves, where it returns or raises, has property `P`. -/
def Flow.Keeps {σ α : Type} (P : σ → Prop) : Flow σ α → Prop
  | .ok _ u => P u
  | .raised u => P u
  | .stuck _ => True
  | .refuse _ => True

theorem Flow.Keeps.bind {σ α β : Type} {P : σ → Prop} {x : Flow σ α} {k : α → σ → Flow σ β} (hx : x.Keeps P)
    (hk : ∀ a u, P u → (k a u).Keeps P) : (x.bind k).Keeps P := by
  cases x with
  | ok a u => exact hk a u hx
  | raised u => exact hx
  | stuck f => trivial
  | refuse r => trivial

theorem Flow.Keeps.leaves {σ : Type} {P : σ → Prop} {x : Flow σ Unit} {u : σ} (hx : x.Keeps P) (h : x.Leaves u) :
    P u := by
  rcases h with rfl | rfl <;> exact hx

theorem onEnc_next_keeps {P : Enc → Prop} {f : Enc → Flow Enc Unit} {s t : State} (hf : (f s.enc).Keeps P)
    (h : onEnc f s = .next t) : P t.enc := by
  obtain ⟨e, he, rfl⟩ := onEnc_next.mp h
  exact hf.leaves he

theorem onDec_next_keeps {P : Dec → Prop} {f : Dec → Flow Dec Unit} {s t : State} (hf : (f s.dec).Keeps P)
    (h : onDec f s = .next t) : P t.dec := by
  obtain ⟨d, hd, rfl⟩ := onDec_next.mp h
  exact hf.leaves hd

theorem onEncReturning_next_keeps {α : Type} {P : Enc → Prop} {f : Enc → Flow Enc α} {r : α → Returned} {s t : State}
    (hf : (f s.enc).Keeps P) (h : onEncReturning f r s = .next t) : P t.enc := by
  rcases onEncReturning_enc h with ⟨a, he⟩ | he <;> rw [he] at hf <;> exact hf

theorem onDecReturning_next_keeps {α : Type} {P : Dec → Prop} {f : Dec → Flow Dec α} {r : α → Returned} {s t : State}
    (hf : (f s.dec).Keeps P) (h : onDecReturning f r s = .next t) : P t.dec := by
  rcases onDecReturning_dec h with ⟨a, hd⟩ | hd <;> rw [hd] at hf <;> exact hf

/-- A guarded ENC command keeps what its body keeps. -/
theorem whileAccumulating_keeps {P : Enc → Prop} {body : Flow Enc Unit} (h : body.Keeps P) (e : Enc) :
    (whileAccumulating e body).Keeps P := by
  unfold whileAccumulating
  split
  · trivial
  · split
    · trivial
    · exact h

/-- A guarded DEC command keeps what its body keeps. -/
theorem whileOperating_keeps {P : Dec → Prop} {body : Flow Dec Unit} (h : body.Keeps P) (d : Dec) :
    (whileOperating d body).Keeps P := by
  unfold whileOperating
  split
  · trivial
  · split
    · trivial
    · exact h

/-! ## The trie -/

/-- ENC's trie is in canonical form. -/
def TrieCanonical (e : Enc) : Prop := Memory.trieWf e.trie = true

theorem put_trieCanonical {e : Enc} (h : TrieCanonical e) (v : Code) (w : CodeWidth) : TrieCanonical (put v w e) := by
  rwa [TrieCanonical, put_trie]

theorem flushBits_trieCanonical {e : Enc} (h : TrieCanonical e) : TrieCanonical (flushBits e) := by
  obtain ⟨sent, heq⟩ := flushBits_frame e
  rw [heq]
  exact h

theorem closeStream_trieCanonical {e : Enc} (h : TrieCanonical e) : TrieCanonical (closeStream e) := by
  obtain ⟨sent, heq⟩ := closeStream_frame e
  rw [heq]
  exact h

theorem startEncoding_trieCanonical (e : Enc) : TrieCanonical (startEncoding e) := by
  rw [startEncoding_eq]
  rfl

theorem addEdge_trieCanonical {e : Enc} (h : TrieCanonical e) (n : NodeId) (b : Byte) :
    (addEdge n b e).Keeps TrieCanonical := by
  rcases addEdge_cases n b e with ⟨-, ha⟩ | ⟨-, -, ha⟩ | ⟨-, c, -, ha⟩ <;> rw [ha]
  · exact h
  · trivial
  · exact trieWf_set c b _ _ h

theorem visitByte_trieCanonical {e : Enc} (h : TrieCanonical e) (b : Byte) : (visitByte b e).Keeps TrieCanonical := by
  rcases visitByte_cases b e with ⟨c, -, hv⟩ | ⟨-, -, hv⟩ | ⟨-, -, n, -, hv⟩ <;> rw [hv]
  · exact h
  · exact h
  · exact trieWf_set n b _ _ h

/-- Step 6 of ENC_STEP keeps the trie or empties it (44_encoder.md R186). -/
theorem proactiveReset_trieCanonical {e : Enc} (h : TrieCanonical e) (c : Code) (f : Bool) :
    TrieCanonical (proactiveReset c f e) := by
  unfold proactiveReset
  split
  · rfl
  · exact h

theorem processByte_trieCanonical {e : Enc} (h : TrieCanonical e) (b : Byte) (la : Lookahead) :
    (processByte b la e).Keeps TrieCanonical := by
  have hvisit := visitByte_trieCanonical h b
  rcases processByte_cases b la e with ⟨-, hp⟩ | ⟨e1, g, c, hv, -, ⟨-, hp⟩ | ⟨x, -, hp⟩⟩ <;> rw [hp]
  · exact h
  · rw [hv] at hvisit
    exact put_trieCanonical hvisit _ _
  · rw [hv] at hvisit
    refine proactiveReset_trieCanonical ?_ _ _
    split
    · exact put_trieCanonical hvisit _ _
    · exact hvisit

theorem takeDataByte_trieCanonical {e : Enc} (h : TrieCanonical e) (x : Byte) :
    (takeDataByte x e).Keeps TrieCanonical := by
  refine whileAccumulating_keeps ?_ e
  cases e.pending with
  | none => exact h
  | some b => exact (processByte_trieCanonical h b (.byte x)).bind fun _ _ h1 => h1

theorem endEncoding_trieCanonical {e : Enc} (h : TrieCanonical e) : (endEncoding e).Keeps TrieCanonical := by
  refine whileAccumulating_keeps ?_ e
  cases e.pending with
  | none => exact closeStream_trieCanonical h
  | some b =>
    exact (processByte_trieCanonical h b .endOfData).bind fun _ e1 h1 =>
      closeStream_trieCanonical (e := { e1 with pending := none }) h1

/-- Every instruction keeps the trie in canonical form. -/
theorem exec_trieCanonical {i : Instr} {s t : State} (hs : TrieCanonical s.enc) (h : exec i s = .next t) :
    TrieCanonical t.enc := by
  cases i
  case reservedOp3 | reservedEndData | reservedStartData => cases h
  case decByte | decEnd | eod | clear | litFirst | invalidFirst | lit | dict | kwkwk | invalid | addDec | decExec |
      steadyTail =>
    rwa [(onDec_keeps h).1]
  case get | bytesFor => rwa [(onDecReturning_keeps h).1]
  case decStart | fill | childNodeB | childNodeS | getNode =>
    cases h
    exact hs
  case encByte x => exact onEnc_next_keeps (takeDataByte_trieCanonical hs x) h
  case encEnd => exact onEnc_next_keeps (endEncoding_trieCanonical hs) h
  case encStart =>
    cases h
    exact startEncoding_trieCanonical s.enc
  case encStep b la => exact onEnc_next_keeps (processByte_trieCanonical hs b la) h
  case put v w =>
    cases h
    exact put_trieCanonical hs v w
  case flush =>
    cases h
    exact flushBits_trieCanonical hs
  case visit b => exact onEncReturning_next_keeps (visitByte_trieCanonical hs b) h
  case tableReset u =>
    cases u with
    | enc =>
      cases h
      rfl
    | dec =>
      cases h
      exact hs
  case addEntry p =>
    cases p with
    | edge n b => exact onEncReturning_next_keeps (addEdge_trieCanonical hs n b) h
    | sequence q => rwa [(onDecReturning_keeps h).1]

/-! ## The table -/

/-- DEC's table is in canonical form. -/
def TabCanonical (d : Dec) : Prop := Memory.tabWf d.tab = true

theorem getCode_tabCanonical {d : Dec} (h : TabCanonical d) (w : CodeWidth) : (getCode w d).Keeps TabCanonical := by
  rcases getCode_cases w d with ⟨-, v, hg, -⟩ | ⟨-, hg⟩ <;> rw [hg]
  · exact h
  · trivial

theorem addSequence_tabCanonical {d : Dec} (h : TabCanonical d) (q : ByteSeq) :
    (addSequence q d).Keeps TabCanonical := by
  rcases addSequence_cases q d with ⟨-, ha⟩ | ⟨-, ha⟩ <;> rw [ha]
  · exact h
  · exact tabWf_write _ _ _ h

theorem sequenceFor_tabCanonical {d : Dec} (h : TabCanonical d) (c : Code) :
    (sequenceFor c d).Keeps TabCanonical := by
  rcases sequenceFor_cases c d with ⟨-, q, -, hq⟩ | ⟨-, hq⟩ <;> rw [hq]
  · exact h
  · trivial

theorem learn_tabCanonical {d : Dec} (h : TabCanonical d) (p q : ByteSeq) : (learn p q d).Keeps TabCanonical :=
  (addSequence_tabCanonical h _).bind fun _ _ h1 => h1

theorem steadyTail_tabCanonical {d : Dec} (h : TabCanonical d) (q : ByteSeq) :
    (steadyTail q d).Keeps TabCanonical := by
  rcases steadyTail_cases q d with ⟨-, ht⟩ | ⟨p, -, ⟨-, ht⟩ | ⟨-, ht⟩⟩ <;> rw [ht]
  · trivial
  · exact h
  · exact tabWf_write _ _ _ h

theorem runResolved_tabCanonical {d : Dec} (h : TabCanonical d) (v : Code) : (runResolved v d).Keeps TabCanonical :=
  (sequenceFor_tabCanonical h v).bind fun q _ h1 => steadyTail_tabCanonical h1 q

theorem runKwkwk_tabCanonical {d : Dec} (h : TabCanonical d) : (runKwkwk d).Keeps TabCanonical := by
  unfold runKwkwk
  cases d.prev with
  | none => trivial
  | some p => exact steadyTail_tabCanonical h _

/-- A code of any class keeps the table canonical: CLEAR empties it, and the codes that learn write one slot
(45_decoder.md R219 to R226). -/
theorem runClass_tabCanonical {d : Dec} (h : TabCanonical d) (k : CodeClass) (v : Code) :
    (runClass k v d).Keeps TabCanonical := by
  cases k with
  | eod => exact h
  | clear => exact rfl
  | litFirst => exact (sequenceFor_tabCanonical h v).bind fun _ _ h1 => h1
  | invalidFirst => exact h
  | lit => exact runResolved_tabCanonical h v
  | dict => exact runResolved_tabCanonical h v
  | kwkwk => exact runKwkwk_tabCanonical h
  | invalid => exact h

theorem runAs_tabCanonical {d : Dec} (h : TabCanonical d) (k : CodeClass) (v : Code) :
    (runAs k v d).Keeps TabCanonical := by
  unfold runAs
  split
  · exact runClass_tabCanonical h k v
  · trivial

theorem executeCode_tabCanonical {d : Dec} (h : TabCanonical d) (v : Code) (w : CodeWidth) :
    (executeCode v w d).Keeps TabCanonical := by
  unfold executeCode
  cases classNow v d with
  | none => trivial
  | some k => exact runClass_tabCanonical (d := { d with last := ⟨v, widthValue w, true⟩ }) h k v

/-- However many codes DEC_BYTE's loop executes, the table stays canonical (45_decoder.md R215). -/
theorem takeCodes_tabCanonical {d : Dec} (h : TabCanonical d) (fuel : Nat) : (takeCodes fuel d).Keeps TabCanonical := by
  induction fuel generalizing d with
  | zero => exact h
  | succ n ih =>
    unfold takeCodes
    split
    · exact (getCode_tabCanonical h _).bind fun v _ h1 =>
        (executeCode_tabCanonical h1 v _).bind fun _ _ h2 => ih h2
    · exact h

theorem takeWireByte_tabCanonical {d : Dec} (h : TabCanonical d) (x : Byte) :
    (takeWireByte x d).Keeps TabCanonical := by
  refine whileOperating_keeps ?_ d
  split
  · exact h
  · exact takeCodes_tabCanonical (d := fillByte x d) h 4

theorem endDecoding_tabCanonical {d : Dec} (h : TabCanonical d) : (endDecoding d).Keeps TabCanonical := by
  refine whileOperating_keeps ?_ d
  split
  · exact h
  · exact h

/-- Every instruction keeps the table in canonical form. -/
theorem exec_tabCanonical {i : Instr} {s t : State} (hs : TabCanonical s.dec) (h : exec i s = .next t) :
    TabCanonical t.dec := by
  cases i
  case reservedOp3 | reservedEndData | reservedStartData => cases h
  case encByte | encEnd | encStep => rwa [(onEnc_keeps h).1]
  case visit => rwa [(onEncReturning_keeps h).1]
  case encStart | put | flush | fill | childNodeB | childNodeS | getNode =>
    cases h
    exact hs
  case decByte x => exact onDec_next_keeps (takeWireByte_tabCanonical hs x) h
  case decEnd => exact onDec_next_keeps (endDecoding_tabCanonical hs) h
  case decStart =>
    cases h
    rfl
  case eod | clear | litFirst | invalidFirst | lit | dict | kwkwk | invalid =>
    exact onDec_next_keeps (runAs_tabCanonical hs _ _) h
  case get w => exact onDecReturning_next_keeps (getCode_tabCanonical hs w) h
  case bytesFor c => exact onDecReturning_next_keeps (sequenceFor_tabCanonical hs c) h
  case addDec p q => exact onDec_next_keeps (learn_tabCanonical hs p q) h
  case decExec v w => exact onDec_next_keeps (executeCode_tabCanonical hs v w) h
  case steadyTail q => exact onDec_next_keeps (steadyTail_tabCanonical hs q) h
  case tableReset u =>
    cases u with
    | enc =>
      cases h
      exact hs
    | dec =>
      cases h
      rfl
  case addEntry p =>
    cases p with
    | edge n b => rwa [(onEncReturning_keeps h).1]
    | sequence q => exact onDecReturning_next_keeps (addSequence_tabCanonical hs q) h

/-! ## Both memories -/

theorem wf_iff (s : State) : Memory.wf s = true ↔ TrieCanonical s.enc ∧ TabCanonical s.dec :=
  Bool.and_eq_true_iff

/-- Settles O8: the canonical form of each memory is kept instruction by instruction. -/
theorem everyInstructionKeepsTheMemoriesCanonical : Obligations.EveryInstructionKeepsTheMemoriesCanonical := by
  intro i s t hs h
  obtain ⟨htrie, htab⟩ := (wf_iff s).mp hs
  exact (wf_iff t).mpr ⟨exec_trieCanonical htrie h, exec_tabCanonical htab h⟩

end Sys2Proof.Machine
end

section
/-! Command tokens and their instructions (30_encoding.md section 1). -/

namespace Sys2Proof.Machine

/-! ## The fields of a token (R70) -/

theorem tokenOp_toNat (tok : Token) : (tokenOp tok).toNat = tok.toNat / 256 := by
  have := tok.isLt
  rw [tokenOp, BitVec.extractLsb'_toNat, Nat.shiftRight_eq_div_pow]
  omega

theorem tokenData_toNat (tok : Token) : (tokenData tok).toNat = tok.toNat % 256 := by
  rw [tokenData, BitVec.extractLsb'_toNat, Nat.shiftRight_zero]

theorem makeToken_toNat (op : BitVec 2) (data : Byte) : (makeToken op data).toNat = 256 * op.toNat + data.toNat := by
  rw [makeToken, BitVec.toNat_append, ← Nat.shiftLeft_add_eq_or_of_lt data.isLt, Nat.shiftLeft_eq, Nat.mul_comm]

theorem tokenOp_eq {tok : Token} {op : BitVec 2} : tokenOp tok = op ↔ tok.toNat / 256 = op.toNat := by
  rw [← tokenOp_toNat, BitVec.toNat_inj]

theorem tokenData_eq {tok : Token} {data : Byte} : tokenData tok = data ↔ tok.toNat % 256 = data.toNat := by
  rw [← tokenData_toNat, BitVec.toNat_inj]

@[simp] theorem tokenOp_makeToken (op : BitVec 2) (data : Byte) : tokenOp (makeToken op data) = op := by
  have := data.isLt
  rw [tokenOp_eq, makeToken_toNat]
  omega

@[simp] theorem tokenData_makeToken (op : BitVec 2) (data : Byte) : tokenData (makeToken op data) = data := by
  have := data.isLt
  rw [tokenData_eq, makeToken_toNat]
  omega

/-- A token is made from its two fields. -/
theorem makeToken_fields (tok : Token) : makeToken (tokenOp tok) (tokenData tok) = tok := by
  refine BitVec.eq_of_toNat_eq ?_
  rw [makeToken_toNat, tokenOp_toNat, tokenData_toNat]
  omega

/-! ## Decoding and encoding -/

/-- The four values of OP (R70). -/
theorem op_cases (op : BitVec 2) : op = 0#2 ∨ op = 1#2 ∨ op = 2#2 ∨ op = 3#2 := by
  revert op
  decide

/-- Every token spells a well-formed instruction, which is encoded as that token: row by row of the table (R71, R73). -/
theorem decodeToken_encodes (u : UnitId) (tok : Token) :
    (decodeToken u tok).wellFormed = true ∧ encode (decodeToken u tok) = some (.token u tok) := by
  rw [← makeToken_fields tok]
  generalize tokenOp tok = op
  generalize tokenData tok = data
  rcases op_cases op with rfl | rfl | rfl | rfl
  · cases u <;> simp [decodeToken, encode, Instr.wellFormed]
  · by_cases hdata : data = 0#8
    · cases u <;> simp [decodeToken, encode, Instr.wellFormed, hdata]
    · simp [decodeToken, encode, Instr.wellFormed, hdata]
  · by_cases hdata : data = 0#8
    · cases u <;> simp [decodeToken, encode, Instr.wellFormed, hdata]
    · simp [decodeToken, encode, Instr.wellFormed, hdata]
  · simp [decodeToken, encode, Instr.wellFormed]

/-- An instruction with a token is the one decoded from it, if it is well formed: a reserved END or START with DATA = 0
has the token of the command (R73). -/
theorem decodeToken_of_encode {i : Instr} {u : UnitId} {tok : Token} (hwf : i.wellFormed = true)
    (h : encode i = some (.token u tok)) : decodeToken u tok = i := by
  cases i <;> cases h
  case encByte | encEnd | encStart | decByte | decEnd | decStart | reservedOp3 => simp [decodeToken]
  case reservedEndData | reservedStartData =>
    have hdata := of_decide_eq_true hwf
    simp [decodeToken, hdata]

/-- Settles O9: the sample words by evaluation. -/
theorem sampleWordsDecodeAsTheTablesSay : Obligations.SampleWordsDecodeAsTheTablesSay := by
  unfold Obligations.SampleWordsDecodeAsTheTablesSay
  decide

/-- Settles O10: both directions, over the rows of the token table and over the instructions that have a token. -/
theorem tokensDecodeAndEncodeAgree : Obligations.TokensDecodeAndEncodeAgree :=
  ⟨decodeToken_encodes, fun _ _ _ => decodeToken_of_encode⟩

/-! ## What a token commands -/

/-- The token spells no command: OP = 11, or OP 01 or 10 with DATA other than 0 (R73). -/
def ReservedToken (tok : Token) : Prop :=
  tok.toNat / 256 = 3 ∨ (tok.toNat / 256 = 1 ∨ tok.toNat / 256 = 2) ∧ tok.toNat % 256 ≠ 0

theorem exec_reservedOp3 (u : UnitId) (data : Byte) (s : State) :
    exec (.reservedOp3 u data) s = .refused .reservedToken := rfl

theorem exec_reservedEndData (u : UnitId) (data : Byte) (s : State) :
    exec (.reservedEndData u data) s = .refused .reservedToken := rfl

theorem exec_reservedStartData (u : UnitId) (data : Byte) (s : State) :
    exec (.reservedStartData u data) s = .refused .reservedToken := rfl

/-- A token that is not reserved is START, or BYTE or END, in every state (R71); a reserved one is refused in every
state (R73). -/
theorem decodeToken_commands (u : UnitId) (tok : Token) :
    (∃ c, ((c = .start ∧ tok.toNat = 512) ∨ tok.toNat ≤ 256) ∧ ∀ s, exec (decodeToken u tok) s = runCommand u c s) ∨
    (ReservedToken tok ∧ ∀ s, exec (decodeToken u tok) s = .refused .reservedToken) := by
  have hlt := tok.isLt
  unfold decodeToken
  split
  · rename_i hop
    have hbyte : tok.toNat / 256 = 0 := tokenOp_eq.mp hop
    exact Or.inl ⟨.byte (tokenData tok), Or.inr (by omega), by cases u <;> exact fun _ => rfl⟩
  · rename_i hop0
    have hbyte : tok.toNat / 256 ≠ 0 := fun h => hop0 (tokenOp_eq.mpr h)
    split
    · rename_i hop
      have hend : tok.toNat / 256 = 1 := tokenOp_eq.mp hop
      split
      · rename_i hdata
        have hzero : tok.toNat % 256 = 0 := tokenData_eq.mp hdata
        exact Or.inl ⟨.finish, Or.inr (by omega), by cases u <;> exact fun _ => rfl⟩
      · rename_i hdata
        exact Or.inr ⟨Or.inr ⟨Or.inl hend, fun h => hdata (tokenData_eq.mpr h)⟩, exec_reservedEndData u _⟩
    · rename_i hop1
      have hend : tok.toNat / 256 ≠ 1 := fun h => hop1 (tokenOp_eq.mpr h)
      split
      · rename_i hop
        have hstart : tok.toNat / 256 = 2 := tokenOp_eq.mp hop
        split
        · rename_i hdata
          have hzero : tok.toNat % 256 = 0 := tokenData_eq.mp hdata
          exact Or.inl ⟨.start, Or.inl ⟨rfl, by omega⟩, by cases u <;> exact fun _ => rfl⟩
        · rename_i hdata
          exact Or.inr ⟨Or.inr ⟨Or.inr hstart, fun h => hdata (tokenData_eq.mpr h)⟩, exec_reservedStartData u _⟩
      · rename_i hop2
        have hstart : tok.toNat / 256 ≠ 2 := fun h => hop2 (tokenOp_eq.mpr h)
        exact Or.inr ⟨Or.inl (by omega), exec_reservedOp3 u _⟩

/-- A reserved token is refused in every state (R73). -/
theorem exec_decodeToken_reserved {tok : Token} (h : ReservedToken tok) (u : UnitId) (s : State) :
    exec (decodeToken u tok) s = .refused .reservedToken := by
  rcases decodeToken_commands u tok with ⟨c, hc, -⟩ | ⟨-, hrefused⟩
  · unfold ReservedToken at h
    omega
  · exact hrefused s

/-- Settles O40: the three rows are refused by their meaning, and a token that is one of them when it is decoded. -/
theorem reservedTokensAreRefused : Obligations.ReservedTokensAreRefused := by
  intro s u data
  refine ⟨exec_reservedOp3 u data s, exec_reservedEndData u data s, exec_reservedStartData u data s,
    fun tok rest htok => ⟨exec_decodeToken_reserved htok u s, fun hin => ?_⟩⟩
  rw [step_token hin]
  exact exec_decodeToken_reserved htok u _

end Sys2Proof.Machine
end

section
/-! Wire codes: the class of a code, and what DEC does with a code on its own (30_encoding.md section 2, 45_decoder.md
section 3). -/

namespace Sys2Proof.Machine

/-! ## Every code has one class (R77) -/

/-- The instruction a code is under its class is encoded as that code (R75, R77). -/
theorem codeInstr_encode {st : DecState} {nf : FreeCode} {v : Code} {k : CodeClass} (h : codeClass st nf v = some k) :
    encode (codeInstr k v) = some (.code v) := by
  rcases (codeClass_spec st nf v k).mp h with ⟨rfl, -, hv⟩ | ⟨rfl, -, hv⟩ | ⟨rfl, -⟩ | ⟨rfl, -⟩ | ⟨rfl, -⟩ | ⟨rfl, -⟩ |
    ⟨rfl, -⟩ | ⟨rfl, -⟩
  · rw [show v = Config.eodCode from BitVec.eq_of_toNat_eq hv]
    rfl
  · rw [show v = Config.clearCode from BitVec.eq_of_toNat_eq hv]
    rfl
  all_goals rfl

/-- Where the next free code is legal, the instruction a code is under its class is well formed (R77). -/
theorem codeInstr_wellFormed {st : DecState} {nf : FreeCode} {v : Code} {k : CodeClass} (hlow : 258 ≤ nf.toNat)
    (h : codeClass st nf v = some k) : (codeInstr k v).wellFormed = true := by
  rcases (codeClass_spec st nf v k).mp h with ⟨rfl, -⟩ | ⟨rfl, -⟩ | ⟨rfl, -, hv⟩ | ⟨rfl, -, hv⟩ | ⟨rfl, -, hv⟩ |
    ⟨rfl, -, hv, -⟩ | ⟨rfl, -, hv, -⟩ | ⟨rfl, -, -, hv⟩
  · rfl
  · rfl
  case inr.inr.inr.inr.inr.inr.inr => exact decide_eq_true (hlow.trans_lt hv)
  all_goals exact decide_eq_true hv

/-- A code has the class under which it is encoded as itself and occurs (R77). -/
theorem codeClass_of_occursIn {st : DecState} {nf : FreeCode} {v : Code} {k : CodeClass}
    (henc : encode (codeInstr k v) = some (.code v)) (h : (codeInstr k v).occursIn st nf) :
    codeClass st nf v = some k := by
  rw [codeClass_spec]
  cases k
  case eod =>
    cases henc
    exact Or.inl ⟨rfl, h, rfl⟩
  case clear =>
    cases henc
    exact Or.inr (Or.inl ⟨rfl, h, rfl⟩)
  all_goals simpa [codeInstr, Instr.occursIn] using h

theorem decodeCode_eq_ok {st : DecState} {nf : FreeCode} {v : Code} {i : Instr} :
    decodeCode st nf v = .ok i ↔ ∃ k, codeClass st nf v = some k ∧ codeInstr k v = i := by
  unfold decodeCode
  cases codeClass st nf v <;> simp

/-- Settles O11: the class of a code is the one the table gives, and an instruction encoded as the code is the code
under one class, which it has where that instruction occurs. -/
theorem everyCodeHasExactlyOneClass : Obligations.EveryCodeHasExactlyOneClass := by
  intro st nf v hst hlow
  constructor
  · obtain ⟨k, hk⟩ := codeClass_total st nf v hst
    exact ⟨_, decodeCode_eq_ok.mpr ⟨k, hk, rfl⟩, codeInstr_wellFormed hlow hk, occursIn_of_codeClass hk,
      codeInstr_encode hk⟩
  · intro i henc hocc
    obtain ⟨k, rfl, -⟩ := wireCode_runAs henc
    exact decodeCode_eq_ok.mpr ⟨k, codeClass_of_occursIn henc hocc, rfl⟩

/-! ## A code executed on its own -/

/-- A wire code in a state that gives it its class runs that class (R77). -/
theorem exec_codeInstr {k : CodeClass} {v : Code} {s : State} (h : classNow v s.dec = some k) :
    exec (codeInstr k v) s = onDec (runClass k v) s := by
  have hclass : codeClass s.dec.state s.dec.nf v = some k := by
    unfold classNow at h
    split at h
    · exact h
    · cases h
  have henc := codeInstr_encode hclass
  have hexec : exec (codeInstr k v) s = onDec (runAs k v) s := by
    cases k <;> cases henc <;> rfl
  rw [hexec]
  unfold onDec
  rw [runAs_of_class h]

/-- Settles O41: DEC_EXEC runs the class of the code in the state that has recorded it, and there the code has the same
class. -/
theorem decExecRecordsTheCodeAndRunsItsClass : Obligations.DecExecRecordsTheCodeAndRunsItsClass := by
  intro s v w i hf hdecode
  obtain ⟨k, hk, rfl⟩ := decodeCode_eq_ok.mp hdecode
  have hclass : classNow v s.dec = some k := by rw [classNow_eq v hf, hk]
  calc exec (.decExec v w) s
      = onDec (runClass k v) { s with dec := { s.dec with last := ⟨v, widthValue w, true⟩ } } :=
        congrArg (Flow.toOutcome · (fun _ d => s.withDec d) s.withDec) (executeCode_of_class hclass)
    _ = exec (codeInstr k v) { s with dec := { s.dec with last := ⟨v, widthValue w, true⟩ } } :=
        (exec_codeInstr (s := { s with dec := { s.dec with last := ⟨v, widthValue w, true⟩ } }) hclass).symm

/-- Settles O50: both classes run the one raise of R225. -/
theorem invalidCodesTakeTheCorruptStreamFault : Obligations.InvalidCodesTakeTheCorruptStreamFault := by
  intro s v hf hv
  refine ⟨fun hs hnf => ?_, fun hs => ?_⟩
  · have hclass : classNow v s.dec = some .invalid := by
      rw [classNow_eq v hf, codeClass_spec]
      simp [hs, hv, hnf]
    exact onDec_raised (runAs_of_class hclass)
  · have hclass : classNow v s.dec = some .invalidFirst := by
      rw [classNow_eq v hf, codeClass_spec]
      simp [hs, hv]
    exact onDec_raised (runAs_of_class hclass)

/-! ## Where codes execute, DEC_EXEC completes -/

/-- With a previous sequence STEADY_TAIL returns or raises (R226). -/
theorem steadyTail_completes {d : Dec} (h : d.prev ≠ none) (q : ByteSeq) : ∃ d', (steadyTail q d).Leaves d' := by
  rcases steadyTail_cases q d with ⟨hnone, -⟩ | ⟨p, -, ⟨-, hr⟩ | ⟨-, hok⟩⟩
  · exact absurd hnone h
  · exact ⟨_, Or.inr hr⟩
  · exact ⟨_, Or.inl hok⟩

/-- LIT and DICT of a code of the table complete (R222, R223). -/
theorem runResolved_completes {v : Code} {d : Dec} (h : d.prev ≠ none)
    (hv : v.toNat < 256 ∨ (258 ≤ v.toNat ∧ v.toNat < d.nf.toNat)) : ∃ d', (runResolved v d).Leaves d' := by
  unfold runResolved
  rcases sequenceFor_cases v d with ⟨-, q, -, hq⟩ | ⟨hno, -⟩
  · rw [hq]
    exact steadyTail_completes h q
  · exact absurd hv hno

/-- A code run under its class completes, as STEADY has a previous sequence (R77, R219 to R225). -/
theorem runClass_completes {k : CodeClass} {v : Code} {d : Dec} (hk : codeClass d.state d.nf v = some k)
    (hprev : d.state = .steady → d.prev ≠ none) : ∃ d', (runClass k v d).Leaves d' := by
  rcases (codeClass_spec _ _ _ _).mp hk with ⟨rfl, -⟩ | ⟨rfl, -⟩ | ⟨rfl, -, hv⟩ | ⟨rfl, -⟩ | ⟨rfl, hs, hv⟩ |
    ⟨rfl, hs, hv⟩ | ⟨rfl, hs, -⟩ | ⟨rfl, -⟩
  · exact ⟨_, Or.inl rfl⟩
  · exact ⟨_, Or.inl rfl⟩
  · rw [runClass, runLitFirst, sequenceFor_literal v d hv, bind_ok]
    exact ⟨_, Or.inl rfl⟩
  · exact ⟨_, Or.inr rfl⟩
  · exact runResolved_completes (hprev hs) (Or.inl hv)
  · exact runResolved_completes (hprev hs) (Or.inr hv)
  · obtain ⟨p, hp⟩ := Option.ne_none_iff_exists'.mp (hprev hs)
    rw [runClass, runKwkwk, hp]
    exact steadyTail_completes (hprev hs) _
  · exact ⟨_, Or.inr rfl⟩

/-- DEC_EXEC completes where DEC executes codes (45_decoder.md R218). -/
theorem executeCode_completes {d : Dec} (v : Code) (w : CodeWidth) (hf : d.fault = .none)
    (hs : d.state = .awaitFirst ∨ d.state = .steady) (hprev : d.state = .steady → d.prev ≠ none) :
    ∃ d', (executeCode v w d).Leaves d' := by
  obtain ⟨k, hk⟩ := codeClass_total d.state d.nf v hs
  rw [executeCode_of_class (by rw [classNow_eq v hf, hk])]
  exact runClass_completes (d := { d with last := ⟨v, widthValue w, true⟩ }) hk hprev

end Sys2Proof.Machine

namespace Sys2Proof

open Sys2Proof.Machine

theorem DecInv.prev_ne_none {d : Dec} (h : DecInv d) (hs : d.state = .steady) : d.prev ≠ none := by
  obtain ⟨p, hp, -⟩ := h.previous hs
  simp [hp]

/-- Settles O42: DEC_EXEC completes in a state of the invariant, and keeps all but DEC's control state, table, previous
sequence and output. -/
theorem decExecCompletesWhereCodesExecute : Obligations.DecExecCompletesWhereCodesExecute := by
  intro s v w hinv hf hs
  obtain ⟨d, hd⟩ := executeCode_completes v w hf hs hinv.prev_ne_none
  obtain ⟨hacc, hcnt, hlast, -⟩ := executeCode_keeps hd
  exact ⟨s.withDec d, onDec_next.mpr ⟨d, hd, rfl⟩, hlast, rfl, hacc, hcnt, rfl, rfl⟩

end Sys2Proof
end

section
/-! From a state of the invariant a step goes on, but for the commands the spec refuses (60_exceptions.md R246). -/

namespace Sys2Proof

open Sys2Proof.Machine

/-! ## The commands of ENC -/

/-- ENC_BYTE and ENC_END complete in ACCUMULATING without a fault (44_encoder.md R185, R188). -/
theorem encCommand_completes {e : Enc} (hs : e.state = .accumulating) (hf : e.fault = .none) (c : Command) :
    ∃ e', (encCommand c e).Leaves e' := by
  cases c with
  | byte x =>
    rw [encCommand, takeDataByte, whileAccumulating_runs _ hs hf]
    cases e.pending with
    | none => exact ⟨_, Or.inl rfl⟩
    | some b =>
      rcases processByte_ends b (.byte x) e with ⟨-, hr⟩ | ⟨e1, hok⟩
      · simp [hr]
      · simp [hok]
  | finish =>
    rw [encCommand, endEncoding, whileAccumulating_runs _ hs hf]
    cases e.pending with
    | none => exact ⟨_, Or.inl rfl⟩
    | some b =>
      rcases processByte_ends b .endOfData e with ⟨-, hr⟩ | ⟨e1, hok⟩
      · simp [hr]
      · simp [hok]
  | start => exact ⟨_, Or.inl rfl⟩

/-- ENC without a fault refuses BYTE and END out of ACCUMULATING, by that name (R187). -/
theorem encCommand_refused {e : Enc} (hs : e.state ≠ .accumulating) (hf : e.fault = .none) {c : Command}
    (hc : c ≠ .start) : encCommand c e = .refuse .encNotAccumulating := by
  cases c with
  | byte x => simp [encCommand, takeDataByte, whileAccumulating, hs, hf]
  | finish => simp [encCommand, endEncoding, whileAccumulating, hs, hf]
  | start => exact absurd rfl hc

/-! ## The commands of DEC -/

/-- DEC_BYTE completes where codes execute: at most one code is complete, and it has a class (45_decoder.md R215). -/
theorem DecInv.takeCodes_completes {x : Byte} {d : Dec} (h : DecInv d) (hf : d.fault = .none)
    (hs : d.state = .awaitFirst ∨ d.state = .steady) : ∃ d', (takeCodes 4 (fillByte x d)).Leaves d' := by
  have hlt := h.incomplete hf hs
  obtain ⟨hcnt, -, -⟩ := fillByte_spec x d h.held h.padding
  by_cases hrun : (fillByte x d).state ≠ .done ∧ (fillByte x d).fault = .none ∧
      (fillByte x d).width.bits ≤ (fillByte x d).upCnt.toNat
  · rw [takeCodes_once 3 _ hrun (by rw [hcnt]; simp only [fillByte_width]; omega)]
    rcases getCode_cases (fillByte x d).width (fillByte x d) with ⟨-, v, hget, -⟩ | ⟨hno, -⟩
    · rw [hget, bind_ok]
      exact executeCode_completes v _ hf hs h.prev_ne_none
    · omega
  · rw [takeCodes_stop 4 _ hrun]
    exact ⟨_, Or.inl rfl⟩

/-- The commands of DEC complete outside IDLE without a fault (R214 to R216). -/
theorem DecInv.command_completes {d : Dec} (h : DecInv d) (hs : d.state ≠ .idle) (hf : d.fault = .none) (c : Command) :
    ∃ d', (decCommand c d).Leaves d' := by
  cases c with
  | byte x =>
    rw [decCommand, takeWireByte, whileOperating_runs _ hs hf]
    split
    · exact ⟨_, Or.inl rfl⟩
    · rename_i hdone
      refine h.takeCodes_completes hf ?_
      cases hst : d.state <;> simp [hst] at hs hdone ⊢
  | finish =>
    rw [decCommand, endDecoding, whileOperating_runs _ hs hf]
    split
    · exact ⟨_, Or.inl rfl⟩
    · exact ⟨_, Or.inr rfl⟩
  | start => exact ⟨_, Or.inl rfl⟩

/-- DEC refuses BYTE and END in a fault (R217). -/
theorem decCommand_faulted {d : Dec} (hf : d.fault ≠ .none) {c : Command} (hc : c ≠ .start) :
    decCommand c d = .refuse .decFaulted := by
  cases c with
  | byte x => simp [decCommand, takeWireByte, whileOperating, hf]
  | finish => simp [decCommand, endDecoding, whileOperating, hf]
  | start => exact absurd rfl hc

/-- DEC without a fault refuses BYTE and END in IDLE (R217). -/
theorem decCommand_idle {d : Dec} (hs : d.state = .idle) (hf : d.fault = .none) {c : Command} (hc : c ≠ .start) :
    decCommand c d = .refuse .decIdle := by
  cases c with
  | byte x => simp [decCommand, takeWireByte, whileOperating, hs, hf]
  | finish => simp [decCommand, endDecoding, whileOperating, hs, hf]
  | start => exact absurd rfl hc

/-! ## The machine -/

/-- A command of ENC in a state of the invariant goes on, or is BYTE or END out of ACCUMULATING. -/
theorem EncInv.runCommand_answers {s : State} (h : EncInv s.enc) (c : Command) :
    (∃ t, runCommand .enc c s = .next t) ∨
    (runCommand .enc c s = .refused .encNotAccumulating ∧ c ≠ .start ∧ s.enc.state ≠ .accumulating) := by
  by_cases hs : s.enc.state = .accumulating
  · obtain ⟨e, he⟩ := encCommand_completes hs h.noFault c
    exact Or.inl ⟨_, onEnc_next.mpr ⟨e, he, rfl⟩⟩
  · by_cases hc : c = .start
    · subst hc
      exact Or.inl ⟨_, onEnc_ok rfl⟩
    · exact Or.inr ⟨onEnc_refused.mpr (encCommand_refused hs h.noFault hc), hc, hs⟩

/-- A command of DEC in a state of the invariant goes on, or is BYTE or END in a fault or in IDLE. -/
theorem DecInv.runCommand_answers {s : State} (h : DecInv s.dec) (c : Command) :
    (∃ t, runCommand .dec c s = .next t) ∨
    (runCommand .dec c s = .refused .decFaulted ∧ c ≠ .start ∧ s.dec.fault ≠ .none) ∨
    (runCommand .dec c s = .refused .decIdle ∧ c ≠ .start ∧ s.dec.state = .idle) := by
  by_cases hc : c = .start
  · subst hc
    exact Or.inl ⟨_, onDec_ok rfl⟩
  · by_cases hf : s.dec.fault = .none
    · by_cases hs : s.dec.state = .idle
      · exact Or.inr (Or.inr ⟨onDec_refused.mpr (decCommand_idle hs hf hc), hc, hs⟩)
      · obtain ⟨d, hd⟩ := h.command_completes hs hf c
        exact Or.inl ⟨_, onDec_next.mpr ⟨d, hd, rfl⟩⟩
    · exact Or.inr (Or.inl ⟨onDec_refused.mpr (decCommand_faulted hf hc), hc, hf⟩)

/-- Settles O7: by the first waiting input; a token is a reserved one or a command of its unit. -/
theorem onlyTheCommandsTheSpecRefusesHaveNoStep : Obligations.OnlyTheCommandsTheSpecRefusesHaveNoStep := by
  intro s hinv
  cases hin : s.input with
  | nil => exact Or.inl ⟨_, step_idle hin⟩
  | cons x rest =>
    cases x with
    | rst => exact Or.inl ⟨_, step_rst hin⟩
    | token u tok =>
      rw [step_token hin]
      rcases decodeToken_commands u tok with ⟨c, hnum, hc⟩ | ⟨hreserved, hrefused⟩
      · have hle : c ≠ .start → tok.toNat ≤ 256 := fun hne => hnum.resolve_left fun h => hne h.1
        rw [hc]
        cases u with
        | enc =>
          rcases hinv.enc.runCommand_answers (s := s.withInput rest) c with hnext | ⟨href, hne, hs⟩
          · exact Or.inl hnext
          · exact Or.inr ⟨.enc, tok, rest, rfl, Or.inr (Or.inl ⟨href, rfl, hle hne, hs⟩)⟩
        | dec =>
          rcases hinv.dec.runCommand_answers (s := s.withInput rest) c with hnext | ⟨href, hne, hf⟩ | ⟨href, hne, hs⟩
          · exact Or.inl hnext
          · exact Or.inr ⟨.dec, tok, rest, rfl, Or.inr (Or.inr (Or.inl ⟨href, rfl, hle hne, hf⟩))⟩
          · exact Or.inr ⟨.dec, tok, rest, rfl, Or.inr (Or.inr (Or.inr ⟨href, rfl, hle hne, hs⟩))⟩
      · exact Or.inr ⟨u, tok, rest, rfl, Or.inl ⟨hrefused _, hreserved⟩⟩

end Sys2Proof
end

section
/-! The round trip, code by code (44_encoder.md R191): DEC follows ENC, one table entry behind. Between two bytes ENC's
current run is empty, in a table just reset, or its code is still to be written, or its code has been written; for each
of these a relation says in which states DEC can be. -/

namespace Sys2Proof

open Sys2Proof.Machine

/-! ## Byte sequences and paths of the trie -/

@[simp] theorem ByteSeq.bytes_single (b : Byte) : (ByteSeq.single b).bytes = [b] := rfl

@[simp] theorem ByteSeq.bytes_snoc (q : ByteSeq) (b : Byte) : (q.snoc b).bytes = q.bytes ++ [b] := rfl

theorem ByteSeq.bytes_inj {p q : ByteSeq} (h : p.bytes = q.bytes) : p = q := by
  cases p
  cases q
  simpa [ByteSeq.bytes] using h

/-- One path leads to a node (42_encode_dictionary.md R145). -/
theorem TrieHolds.path_unique {nf : FreeCode} {t : Memory Code} (ht : TrieHolds nf t) {c : Code} (hc : IsNode nf c)
    {p q : List Byte} (hp : nodeOf t p = some (.code c)) (hq : nodeOf t q = some (.code c)) : p = q := by
  obtain ⟨r, -, honly⟩ := ht.hasOnePath c hc
  rw [honly p hp, honly q hq]

theorem nodeOf_literal (t : Memory Code) (b : Byte) : nodeOf t [b] = some (.code (literalCode b)) := rfl

/-- A path to a node goes on along an edge of the node. -/
theorem nodeOf_extend {t : Memory Code} {p : List Byte} {n c : Code} {b : Byte} (hp : nodeOf t p = some (.code n))
    (hc : trieChild t (.code n) b = some c) : nodeOf t (p ++ [b]) = some (.code c) := by
  simp [nodeOf_snoc, hp, hc]

/-- A new edge takes no path away (41_code_table.md R124). -/
theorem walk_set {t : Memory Code} {m : Code} {y : Byte} (hnew : trieChild t (.code m) y = none) (k : Code)
    {n : NodeId} {p : List Byte} {r : NodeId} (h : walk t n p = some r) : walk (trieSetChild m y k t) n p = some r := by
  induction p generalizing n with
  | nil => exact h
  | cons b p ih =>
    rw [walk_cons] at h ⊢
    obtain ⟨c, hc, hrest⟩ := Option.bind_eq_some_iff.mp h
    have hkept : trieChild (trieSetChild m y k t) n b = some c := by
      cases n with
      | root => exact hc
      | code n =>
        rw [trieChild_set_ne ?_, hc]
        intro heq
        obtain ⟨rfl, rfl⟩ := Prod.mk.inj heq
        simp [hnew] at hc
    rw [hkept]
    exact ih hrest

theorem nodeOf_set {t : Memory Code} {m : Code} {y : Byte} (hnew : trieChild t (.code m) y = none) (k : Code)
    {p : List Byte} {r : NodeId} (h : nodeOf t p = some r) : nodeOf (trieSetChild m y k t) p = some r :=
  walk_set hnew k h

/-! ## How DEC stands to ENC -/

/-- Every slot assigned in DEC's table holds the path of the trie to the node of its code. -/
def SlotsSpellPaths (t : Memory Code) (d : Dec) : Prop :=
  ∀ k : Code, 258 ≤ k.toNat → k.toNat < d.nf.toNat →
    ∃ q : ByteSeq, nodeOf t q.bytes = some (.code k) ∧ tabRead d.tab k = .bytes q

/-- DEC has the baseline table and awaits a first code (41_code_table.md R120). -/
structure Baseline (d : Dec) : Prop where
  state : d.state = .awaitFirst
  fault : d.fault = .none
  free : d.nf = Config.firstFree
  width : d.width = .w9

/-- ENC's current run is `r` and its code is the next one for DEC: the first one, or one after a sequence `p`, when the
newest node of ENC is the one DEC learns from the code, `p` and the first byte of `r` (45_decoder.md R226). -/
structure Expects (e : Enc) (d : Dec) (r : ByteSeq) : Prop where
  run : nodeOf e.trie r.bytes = some e.cur
  fault : d.fault = .none
  width : d.width = e.width
  learns : (d.state = .awaitFirst ∧ d.nf = e.nf ∧ d.nf = Config.firstFree) ∨
    (d.state = .steady ∧ SlotsSpellPaths e.trie d ∧ e.nf.toNat = d.nf.toNat + 1 ∧
      ∃ p, d.prev = some p ∧ nodeOf e.trie (p.snoc r.head).bytes = some (.code (slotCode d.nf)))

/-- ENC's current run is `r` and DEC has executed its code: DEC knows every node ENC knows. -/
structure HasTaken (e : Enc) (d : Dec) (r : ByteSeq) : Prop where
  run : nodeOf e.trie r.bytes = some e.cur
  fault : d.fault = .none
  width : d.width = widthFor (e.nf.toNat + 1)
  state : d.state = .steady
  slots : SlotsSpellPaths e.trie d
  free : d.nf = e.nf
  previous : d.prev = some r

/-! ## What DEC does with one code -/

/-- DEC with a code recorded in DEC.last. -/
def recorded (v : Code) (w : CodeWidth) (d : Dec) : Dec := { d with last := ⟨v, widthValue w, true⟩ }

theorem executeCode_recorded {k : CodeClass} {v : Code} {d : Dec} (hf : d.fault = .none)
    (hk : codeClass d.state d.nf v = some k) (w : CodeWidth) : executeCode v w d = runClass k v (recorded v w d) :=
  executeCode_of_class ((classNow_eq v hf).trans hk)

/-- The first literal becomes the previous sequence (45_decoder.md R221). -/
theorem executeCode_litFirst {d : Dec} {v : Code} (hs : d.state = .awaitFirst) (hf : d.fault = .none)
    (hv : v.toNat < 256) (w : CodeWidth) :
    executeCode v w d =
      .ok ()
        { emitData (ByteSeq.single (literalByte v)) (recorded v w d) with
          prev := some (ByteSeq.single (literalByte v)), state := .steady } := by
  rw [executeCode_recorded hf (k := .litFirst) (by rw [codeClass_spec]; simp [hs, hv]), runClass, runLitFirst,
    sequenceFor_literal v _ hv, bind_ok]

/-- CLEAR goes back to the baseline table (45_decoder.md R220). -/
theorem executeCode_clear {d : Dec} (hs : d.state = .awaitFirst ∨ d.state = .steady) (hf : d.fault = .none)
    (w : CodeWidth) :
    executeCode Config.clearCode w d =
      .ok () { resetDecTable (recorded Config.clearCode w d) with prev := none, state := .awaitFirst } :=
  executeCode_recorded hf ((codeClass_spec _ _ _ _).mpr (Or.inr (Or.inl ⟨rfl, hs, rfl⟩))) w

/-- EOD ends the stream (45_decoder.md R219). -/
theorem executeCode_eod {d : Dec} (hs : d.state = .awaitFirst ∨ d.state = .steady) (hf : d.fault = .none)
    (w : CodeWidth) : executeCode Config.eodCode w d = .ok () { recorded Config.eodCode w d with state := .done } :=
  executeCode_recorded hf ((codeClass_spec _ _ _ _).mpr (Or.inl ⟨rfl, hs, rfl⟩)) w

/-- A literal in STEADY is its byte, and goes on as STEADY_TAIL (45_decoder.md R222). -/
theorem executeCode_lit {d : Dec} {v : Code} (hs : d.state = .steady) (hf : d.fault = .none) (hv : v.toNat < 256)
    (w : CodeWidth) : executeCode v w d = steadyTail (ByteSeq.single (literalByte v)) (recorded v w d) := by
  rw [executeCode_recorded hf (k := .lit) (by rw [codeClass_spec]; simp [hs, hv]), runClass, runResolved,
    sequenceFor_literal v _ hv, bind_ok]

/-- An assigned code is what its slot holds (45_decoder.md R223). -/
theorem executeCode_dict {d : Dec} {v : Code} {q : ByteSeq} (hs : d.state = .steady) (hf : d.fault = .none)
    (hlow : 258 ≤ v.toNat) (hhigh : v.toNat < d.nf.toNat) (hq : tabRead d.tab v = .bytes q) (w : CodeWidth) :
    executeCode v w d = steadyTail q (recorded v w d) := by
  rw [executeCode_recorded hf (k := .dict) (by rw [codeClass_spec]; simp [hs, hlow, hhigh]), runClass, runResolved,
    sequenceFor_assigned v (recorded v w d) q hlow hhigh hq, bind_ok]

/-- The next free code is the previous sequence and its first byte (45_decoder.md R224). -/
theorem executeCode_kwkwk {d : Dec} {v : Code} {p : ByteSeq} (hs : d.state = .steady) (hf : d.fault = .none)
    (hlow : 258 ≤ v.toNat) (hv : v.toNat = d.nf.toNat) (hp : d.prev = some p) (w : CodeWidth) :
    executeCode v w d = steadyTail (p.snoc p.head) (recorded v w d) := by
  have hrecorded : (recorded v w d).prev = some p := hp
  rw [executeCode_recorded hf (k := .kwkwk) (by rw [codeClass_spec]; simp [hs, ← hv, hlow]), runClass, runKwkwk,
    hrecorded]

/-- STEADY_TAIL with room in the table emits, learns and remembers (45_decoder.md R226). -/
theorem steadyTail_learns {q p : ByteSeq} {d : Dec} (hp : d.prev = some p) (hroom : d.nf.toNat ≠ 4096) :
    steadyTail q d =
      .ok ()
        { d with
          tab := tabWrite (slotCode d.nf) (p.snoc q.head) d.tab
          nf := d.nf + 1#13
          width := widthFor ((d.nf + 1#13).toNat + 1)
          prev := some q
          out := d.out ++ q.bytes } := by
  rcases steadyTail_cases q d with ⟨hnone, -⟩ | ⟨p', hp', ⟨hfull, -⟩ | ⟨-, hok⟩⟩
  · simp [hp] at hnone
  · exact absurd hfull hroom
  · obtain rfl : p = p' := by simpa [hp] using hp'
    exact hok

/-- The next slot written with the path of its node: one slot more spells its path. -/
theorem SlotsSpellPaths.learn {t : Memory Code} {d d' : Dec} {q : ByteSeq} (h : SlotsSpellPaths t d)
    (hroom : d.nf.toNat < 4096) (hq : nodeOf t q.bytes = some (.code (slotCode d.nf))) (hnf : d'.nf = d.nf + 1#13)
    (htab : d'.tab = tabWrite (slotCode d.nf) q d.tab) : SlotsSpellPaths t d' := by
  intro k hlow hhigh
  have hslot := slotCode_toNat hroom
  rw [htab]
  by_cases hk : k = slotCode d.nf
  · exact ⟨q, by rw [hk, hq], by rw [hk, tabRead_write_self _ _ _ (hk ▸ hlow)]⟩
  · have hne : k.toNat ≠ d.nf.toNat := fun heq => hk (BitVec.eq_of_toNat_eq (by omega))
    rw [hnf, nf_succ hroom] at hhigh
    obtain ⟨q', hpath, hread⟩ := h k hlow (by omega)
    exact ⟨q', hpath, by rw [tabRead_write_ne hk, hread]⟩

/-! ## DEC takes the code of ENC's current run -/

section
variable {e : Enc} {d : Dec} {r : ByteSeq} {c : Code}

/-- The run of a literal is its byte. -/
theorem run_of_literal (he : EncRunning e) (hrun : nodeOf e.trie r.bytes = some (.code c)) (hlit : c.toNat < 256) :
    r = ByteSeq.single (literalByte c) := by
  refine ByteSeq.bytes_inj (he.trie.path_unique (Or.inl hlit) hrun ?_)
  rw [ByteSeq.bytes_single, nodeOf_literal, literalCode_literalByte hlit]

/-- The first code of a table is that of a literal, which becomes the previous sequence (45_decoder.md R221). -/
theorem Expects.take_first (h : Expects e d r) (he : EncRunning e) (hc : e.cur = .code c) (hs : d.state = .awaitFirst)
    (hnf : d.nf = e.nf) (hfirst : d.nf = Config.firstFree) (w : CodeWidth) :
    ∃ d', executeCode c w d = .ok () d' ∧ HasTaken e d' r ∧ d'.out = d.out ++ r.bytes := by
  have hfree : e.nf.toNat = 258 := by rw [← hnf, hfirst]; rfl
  have hrun := h.run
  rw [hc] at hrun
  have hlit : c.toNat < 256 := by
    rcases he.current c hc with hlit | ⟨hlow, hhigh⟩
    · exact hlit
    · omega
  obtain rfl := run_of_literal he hrun hlit
  refine ⟨_, executeCode_litFirst hs h.fault hlit w, ?_, rfl⟩
  exact
    { run := h.run
      fault := h.fault
      width := by
        show d.width = _
        rw [h.width, he.width, hfree]
        rfl
      state := rfl
      slots := fun k hlow hhigh => absurd hhigh (by show ¬ k.toNat < d.nf.toNat; rw [hnf]; omega)
      free := hnf
      previous := rfl }

/-- In STEADY the code of the run resolves to the run: as a literal, as the contents of its slot, or, when its node is
the one ENC learned last, as the previous sequence and its first byte (45_decoder.md R222 to R224). -/
theorem Expects.resolves (h : Expects e d r) (he : EncRunning e) (hc : e.cur = .code c) (hs : d.state = .steady)
    (hslots : SlotsSpellPaths e.trie d) (hnf : e.nf.toNat = d.nf.toNat + 1) {p : ByteSeq} (hp : d.prev = some p)
    (hnew : nodeOf e.trie (p.snoc r.head).bytes = some (.code (slotCode d.nf))) (w : CodeWidth) :
    executeCode c w d = steadyTail r (recorded c w d) := by
  have hrun := h.run
  rw [hc] at hrun
  have hnode := he.current c hc
  have hhigh := he.freeHigh
  rcases hnode with hlit | ⟨hlow, hlt⟩
  · rw [executeCode_lit hs h.fault hlit, run_of_literal he hrun hlit]
  · by_cases hold : c.toNat < d.nf.toNat
    · obtain ⟨q, hpath, hread⟩ := hslots c hlow hold
      have hq : q = r := ByteSeq.bytes_inj (he.trie.path_unique (he.current c hc) hpath hrun)
      rw [executeCode_dict hs h.fault hlow hold hread, hq]
    · have hlast : c.toNat = d.nf.toNat := by omega
      have hslot : slotCode d.nf = c := BitVec.eq_of_toNat_eq (by rw [slotCode_toNat (by omega), hlast])
      rw [hslot] at hnew
      have hr : p.snoc r.head = r := ByteSeq.bytes_inj (he.trie.path_unique (he.current c hc) hnew hrun)
      have hhead : p.head = r.head := by
        show (p.snoc r.head).head = r.head
        rw [hr]
      rw [executeCode_kwkwk hs h.fault hlow hlast hp, hhead, hr]

/-- The code of the run takes DEC to where it knows what ENC knows, and has emitted the run (44_encoder.md R191). -/
theorem Expects.take (h : Expects e d r) (he : EncRunning e) (hc : e.cur = .code c) (w : CodeWidth) :
    ∃ d', executeCode c w d = .ok () d' ∧ HasTaken e d' r ∧ d'.out = d.out ++ r.bytes := by
  rcases h.learns with ⟨hs, hnf, hfirst⟩ | ⟨hs, hslots, hnf, p, hp, hnew⟩
  · exact h.take_first he hc hs hnf hfirst w
  · have hhigh := he.freeHigh
    have hroom : d.nf.toNat < 4096 := by omega
    have hsucc := nf_succ hroom
    have hfree : d.nf + 1#13 = e.nf := BitVec.eq_of_toNat_eq (by omega)
    refine ⟨_, (h.resolves he hc hs hslots hnf hp hnew w).trans (steadyTail_learns hp hroom.ne), ?_, rfl⟩
    exact
      { run := h.run
        fault := h.fault
        width := by rw [← hfree]; rfl
        state := hs
        slots := hslots.learn hroom hnew rfl rfl
        free := hfree
        previous := rfl }

end

/-! ## VISIT -/

/-- Between two bytes: `b` is the byte held, and `u` the bytes of ENC's current run that DEC has not been sent. -/
inductive Between (e : Enc) (d : Dec) (b : Byte) : List Byte → Prop
  | fresh (hrun : e.cur = .root) (hfree : e.nf = Config.firstFree) (h : Baseline d) : Between e d b []
  | unsent (r : ByteSeq) (h : Expects e d r) (hedge : trieChild e.trie e.cur b ≠ none) : Between e d b r.bytes
  | sent (r : ByteSeq) (h : HasTaken e d r) (hedge : trieChild e.trie e.cur b = none) : Between e d b []

section
variable {e e1 : Enc} {d : Dec} {b : Byte} {g : Bool}

/-- VISIT begins the first run of a table (42_encode_dictionary.md R143). -/
theorem Baseline.visit (h : Baseline d) (he : EncRunning e) (hrun : e.cur = .root) (hfree : e.nf = Config.firstFree)
    (hv : visitByte b e = .ok g e1) : Expects e1 d (ByteSeq.single b) := by
  rw [visitByte_known (c := literalCode b) (by rw [hrun, trieChild_root])] at hv
  cases hv
  exact
    { run := rfl
      fault := h.fault
      width := by
        show d.width = e.width
        rw [h.width, he.width, hfree]
        rfl
      learns := Or.inl ⟨h.state, h.free.trans hfree.symm, h.free⟩ }

/-- VISIT extends a run along an edge (42_encode_dictionary.md R143). -/
theorem Expects.visit {r : ByteSeq} (h : Expects e d r) (hedge : trieChild e.trie e.cur b ≠ none)
    (hv : visitByte b e = .ok g e1) : Expects e1 d (r.snoc b) := by
  obtain ⟨c, hc⟩ := Option.ne_none_iff_exists'.mp hedge
  rw [visitByte_known hc] at hv
  cases hv
  exact { h with run := by simp [nodeOf_snoc, h.run, hc] }

/-- VISIT learns a run that cannot be extended and begins one at `b`: the node learnt is the one DEC will learn from the
next code (42_encode_dictionary.md R143, 45_decoder.md R226). -/
theorem HasTaken.visit {r : ByteSeq} (h : HasTaken e d r) (hedge : trieChild e.trie e.cur b = none)
    (hfree : e.nf.toNat ≤ 4094) (hv : visitByte b e = .ok g e1) : Expects e1 d (ByteSeq.single b) := by
  rcases visitByte_cases b e with ⟨c, hc, -⟩ | ⟨-, hfull, -⟩ | ⟨-, -, n, hn, hok⟩
  · simp [hedge] at hc
  · omega
  · rw [hok] at hv
    cases hv
    have hsucc : (e.nf + 1#13).toNat = e.nf.toNat + 1 := nf_succ (by omega)
    have hrun := h.run
    rw [hn] at hedge hrun
    refine
      { run := rfl
        fault := h.fault
        width := by rw [h.width, ← hsucc]
        learns := Or.inr ⟨h.state, fun k hlow hhigh => ?_, by rw [h.free]; exact hsucc, r, h.previous, ?_⟩ }
    · obtain ⟨q, hpath, hread⟩ := h.slots k hlow hhigh
      exact ⟨q, nodeOf_set hedge _ hpath, hread⟩
    · rw [h.free]
      exact nodeOf_extend (nodeOf_set hedge _ hrun) (trieChild_set_self _ _ _ _)

/-- After VISIT, ENC's run is what DEC has not been sent, the byte visited included. -/
theorem Between.visit {u : List Byte} (h : Between e d b u) (he : EncRunning e) (hfree : e.nf.toNat ≤ 4094)
    (hv : visitByte b e = .ok g e1) : ∃ r, Expects e1 d r ∧ r.bytes = u ++ [b] := by
  cases h with
  | fresh hrun hfirst h => exact ⟨_, h.visit he hrun hfirst hv, rfl⟩
  | unsent r h hedge => exact ⟨_, h.visit hedge hv, ByteSeq.bytes_snoc r b⟩
  | sent r h hedge => exact ⟨_, h.visit hedge hfree hv, rfl⟩

end

end Sys2Proof
end

section
/-! The codes ENC writes and the codes DEC executes: lists of codes with their widths, and their bits on the wire
(20_memory.md R50, R51, 40_bit_channel.md R105). -/

namespace Sys2Proof

open Sys2Proof.Machine

/-! ## The codes ENC writes -/

/-- The bits of codes in the order they go on the wire. -/
def codesBits (cs : List (Code × CodeWidth)) : List Bool := cs.flatMap fun c => codeBits c.1 c.2

@[simp] theorem codesBits_nil : codesBits [] = [] := rfl

@[simp] theorem codesBits_cons (v : Code) (w : CodeWidth) (cs : List (Code × CodeWidth)) :
    codesBits ((v, w) :: cs) = codeBits v w ++ codesBits cs := rfl

@[simp] theorem codesBits_append (cs cs' : List (Code × CodeWidth)) :
    codesBits (cs ++ cs') = codesBits cs ++ codesBits cs' := List.flatMap_append

/-- From `e` to `e'` ENC has written the codes `cs`: their bits are sent or held behind the bits held before. -/
def Writes (e : Enc) (cs : List (Code × CodeWidth)) (e' : Enc) : Prop :=
  ∃ sent, e'.out = e.out ++ sent ∧
    streamBits sent ++ heldBits e'.pkAcc e'.pkCnt = heldBits e.pkAcc e.pkCnt ++ codesBits cs

/-- From `e` to `e'` ENC has written the codes `cs` and sent all their bits, with some padding. -/
def Closes (e : Enc) (cs : List (Code × CodeWidth)) (e' : Enc) : Prop :=
  ∃ sent padding, e'.out = e.out ++ sent ∧
    streamBits sent = heldBits e.pkAcc e.pkCnt ++ codesBits cs ++ padding

section
variable {e e1 e2 : Enc} {cs cs' : List (Code × CodeWidth)}

/-- Nothing is written where the packer and the port are as before. -/
theorem writes_nil (hacc : e1.pkAcc = e.pkAcc) (hcnt : e1.pkCnt = e.pkCnt) (hout : e1.out = e.out) :
    Writes e [] e1 :=
  ⟨[], by simp [hout], by simp [hacc, hcnt]⟩

theorem Writes.trans (h : Writes e cs e1) (h' : Writes e1 cs' e2) : Writes e (cs ++ cs') e2 := by
  obtain ⟨sent, hout, hbits⟩ := h
  obtain ⟨sent', hout', hbits'⟩ := h'
  refine ⟨sent ++ sent', by rw [hout', hout, List.append_assoc], ?_⟩
  rw [streamBits_append, List.append_assoc, hbits', ← List.append_assoc, hbits, codesBits_append, List.append_assoc]

theorem Writes.closes (h : Writes e cs e1) (h' : Closes e1 cs' e2) : Closes e (cs ++ cs') e2 := by
  obtain ⟨sent, hout, hbits⟩ := h
  obtain ⟨sent', padding, hout', hbits'⟩ := h'
  refine ⟨sent ++ sent', padding, by rw [hout', hout, List.append_assoc], ?_⟩
  rw [streamBits_append, hbits', ← List.append_assoc, ← List.append_assoc, hbits, codesBits_append]
  simp only [List.append_assoc]

/-- PUT writes its code (40_bit_channel.md R101). -/
theorem EncRunning.writes_put {v : Code} {w : CodeWidth} (he : EncRunning e) (hv : v.toNat < 2 ^ w.bits) :
    Writes e [(v, w)] (Machine.put v w e) := by
  obtain ⟨sent, acc, cnt, heq, -, -, -, hbits⟩ := put_spec v w e hv he.held he.padding
  rw [heq]
  exact ⟨sent, rfl, by simpa using hbits⟩

/-- FLUSH sends what is held (40_bit_channel.md R102). -/
theorem EncRunning.closes_flushBits (he : EncRunning e) : Closes e [] (flushBits e) := by
  unfold flushBits
  split
  · refine ⟨[e.pkAcc.setWidth 8], List.replicate (8 - e.pkCnt.toNat) false, rfl, ?_⟩
    rw [streamBits_cons, byteBits_of_held _ _ he.held he.padding]
    simp
  · rename_i hcnt
    have hzero : e.pkCnt.toNat = 0 := by omega
    exact ⟨[], [], by simp, by simp [heldBits, hzero]⟩

/-- The end of ENC_END writes EOD, at the width W(nf + 1), and sends all bits (44_encoder.md R188, R189). -/
theorem EncRunning.closes_closeStream (he : EncRunning e) :
    Closes e [(Config.eodCode, widthFor (e.nf.toNat + 1))] (Machine.closeStream e) := by
  have hfits := fits_every_width (v := Config.eodCode) (by decide) (widthFor (e.nf.toNat + 1))
  exact (he.writes_put hfits).closes (he.put hfits).closes_flushBits

end

/-! ## The codes DEC executes -/

/-- DEC executes the codes `cs`, each at the width in force, and is then in a state of property `Q`. What the unpacker
holds at each code is left open: it is not the codes' concern. -/
def Executes : List (Code × CodeWidth) → (Dec → Prop) → Dec → Prop
  | [], Q, d => Q d
  | (v, w) :: cs, Q, d =>
    (d.state = .awaitFirst ∨ d.state = .steady) ∧ d.fault = .none ∧ d.width = w ∧ v.toNat < 2 ^ w.bits ∧
      ∀ acc cnt, ∃ d', executeCode v w { d with upAcc := acc, upCnt := cnt } = .ok () d' ∧ Executes cs Q d'

/-- Codes executed one list after the other. -/
theorem Executes.append {cs cs' : List (Code × CodeWidth)} {Q Q' : Dec → Prop} {d : Dec} (h : Executes cs Q d)
    (hQ : ∀ d', Q d' → Executes cs' Q' d') : Executes (cs ++ cs') Q' d := by
  induction cs generalizing d with
  | nil => exact hQ d h
  | cons c cs ih =>
    obtain ⟨hs, hf, hw, hv, hrun⟩ := h
    refine ⟨hs, hf, hw, hv, fun acc cnt => ?_⟩
    obtain ⟨d', hexec, hrest⟩ := hrun acc cnt
    exact ⟨d', hexec, ih hrest⟩

theorem Executes.imp {cs : List (Code × CodeWidth)} {Q Q' : Dec → Prop} {d : Dec} (h : Executes cs Q d)
    (hQ : ∀ d', Q d' → Q' d') : Executes cs Q' d :=
  List.append_nil cs ▸ h.append (cs' := []) hQ

/-- DEC is in DONE without a fault and has emitted `total`. -/
structure Finished (total : List Byte) (d : Dec) : Prop where
  state : d.state = .done
  fault : d.fault = .none
  out : d.out = total

section
variable {e : Enc} {d : Dec} {r : ByteSeq} {c : Code} {w : CodeWidth}

/-- DEC executes CLEAR (45_decoder.md R220). -/
theorem executes_clear (hs : d.state = .awaitFirst ∨ d.state = .steady) (hf : d.fault = .none) (hw : d.width = w) :
    Executes [(Config.clearCode, w)] (fun d' => Baseline d' ∧ d'.out = d.out) d :=
  ⟨hs, hf, hw, fits_every_width (by decide) w, fun acc cnt =>
    ⟨_, executeCode_clear (d := { d with upAcc := acc, upCnt := cnt }) hs hf w, ⟨rfl, hf, rfl, rfl⟩, rfl⟩⟩

/-- DEC executes EOD (45_decoder.md R219). -/
theorem executes_eod (hs : d.state = .awaitFirst ∨ d.state = .steady) (hf : d.fault = .none) (hw : d.width = w) :
    Executes [(Config.eodCode, w)] (Finished d.out) d :=
  ⟨hs, hf, hw, fits_every_width (by decide) w, fun acc cnt =>
    ⟨_, executeCode_eod (d := { d with upAcc := acc, upCnt := cnt }) hs hf w, ⟨rfl, hf, rfl⟩⟩⟩

/-- DEC executes the code of ENC's current run and has emitted the run. -/
theorem Expects.executes (h : Expects e d r) (he : EncRunning e) (hc : e.cur = .code c) :
    Executes [(c, e.width)] (fun d' => HasTaken e d' r ∧ d'.out = d.out ++ r.bytes) d :=
  ⟨h.learns.imp And.left And.left, h.fault, h.width, he.fits (he.current c hc), fun acc cnt =>
    Expects.take (d := { d with upAcc := acc, upCnt := cnt }) { h with } he hc e.width⟩

/-! ## The steps of ENC -/

/-- Step 6 of ENC_STEP at next free code 4095: on both of its branches the match is written, and then CLEAR
(44_encoder.md R186). -/
theorem proactiveReset_writes (c : Code) (f : Bool) (h : e.nf = Config.clearAt) :
    proactiveReset c f (if f then put c e.width e else e) =
      { resetEncTable (put Config.clearCode e.width (put c e.width e)) with cur := .root } := by
  unfold proactiveReset
  cases f <;> simp [h]

/-- DEC knows as much of the run where ENC has changed only its packer. -/
theorem HasTaken.put (h : HasTaken e d r) (v : Code) (w : CodeWidth) : HasTaken (put v w e) d r := by
  obtain ⟨sent, acc, cnt, heq, -⟩ := put_frame v w e
  rw [heq]
  exact { h with }

/-- VISIT and the code of the run it leaves take DEC on (44_encoder.md R191). -/
theorem Between.executes_visited {e1 : Enc} {b : Byte} {g : Bool} {u : List Byte} (h : Between e d b u)
    (he : EncRunning e) (hfree : e.nf.toNat ≤ 4094) (hv : visitByte b e = .ok g e1) (hc : e1.cur = .code c) :
    Executes [(c, e1.width)] (fun d' => ∃ r, HasTaken e1 d' r ∧ d'.out = d.out ++ u ++ [b]) d := by
  obtain ⟨r, hr, hbytes⟩ := h.visit he hfree hv
  refine (hr.executes (he.visit hfree hv) hc).imp fun d' ⟨htaken, hout⟩ => ⟨r, htaken, ?_⟩
  rw [hout, hbytes, List.append_assoc]

/-- At next free code 4095 the widths of ENC and DEC are the same (41_code_table.md R125, R126). -/
theorem HasTaken.width_at_clear (h : HasTaken e d r) (he : EncRunning e) (hn : e.nf = Config.clearAt) :
    d.width = e.width := by
  rw [h.width, he.width, hn]
  decide

/-- What ENC writes in ENC_STEP with a byte to follow takes DEC to its state between that byte and the next
(44_encoder.md R186, R191). -/
theorem EncRunning.processByte_executes {b x : Byte} {e' : Enc} (he : EncRunning e) (hfree : e.nf.toNat ≤ 4094)
    (hp : Machine.processByte b (.byte x) e = .ok () e') :
    ∃ cs, Writes e cs e' ∧ ∀ d u, Between e d b u →
      Executes cs (fun d' => ∃ u', Between e' d' x u' ∧ d'.out ++ u' = d.out ++ u ++ [b]) d := by
  rcases processByte_cases b (.byte x) e with ⟨hfull, -⟩ | ⟨e1, g, c, hv, hc, ⟨hla, -⟩ | ⟨x', hx, hok⟩⟩
  · omega
  · cases hla
  · cases hx
    rw [hok] at hp
    cases hp
    have he1 := he.visit hfree hv
    have hfits := he1.fits (he1.current c hc)
    obtain ⟨-, -, -, hacc, hcnt, hout⟩ := visitByte_frame hv
    have hvisit : Writes e [] e1 := writes_nil hacc hcnt hout
    by_cases hn : e1.nf = Config.clearAt
    · rw [proactiveReset_writes c _ hn]
      have hclear := (he1.put hfits).writes_put (fits_every_width (v := Config.clearCode) (by decide) e1.width)
      refine ⟨[(c, e1.width), (Config.clearCode, e1.width)],
        (hvisit.trans (he1.writes_put hfits)).trans (hclear.trans (writes_nil rfl rfl rfl)), fun d u h => ?_⟩
      refine (h.executes_visited he hfree hv hc).append (cs' := [(Config.clearCode, e1.width)])
        fun d1 ⟨r, htaken, hout1⟩ => ?_
      refine (executes_clear (Or.inr htaken.state) htaken.fault (htaken.width_at_clear he1 hn)).imp
        fun d2 ⟨hbase, hout2⟩ => ⟨[], .fresh rfl rfl hbase, ?_⟩
      rw [hout2, hout1, List.append_nil]
    · by_cases hedge : trieChild e1.trie e1.cur x = none
      · have hflag := (flushedFlag_eq_true e1 x).mpr hedge
        rw [hflag, if_pos rfl, proactiveReset_below _ _ _ (by simpa using hn)]
        refine ⟨[(c, e1.width)], hvisit.trans (he1.writes_put hfits), fun d u h => ?_⟩
        refine (h.executes_visited he hfree hv hc).imp fun d' ⟨r, htaken, hout'⟩ => ?_
        exact ⟨[], .sent r (htaken.put _ _) (by simpa using hedge), by rw [hout', List.append_nil]⟩
      · have hflag := Bool.eq_false_iff.mpr (mt (flushedFlag_eq_true e1 x).mp hedge)
        rw [hflag, if_neg Bool.false_ne_true, proactiveReset_below _ _ _ hn]
        refine ⟨[], hvisit, fun d u h => ?_⟩
        obtain ⟨r, hr, hbytes⟩ := h.visit he hfree hv
        exact ⟨r.bytes, .unsent r hr hedge, by rw [hbytes, List.append_assoc]⟩

/-- What ENC writes for the last byte, EOD included, takes DEC to DONE (44_encoder.md R188, R189, R191). -/
theorem EncRunning.lastByte_executes {b : Byte} {e' : Enc} (he : EncRunning e) (hfree : e.nf.toNat ≤ 4094)
    (hp : Machine.processByte b .endOfData e = .ok () e') :
    ∃ cs, Closes e cs (Machine.closeStream { e' with pending := none }) ∧ ∀ d u, Between e d b u →
      Executes cs (Finished (d.out ++ u ++ [b])) d := by
  rcases processByte_cases b .endOfData e with ⟨hfull, -⟩ | ⟨e1, g, c, hv, hc, ⟨-, hok⟩ | ⟨x, hx, -⟩⟩
  · omega
  · rw [hok] at hp
    cases hp
    have he1 := he.visit hfree hv
    have hfits := he1.fits (he1.current c hc)
    obtain ⟨-, -, -, hacc, hcnt, hout⟩ := visitByte_frame hv
    have hwrites : Writes e [(c, e1.width)] { Machine.put c e1.width e1 with pending := none } :=
      ((writes_nil hacc hcnt hout).trans (he1.writes_put hfits)).trans (writes_nil rfl rfl rfl)
    refine ⟨_, hwrites.closes ((he1.put hfits).withPending none).closes_closeStream, fun d u h => ?_⟩
    refine (h.executes_visited he hfree hv hc).append fun d1 ⟨r, htaken, hout1⟩ => ?_
    rw [← hout1]
    exact executes_eod (Or.inr htaken.state) htaken.fault (by simpa using htaken.width)
  · cases hx

end

end Sys2Proof
end

section
/-! The round trip, byte by byte (44_encoder.md R191): ENC turns an operation into the bytes of its codes, and DEC turns
the bytes of codes into their execution. -/

namespace Sys2Proof

open Sys2Proof.Machine

/-! ## An operation on one unit -/

/-- ENC after the host offered it commands, in order. -/
def encRun (cs : List Command) (e : Enc) : Enc := cs.foldl (fun e c => (encCommand c e).unitAfter e) e

/-- DEC after the host offered it commands, in order. -/
def decRun (cs : List Command) (d : Dec) : Dec := cs.foldl (fun d c => (decCommand c d).unitAfter d) d

theorem encRun_cons {c : Command} {e e1 : Enc} (h : encCommand c e = .ok () e1) (cs : List Command) :
    encRun (c :: cs) e = encRun cs e1 := by
  simp [encRun, h, Flow.unitAfter]

theorem decRun_cons {c : Command} {d d1 : Dec} (h : decCommand c d = .ok () d1) (cs : List Command) :
    decRun (c :: cs) d = decRun cs d1 := by
  simp [decRun, h, Flow.unitAfter]

/-- The token of a command on a unit's port (30_encoding.md R71). -/
def tokenOf : Command → Token
  | .byte x => x.setWidth 10
  | .finish => 0x100#10
  | .start => 0x200#10

/-- The commands of an operation: START, one BYTE per byte, END (30_encoding.md R83). -/
def operationCommands (bytes : List Byte) : List Command := .start :: (bytes.map .byte ++ [.finish])

theorem operation_eq (u : UnitId) (bytes : List Byte) :
    operation u bytes = (operationCommands bytes).map fun c => .token u (tokenOf c) := by
  simp [operation, operationCommands, startToken, endToken, byteToken, tokenOf]

/-- A byte's token is decoded to BYTE (30_encoding.md R71). -/
theorem setWidth_eq_makeToken (x : Byte) : (x.setWidth 10 : Token) = makeToken 0#2 x := by
  refine BitVec.eq_of_toNat_eq ?_
  have := x.isLt
  rw [makeToken_toNat, BitVec.toNat_setWidth, BitVec.toNat_ofNat]
  omega

/-- The token of a command runs it. -/
theorem exec_tokenOf (u : UnitId) (c : Command) (s : State) :
    exec (decodeToken u (tokenOf c)) s = runCommand u c s := by
  cases c with
  | byte x =>
    rw [tokenOf, setWidth_eq_makeToken]
    cases u <;> simp [decodeToken] <;> rfl
  | finish => cases u <;> rfl
  | start => cases u <;> rfl

theorem feed_encCommands (cs : List Command) (s : State) :
    (feed (cs.map fun c => .token .enc (tokenOf c)) s).enc = encRun cs s.enc := by
  induction cs generalizing s with
  | nil => rfl
  | cons c cs ih =>
    show (feed _ (offer _ s)).enc = _
    rw [offer_encCommand (exec_tokenOf .enc c s), ih]
    rfl

theorem feed_decCommands (cs : List Command) (s : State) :
    (feed (cs.map fun c => .token .dec (tokenOf c)) s).dec = decRun cs s.dec := by
  induction cs generalizing s with
  | nil => rfl
  | cons c cs ih =>
    show (feed _ (offer _ s)).dec = _
    rw [offer_decCommand (exec_tokenOf .dec c s), ih]
    rfl

/-! ## ENC: from the data to the codes -/

/-- DEC's state between two bytes is about ENC's table and run, not about the byte it holds. -/
theorem Between.withPending {e : Enc} {d : Dec} {b : Byte} {u : List Byte} (h : Between e d b u) (p : Option Byte) :
    Between { e with pending := p } d b u := by
  cases h with
  | fresh hrun hfree h => exact .fresh hrun hfree h
  | unsent r h hedge => exact .unsent r { h with } hedge
  | sent r h hedge => exact .sent r { h with } hedge

theorem closeStream_ends (e : Enc) : (closeStream e).state = .eof ∧ (closeStream e).fault = e.fault := by
  obtain ⟨sent, heq⟩ := closeStream_frame e
  rw [heq]
  exact ⟨rfl, rfl⟩

/-- ENC_BYTE processes the byte held and holds the new one (44_encoder.md R185). -/
theorem takeDataByte_held {e e1 : Enc} {b x : Byte} (hs : e.state = .accumulating) (hf : e.fault = .none)
    (hb : e.pending = some b) (hp : processByte b (.byte x) e = .ok () e1) :
    takeDataByte x e = .ok () { e1 with pending := some x } := by
  rw [takeDataByte, whileAccumulating_runs _ hs hf, hb]
  simp [hp]

/-- ENC_END processes the byte held and closes the stream (44_encoder.md R188). -/
theorem endEncoding_held {e e1 : Enc} {b : Byte} (hs : e.state = .accumulating) (hf : e.fault = .none)
    (hb : e.pending = some b) (hp : processByte b .endOfData e = .ok () e1) :
    endEncoding e = .ok () (closeStream { e1 with pending := none }) := by
  rw [endEncoding, whileAccumulating_runs _ hs hf, hb]
  simp [hp]

/-- What ENC writes for the byte held, the bytes to come and END takes DEC to DONE, with these bytes emitted. -/
theorem EncInv.encodes {e : Enc} {b : Byte} (h : EncInv e) (hs : e.state = .accumulating) (hb : e.pending = some b)
    (xs : List Byte) :
    ∃ cs e', encRun (xs.map .byte ++ [.finish]) e = e' ∧ e'.state = .eof ∧ e'.fault = .none ∧ Closes e cs e' ∧
      ∀ d u, Between e d b u → Executes cs (Finished (d.out ++ u ++ b :: xs)) d := by
  induction xs generalizing e b with
  | nil =>
    have hrun := h.running (by simp [hs])
    have hfree := h.freeAccumulating hs
    rcases processByte_ends b .endOfData e with ⟨hfull, -⟩ | ⟨e1, hp⟩
    · omega
    · obtain ⟨cs, hcloses, hexec⟩ := hrun.lastByte_executes hfree hp
      obtain ⟨hstate, hfault⟩ := closeStream_ends { e1 with pending := none }
      obtain ⟨-, hfault1, -, -⟩ := processByte_frame hp
      have hend := endEncoding_held hs h.noFault hb hp
      exact ⟨cs, _, encRun_cons (c := .finish) hend [], hstate, hfault.trans (hfault1.trans h.noFault), hcloses, hexec⟩
  | cons x xs ih =>
    have hrun := h.running (by simp [hs])
    have hfree := h.freeAccumulating hs
    rcases processByte_ends b (.byte x) e with ⟨hfull, -⟩ | ⟨e1, hp⟩
    · omega
    · obtain ⟨cs, hwrites, hexec⟩ := hrun.processByte_executes hfree hp
      have hbyte := takeDataByte_held hs h.noFault hb hp
      have h1 := h.command (c := .byte x) (Or.inl hbyte)
      obtain ⟨hstate1, -, -, -⟩ := processByte_frame hp
      have hs1 : e1.state = .accumulating := hstate1.trans hs
      obtain ⟨cs', e', hend, hstate, hfault, hcloses, hexec'⟩ := ih h1 hs1 rfl
      have hwrites1 : Writes e (cs ++ []) { e1 with pending := some x } := hwrites.trans (writes_nil rfl rfl rfl)
      refine ⟨cs ++ [] ++ cs', e', (encRun_cons (c := .byte x) hbyte _).trans hend, hstate, hfault,
        hwrites1.closes hcloses, fun d u hd => ?_⟩
      rw [List.append_nil]
      refine (hexec d u hd).append fun d' ⟨u', hbetween, hout⟩ => ?_
      have := hexec' d' u' (hbetween.withPending _)
      rwa [hout, List.append_assoc, List.singleton_append] at this

/-- ENC with an empty packer. -/
def withEmptyPacker (e : Enc) : Enc := { e with pkAcc := 0#19, pkCnt := 0#5 }

/-- START begins with an empty packer and writes CLEAR (44_encoder.md R184). -/
theorem writes_startEncoding (e : Enc) : Writes (withEmptyPacker e) [(Config.clearCode, .w9)] (startEncoding e) := by
  rw [startEncoding_eq]
  refine ⟨[0x00#8], rfl, ?_⟩
  show streamBits [0x00#8] ++ heldBits 1#19 1#5 = heldBits 0#19 0#5 ++ codesBits [(Config.clearCode, .w9)]
  decide

/-- Before the first byte ENC is in the baseline table with an empty run. -/
theorem between_startEncoding (e : Enc) {d : Dec} (h : Baseline d) (b : Byte) :
    Between { startEncoding e with pending := some b } d b [] := by
  rw [startEncoding_eq]
  exact .fresh rfl rfl h

/-- The codes of an operation on ENC: ENC ends in EOF with their bits sent, and they take DEC from the baseline table to
DONE with the operation's bytes emitted (44_encoder.md R191). -/
theorem encRun_operation (data : List Byte) (e : Enc) :
    ∃ cs e', encRun (operationCommands data) e = e' ∧ e'.state = .eof ∧ e'.fault = .none ∧
      Closes (withEmptyPacker e) cs e' ∧ ∀ d, Baseline d → Executes cs (Finished (d.out ++ data)) d := by
  have hinv := startEncoding_inv e
  have hs : (startEncoding e).state = .accumulating := rfl
  have hp : (startEncoding e).pending = none := by rw [startEncoding_eq]; rfl
  have hclear : ∀ d, Baseline d → Executes [(Config.clearCode, .w9)] (fun d' => Baseline d' ∧ d'.out = d.out) d :=
    fun d h => executes_clear (Or.inl h.state) h.fault h.width
  cases data with
  | nil =>
    have hend : encCommand .finish (startEncoding e) = .ok () (closeStream (startEncoding e)) := by
      rw [encCommand, endEncoding, whileAccumulating_runs _ hs hinv.noFault, hp]
    obtain ⟨hstate, hfault⟩ := closeStream_ends (startEncoding e)
    refine ⟨_, _, (encRun_cons (c := .start) rfl _).trans (encRun_cons hend _), hstate, hfault.trans hinv.noFault,
      (writes_startEncoding e).closes (hinv.running (by simp [hs])).closes_closeStream, fun d hd => ?_⟩
    refine (hclear d hd).append fun d1 ⟨hbase, hout⟩ => ?_
    rw [List.append_nil, ← hout]
    exact executes_eod (Or.inl hbase.state) hbase.fault (by rw [hbase.width, startEncoding_eq]; rfl)
  | cons b data =>
    have hbyte : encCommand (.byte b) (startEncoding e) = .ok () { startEncoding e with pending := some b } := by
      rw [encCommand, takeDataByte, whileAccumulating_runs _ hs hinv.noFault, hp]
    obtain ⟨cs, e', hend, hstate, hfault, hcloses, hexec⟩ := (hinv.command (Or.inl hbyte)).encodes hs rfl data
    have hwrites : Writes (withEmptyPacker e) _ { startEncoding e with pending := some b } :=
      (writes_startEncoding e).trans (writes_nil rfl rfl rfl)
    refine ⟨_, e', (encRun_cons (c := .start) rfl _).trans ((encRun_cons hbyte _).trans hend), hstate, hfault,
      hwrites.closes hcloses, fun d hd => ?_⟩
    refine (hclear d hd).append (cs' := cs) fun d1 ⟨hbase, hout⟩ => ?_
    have := hexec d1 [] (between_startEncoding e hbase b)
    rwa [hout, List.append_nil] at this

/-! ## DEC: from the codes to the data -/

/-- A code of a width is known from its bits. -/
theorem codeBits_inj {v v' : Code} {w : CodeWidth} (hv : v.toNat < 2 ^ w.bits) (hv' : v'.toNat < 2 ^ w.bits)
    (h : codeBits v w = codeBits v' w) : v = v' := by
  refine BitVec.eq_of_getLsbD_eq fun i _ => ?_
  by_cases hi : i < w.bits
  · simpa [codeBits, hi] using congrArg (·[i]?) h
  · rw [getLsbD_high hv (Nat.not_lt.mp hi), getLsbD_high hv' (Nat.not_lt.mp hi)]

/-- The count GET leaves (40_bit_channel.md R104). -/
theorem upCnt_take {cnt : BitCount} {w : CodeWidth} (h : w.bits ≤ cnt.toNat) :
    (cnt - BitVec.ofNat 5 w.bits).toNat + w.bits = cnt.toNat := by
  have := (width_le w).2
  rw [BitVec.toNat_sub_of_le (by rw [BitVec.le_def, BitVec.toNat_ofNat]; omega), BitVec.toNat_ofNat]
  omega

/-- What DEC holds of the unpacker does not matter to the codes to come. -/
theorem Executes.withUnpacker {cs : List (Code × CodeWidth)} {total : List Byte} {d : Dec}
    (h : Executes cs (Finished total) d) (acc : Accumulator) (cnt : BitCount) :
    Executes cs (Finished total) { d with upAcc := acc, upCnt := cnt } := by
  cases cs with
  | nil => exact { h with }
  | cons c cs => exact h

/-- GET takes the code whose bits are held first (40_bit_channel.md R104, 20_memory.md R51). -/
theorem getCode_of_heldBits {d : Dec} {v : Code} {w : CodeWidth} {rest bits : List Bool} (hle : w.bits ≤ d.upCnt.toNat)
    (hv : v.toNat < 2 ^ w.bits) (hbits : heldBits d.upAcc d.upCnt ++ rest = codeBits v w ++ bits) :
    getCode w d = .ok v { d with upAcc := d.upAcc >>> w.bits, upCnt := d.upCnt - BitVec.ofNat 5 w.bits } ∧
      heldBits (d.upAcc >>> w.bits) (d.upCnt - BitVec.ofNat 5 w.bits) ++ rest = bits := by
  rcases getCode_cases w d with ⟨-, v', hget, hv'⟩ | ⟨hlt, -⟩
  · rw [heldBits_take_code _ _ _ w v' hv' (upCnt_take hle), List.append_assoc] at hbits
    obtain ⟨hcode, hrest⟩ := List.append_inj hbits (by simp)
    obtain rfl := codeBits_inj (hv' ▸ Nat.mod_lt _ (by positivity)) hv hcode
    exact ⟨hget, hrest⟩
  · omega

/-- DEC is to execute the codes `cs` next, which take it to DONE with `total` emitted, and their bits are those it holds
and then the wire bits `rest` to come. In DONE no code is to come, and the bits are discarded. -/
structure Decoding (total : List Byte) (padding : List Bool) (cs : List (Code × CodeWidth)) (d : Dec)
    (rest : List Bool) : Prop where
  inv : DecInv d
  executes : Executes cs (Finished total) d
  bits : cs ≠ [] → heldBits d.upAcc d.upCnt ++ rest = codesBits cs ++ padding

section
variable {total : List Byte} {padding : List Bool} {cs : List (Code × CodeWidth)} {d : Dec} {rest : List Bool}

/-- In DONE a byte is discarded (45_decoder.md R215). -/
theorem Finished.decCommand_byte (h : Finished total d) (x : Byte) : decCommand (.byte x) d = .ok () d := by
  rw [decCommand, takeWireByte, whileOperating_runs _ (by simp [h.state]) h.fault, if_pos h.state]

/-- In DONE END has no effect (45_decoder.md R216). -/
theorem Finished.decCommand_finish (h : Finished total d) : decCommand .finish d = .ok () d := by
  rw [decCommand, endDecoding, whileOperating_runs _ (by simp [h.state]) h.fault, if_pos h.state]

/-- DEC_BYTE where codes execute (45_decoder.md R215). -/
theorem decCommand_byte {x : Byte} (hs : d.state = .awaitFirst ∨ d.state = .steady) (hf : d.fault = .none) :
    decCommand (.byte x) d = takeCodes 4 (fillByte x d) := by
  have hidle : d.state ≠ .idle := by rcases hs with hs | hs <;> simp [hs]
  have hdone : d.state ≠ .done := by rcases hs with hs | hs <;> simp [hs]
  rw [decCommand, takeWireByte, whileOperating_runs _ hidle hf, if_neg hdone]

/-- A byte that does not complete the next code is held. -/
theorem Decoding.fill {v : Code} {w : CodeWidth} {x : Byte}
    (h : Decoding total padding ((v, w) :: cs) d (byteBits x ++ rest)) (hlt : d.upCnt.toNat + 8 < w.bits) :
    ∃ d', decCommand (.byte x) d = .ok () d' ∧ Decoding total padding ((v, w) :: cs) d' rest := by
  obtain ⟨hs, hf, hw, -⟩ := h.executes
  obtain ⟨hcnt, -, hheld⟩ := fillByte_spec x d h.inv.held h.inv.padding
  have hbyte : decCommand (.byte x) d = .ok () (fillByte x d) := by
    rw [decCommand_byte hs hf, takeCodes_stop]
    rintro ⟨-, -, hle⟩
    rw [fillByte_width, hw] at hle
    omega
  refine ⟨_, hbyte, h.inv.command (Or.inl hbyte), h.executes.withUnpacker _ _, fun hne => ?_⟩
  rw [hheld, List.append_assoc, h.bits hne]

/-- A byte that completes the next code has it executed. -/
theorem Decoding.take {v : Code} {w : CodeWidth} {x : Byte}
    (h : Decoding total padding ((v, w) :: cs) d (byteBits x ++ rest)) (hle : w.bits ≤ d.upCnt.toNat + 8) :
    ∃ d', decCommand (.byte x) d = .ok () d' ∧ Decoding total padding cs d' rest := by
  obtain ⟨hs, hf, hw, hv, hrun⟩ := h.executes
  have hlt := h.inv.incomplete hf hs
  obtain ⟨hcnt, -, hheld⟩ := fillByte_spec x d h.inv.held h.inv.padding
  have hbits := h.bits (List.cons_ne_nil _ _)
  rw [← List.append_assoc, ← hheld, codesBits_cons, List.append_assoc] at hbits
  obtain ⟨hget, hkept⟩ := getCode_of_heldBits (by rw [hcnt]; exact hle) hv hbits
  obtain ⟨d', hexec, hrest'⟩ := hrun ((fillByte x d).upAcc >>> w.bits) ((fillByte x d).upCnt - BitVec.ofNat 5 w.bits)
  have hbyte : decCommand (.byte x) d = .ok () d' := by
    have hwidth : (fillByte x d).width = w := hw
    have hdone : (fillByte x d).state ≠ .done := by rcases hs with hs | hs <;> simp [hs]
    rw [decCommand_byte hs hf, takeCodes_once 3 _ ⟨hdone, hf, by rw [hwidth, hcnt]; exact hle⟩
      (by rw [hwidth, hcnt, ← hw]; omega), hwidth, hget, bind_ok]
    exact hexec
  obtain ⟨hacc, hcnt', -⟩ := executeCode_keeps (Or.inl hexec)
  refine ⟨d', hbyte, h.inv.command (Or.inl hbyte), hrest', fun _ => ?_⟩
  rw [hacc, hcnt', hkept]

/-- Where no byte is to come, no code is: it would be held whole, and DEC never holds a whole code. -/
theorem Decoding.finished (h : Decoding total padding cs d []) : Finished total d := by
  cases cs with
  | nil => exact h.executes
  | cons c cs =>
    obtain ⟨v, w⟩ := c
    obtain ⟨hs, hf, hw, -⟩ := h.executes
    have hlt := h.inv.incomplete hf hs
    have hlen := congrArg List.length (h.bits (List.cons_ne_nil _ _))
    simp [hw] at hlen hlt
    omega

/-- The bytes of the codes to come take DEC to DONE, and END leaves it there. -/
theorem Decoding.decodes {xs : List Byte} (h : Decoding total padding cs d (streamBits xs)) :
    Finished total (decRun (xs.map .byte ++ [.finish]) d) := by
  induction xs generalizing d cs with
  | nil =>
    have hfinished := h.finished
    rw [List.map_nil, List.nil_append, decRun_cons hfinished.decCommand_finish]
    exact hfinished
  | cons x xs ih =>
    rw [streamBits_cons] at h
    rw [List.map_cons, List.cons_append]
    cases cs with
    | nil =>
      rw [decRun_cons (Finished.decCommand_byte h.executes x)]
      exact ih ⟨h.inv, h.executes, fun hne => absurd rfl hne⟩
    | cons c cs =>
      obtain ⟨v, w⟩ := c
      by_cases hle : w.bits ≤ d.upCnt.toNat + 8
      · obtain ⟨d', hbyte, h'⟩ := h.take hle
        rw [decRun_cons hbyte]
        exact ih h'
      · obtain ⟨d', hbyte, h'⟩ := h.fill (Nat.not_le.mp hle)
        rw [decRun_cons hbyte]
        exact ih h'

end

/-- An operation on DEC with the bytes of codes executes the codes, from whatever state (45_decoder.md R214 to R216). -/
theorem decRun_operation {cs : List (Code × CodeWidth)} {stream data : List Byte} {padding : List Bool}
    (hbits : streamBits stream = codesBits cs ++ padding)
    (hexec : ∀ d, Baseline d → Executes cs (Finished (d.out ++ data)) d) (d : Dec) :
    Finished (d.out ++ data) (decRun (operationCommands stream) d) := by
  rw [operationCommands, decRun_cons (c := .start) rfl]
  have hstart : Baseline (startDecoding d) := ⟨rfl, rfl, rfl, rfl⟩
  exact Decoding.decodes (padding := padding) ⟨startDecoding_inv d, hexec _ hstart, fun _ => hbits⟩

/-- Settles O58: ENC sends the bits of codes that take DEC, one entry behind, to DONE with the data emitted; and DEC,
given these bits byte by byte, executes these codes. -/
theorem decodingWhatTheEncoderWroteGivesTheInputBack : Obligations.DecodingWhatTheEncoderWroteGivesTheInputBack := by
  intro data s s'
  obtain ⟨cs, e', henc, hstate, hfault, ⟨stream, padding, hout, hbits⟩, hexec⟩ := encRun_operation data s.enc
  have hdec := decRun_operation (hbits : streamBits stream = codesBits cs ++ padding) hexec s'.dec
  rw [← henc] at hstate hfault hout
  refine ⟨stream, ?_⟩
  rw [operation_eq, operation_eq, feed_encCommands, feed_decCommands]
  exact ⟨hout, hstate, hfault, hdec.out, hdec.state, hdec.fault⟩

end Sys2Proof
end

section
/-! What the Bit Channel's micro-operations do when run on their own, in bits on the wire (40_bit_channel.md R101 to
R104). -/

namespace Sys2Proof

open Sys2Proof.Machine

/-! ## FLUSH -/

theorem flushBits_empty {e : Enc} (h : e.pkCnt = 0#5) : flushBits e = { e with pkAcc := 0#19, pkCnt := 0#5 } := by
  simp [flushBits, h]

/-- FLUSH sends the bits held in one byte (40_bit_channel.md R102). -/
theorem flushBits_held {e : Enc} (h : e.pkCnt ≠ 0#5) :
    flushBits e = { e with pkAcc := 0#19, pkCnt := 0#5, out := e.out ++ [e.pkAcc.setWidth 8] } := by
  have hpos : 0 < e.pkCnt.toNat := Nat.pos_of_ne_zero fun hz => h (BitVec.eq_of_toNat_eq hz)
  simp [flushBits, hpos, emitWire]

/-! ## The micro-operations as instructions -/

theorem exec_put (v : Code) (w : CodeWidth) (s : State) :
    exec (.put v w) s = .next (s.withEnc (Machine.put v w s.enc)) := rfl

theorem exec_flush (s : State) : exec .flush s = .next (s.withEnc (flushBits s.enc)) := rfl

theorem exec_get {w : CodeWidth} {s : State} {v : Code} {d : Dec} (h : getCode w s.dec = .ok v d) :
    exec (.get w) s = .next ((s.withDec d).withReturned (some (.code v))) := onDecReturning_ok h

/-- Settles O13: by what PUT sends and keeps; of the 9 to 19 bits it starts from at most 7 stay, so one or two bytes
go. -/
theorem putSendsTheCodesBitsLowBitFirst : Obligations.PutSendsTheCodesBitsLowBitFirst := by
  intro s v w hv hheld hpad
  obtain ⟨sent, acc, cnt, hput, hlen, hle, hacc, hbits⟩ := put_spec v w s.enc hv hheld hpad
  have hw := width_le w
  exact ⟨sent, acc, cnt, by rw [exec_put, hput]; rfl, by omega, hle, hacc, hbits⟩

/-- Settles O14: nothing is sent where nothing is held; else the byte is the bits held and then zeros. -/
theorem flushPadsTheLastByteWithZeros : Obligations.FlushPadsTheLastByteWithZeros := by
  intro s hheld hpad
  refine ⟨fun hzero => ?_, fun hne => ⟨s.enc.pkAcc.setWidth 8, ?_, byteBits_of_held _ _ hheld hpad⟩⟩
  · rw [exec_flush, flushBits_empty hzero]
    rfl
  · rw [exec_flush, flushBits_held hne]
    rfl

/-- Settles O15: by what FILL holds. -/
theorem fillHoldsTheBytesBitsAfterThoseHeld : Obligations.FillHoldsTheBytesBitsAfterThoseHeld := by
  intro s x hheld hpad
  obtain ⟨hcnt, hacc, hbits⟩ := fillByte_spec x s.dec hheld hpad
  exact ⟨_, _, rfl, hcnt, hcnt ▸ hacc, hbits⟩

/-- Settles O16: GET returns, as enough bits are held, and the first bits held are the code's. -/
theorem getTakesTheFirstBitsHeldAsACode : Obligations.GetTakesTheFirstBitsHeldAsACode := by
  intro s w hle
  rcases getCode_cases w s.dec with ⟨-, v, hget, hv⟩ | ⟨hlt, -⟩
  · have hcnt := upCnt_take hle
    refine ⟨v, _, _, by rw [exec_get hget]; rfl, ?_, hcnt, heldBits_take_code _ _ _ w v hv hcnt⟩
    rw [hv]
    exact Nat.mod_lt _ (by positivity)
  · omega

end Sys2Proof
end

section
/-! Unpacking gives back what was packed (40_bit_channel.md R105). The bytes of a packed list of codes are the codes'
bits and then fewer than 8 zeros; the unpacker has the bits of the codes still to take as those it holds and those to
come. -/

namespace Sys2Proof

open Sys2Proof.Machine

/-! ## The bytes a packer writes -/

/-- The PUTs of a list of codes write the codes. -/
theorem EncRunning.writes_puts {cs : List (Code × CodeWidth)} {e : Enc} (he : EncRunning e)
    (hfits : ∀ c ∈ cs, c.1.toNat < 2 ^ c.2.bits) :
    EncRunning (cs.foldl (fun e c => Machine.put c.1 c.2 e) e) ∧
      Writes e cs (cs.foldl (fun e c => Machine.put c.1 c.2 e) e) := by
  induction cs generalizing e with
  | nil => exact ⟨he, writes_nil rfl rfl rfl⟩
  | cons c cs ih =>
    obtain ⟨hc, hcs⟩ := List.forall_mem_cons.mp hfits
    obtain ⟨hrun, hwrites⟩ := ih (he.put hc) hcs
    exact ⟨hrun, (he.writes_put hc).trans hwrites⟩

/-- FLUSH sends the bits held and then fewer than 8 zeros. -/
theorem EncRunning.flushBits_bits {e : Enc} (he : EncRunning e) :
    ∃ (sent : List Byte) (padding : Nat), (flushBits e).out = e.out ++ sent ∧ padding < 8 ∧
      streamBits sent = heldBits e.pkAcc e.pkCnt ++ List.replicate padding false := by
  by_cases hcnt : e.pkCnt = 0#5
  · exact ⟨[], 0, by simp [flushBits_empty hcnt], by omega, by simp [heldBits, hcnt]⟩
  · have hpos : e.pkCnt.toNat ≠ 0 := fun hz => hcnt (BitVec.eq_of_toNat_eq hz)
    exact ⟨[e.pkAcc.setWidth 8], 8 - e.pkCnt.toNat, by simp [flushBits_held hcnt], by omega,
      by simp [byteBits_of_held _ _ he.held he.padding]⟩

theorem encRunning_reset : EncRunning Enc.reset :=
  encRunning_baseline rfl rfl rfl rfl rfl emptyPacker_held emptyPacker_padding

/-- The bytes of packed codes are the codes' bits and then fewer than 8 zeros. -/
theorem streamBits_packed {cs : List (Code × CodeWidth)} (hfits : ∀ c ∈ cs, c.1.toNat < 2 ^ c.2.bits) :
    ∃ padding < 8, streamBits (packed cs) = codesBits cs ++ List.replicate padding false := by
  obtain ⟨hrun, sent, hout, hbits⟩ := encRunning_reset.writes_puts hfits
  obtain ⟨last, padding, hlast, hpadding, hlastBits⟩ := hrun.flushBits_bits
  refine ⟨padding, hpadding, ?_⟩
  rw [packed, hlast, hout, streamBits_append, streamBits_append, hlastBits, ← List.append_assoc,
    List.append_assoc _ (streamBits sent), hbits]
  rfl

/-! ## The unpacker -/

/-- An accumulator that holds zeros, and nothing above them, is 0. -/
theorem eq_zero_of_heldBits {acc : Accumulator} {n : BitCount} (hacc : acc.toNat < 2 ^ n.toNat)
    (h : ∀ b ∈ heldBits acc n, b = false) : acc = 0#19 := by
  refine BitVec.eq_of_getLsbD_eq fun i _ => ?_
  rw [BitVec.getLsbD_zero]
  by_cases hi : i < n.toNat
  · exact h _ (List.mem_map_of_mem (List.mem_range.mpr hi))
  · exact getLsbD_high hacc (Nat.not_lt.mp hi)

theorem takeReady_take {w : CodeWidth} {v : Code} {d d' : Dec} (h : getCode w d = .ok v d') (ws : List CodeWidth) :
    takeReady (w :: ws) d = (v :: (takeReady ws d').1, (takeReady ws d').2) := by
  simp [takeReady, h]

theorem takeReady_wait {w : CodeWidth} {d : Dec} (h : d.upCnt.toNat < w.bits) (ws : List CodeWidth) :
    takeReady (w :: ws) d = ([], w :: ws, d) := by
  simp [takeReady, getCode_refused h]

/-- The unpacker is to take the codes `cs`: the bits it holds and then the wire bits `rest` to come are theirs, and then
fewer than 8 zeros. -/
structure Unpacking (padding : Nat) (cs : List (Code × CodeWidth)) (d : Dec) (rest : List Bool) : Prop where
  fits : ∀ c ∈ cs, c.1.toNat < 2 ^ c.2.bits
  above : d.upAcc.toNat < 2 ^ d.upCnt.toNat
  short : padding < 8
  bits : heldBits d.upAcc d.upCnt ++ rest = codesBits cs ++ List.replicate padding false

/-- The next of the codes `cs` is not held whole. -/
def Incomplete (cs : List (Code × CodeWidth)) (d : Dec) : Prop := ∀ c ∈ cs.head?, d.upCnt.toNat < c.2.bits

section
variable {padding : Nat} {cs : List (Code × CodeWidth)} {d : Dec} {rest : List Bool}

theorem Unpacking.length_eq (h : Unpacking padding cs d rest) :
    d.upCnt.toNat + rest.length = (codesBits cs).length + padding := by
  simpa using congrArg List.length h.bits

/-- Where the next code is not held whole, the unpacker has room for a byte (40_bit_channel.md R103). -/
theorem Unpacking.held (h : Unpacking padding cs d rest) (hnext : Incomplete cs d) : d.upCnt.toNat ≤ 11 := by
  cases cs with
  | nil =>
    have hlen : d.upCnt.toNat + rest.length = padding := by simpa using h.length_eq
    have hshort := h.short
    omega
  | cons c cs =>
    have hlt := hnext c rfl
    have hw := (width_le c.2).2
    omega

/-- FILL takes the next byte of the wire. -/
theorem Unpacking.fill {x : Byte} (h : Unpacking padding cs d (byteBits x ++ rest)) (hnext : Incomplete cs d) :
    Unpacking padding cs (fillByte x d) rest := by
  obtain ⟨hcnt, hacc, hheld⟩ := fillByte_spec x d (h.held hnext) h.above
  exact { h with above := by rwa [hcnt], bits := by rw [hheld, List.append_assoc, h.bits] }

/-- GET takes the next code, once it is held whole. -/
theorem Unpacking.take {v : Code} {w : CodeWidth} (h : Unpacking padding ((v, w) :: cs) d rest)
    (hle : w.bits ≤ d.upCnt.toNat) : ∃ d', getCode w d = .ok v d' ∧ Unpacking padding cs d' rest := by
  obtain ⟨hv, hfits⟩ := List.forall_mem_cons.mp h.fits
  have hbits := h.bits
  rw [codesBits_cons, List.append_assoc] at hbits
  obtain ⟨hget, hkept⟩ := getCode_of_heldBits hle hv hbits
  have hcnt : (d.upCnt - BitVec.ofNat 5 w.bits).toNat = d.upCnt.toNat - w.bits := Nat.eq_sub_of_add_eq (upCnt_take hle)
  exact ⟨_, hget, hfits, by rw [hcnt]; exact shift_lt _ _ _ h.above hle, h.short, hkept⟩

/-- The codes held whole are taken in order; the others are still to come, the first of them not held whole. -/
theorem Unpacking.takesReady (h : Unpacking padding cs d rest) :
    ∃ taken later d', cs = taken ++ later ∧
      takeReady (cs.map Prod.snd) d = (taken.map Prod.fst, later.map Prod.snd, d') ∧
      Unpacking padding later d' rest ∧ Incomplete later d' := by
  induction cs generalizing d with
  | nil => exact ⟨[], [], d, rfl, rfl, h, by simp [Incomplete]⟩
  | cons c cs ih =>
    obtain ⟨v, w⟩ := c
    by_cases hle : w.bits ≤ d.upCnt.toNat
    · obtain ⟨d1, hget, h1⟩ := h.take hle
      obtain ⟨taken, later, d', hcs, htake, hlater⟩ := ih h1
      refine ⟨(v, w) :: taken, later, d', by rw [hcs, List.cons_append], ?_, hlater⟩
      rw [List.map_cons, takeReady_take hget, htake]
      rfl
    · have hlt := Nat.not_le.mp hle
      exact ⟨[], (v, w) :: cs, d, rfl, takeReady_wait hlt _, h, by simpa [Incomplete] using hlt⟩

/-- Where no byte is to come, no code is, and what is held is the padding. -/
theorem Unpacking.finished (h : Unpacking padding cs d []) (hnext : Incomplete cs d) :
    cs = [] ∧ d.upCnt.toNat < 8 ∧ d.upAcc = 0#19 := by
  cases cs with
  | nil =>
    have hlen : d.upCnt.toNat = padding := by simpa using h.length_eq
    have hzeros : heldBits d.upAcc d.upCnt = List.replicate padding false := by simpa using h.bits
    exact ⟨rfl, hlen ▸ h.short, eq_zero_of_heldBits h.above fun b hb => List.eq_of_mem_replicate (hzeros ▸ hb)⟩
  | cons c cs =>
    obtain ⟨v, w⟩ := c
    have hlen : d.upCnt.toNat = w.bits + (codesBits cs).length + padding := by simpa using h.length_eq
    have hlt : d.upCnt.toNat < w.bits := hnext (v, w) rfl
    omega

/-- An unpacker fed the bits of codes takes the codes, and at the end holds fewer than 8 bits, all 0. -/
theorem Unpacking.takesAll {xs : List Byte} (h : Unpacking padding cs d (streamBits xs)) (hnext : Incomplete cs d) :
    ∃ d', unpacked (cs.map Prod.snd) xs d = (cs.map Prod.fst, [], d') ∧
      d'.upCnt.toNat < 8 ∧ d'.upAcc = 0#19 := by
  induction xs generalizing cs d with
  | nil =>
    obtain ⟨rfl, hend⟩ := h.finished hnext
    exact ⟨d, rfl, hend⟩
  | cons x xs ih =>
    obtain ⟨taken, later, d1, rfl, htake, hlater, hnext1⟩ := (Unpacking.fill h hnext).takesReady
    obtain ⟨d', hrest, hend⟩ := ih hlater hnext1
    refine ⟨d', ?_, hend⟩
    rw [unpacked, htake, hrest, List.map_append]

end

/-- Settles O17: the unpacker starts with the packer's bits all to come, and each byte keeps what is held and to come
equal to the bits of the codes still to take. -/
theorem unpackingGivesBackWhatWasPacked : Obligations.UnpackingGivesBackWhatWasPacked := by
  intro codes hfits r
  obtain ⟨padding, hpadding, hbits⟩ := streamBits_packed hfits
  have hstart : Unpacking padding codes Dec.reset (streamBits (packed codes)) :=
    ⟨hfits, emptyPacker_padding, hpadding, hbits⟩
  have hnext : Incomplete codes Dec.reset := fun c _ => lt_bits_of_le_seven (by decide) c.2
  obtain ⟨d', hrun, hcnt, hacc⟩ := hstart.takesAll hnext
  have hr : r = (codes.map Prod.fst, [], d') := hrun
  rw [hr]
  exact ⟨rfl, rfl, hcnt, hacc⟩

end Sys2Proof
end

section
/-! What TABLE_RESET leaves when run on its own, and the width function at its thresholds (41_code_table.md R120 to
R123). -/

namespace Sys2Proof

open Sys2Proof.Machine

/-! ## TABLE_RESET -/

theorem exec_tableReset_enc (s : State) :
    exec (.tableReset .enc) s = .next (s.withEnc (resetEncTable s.enc)) := rfl

theorem exec_tableReset_dec (s : State) :
    exec (.tableReset .dec) s = .next (s.withDec (resetDecTable s.dec)) := rfl

@[simp] theorem resetEncTable_idem (e : Enc) : resetEncTable (resetEncTable e) = resetEncTable e := rfl

@[simp] theorem resetDecTable_idem (d : Dec) : resetDecTable (resetDecTable d) = resetDecTable d := rfl

/-- Settles O18: the empty trie stores no edge, ROOT's edges are fixed, and so are the slots below 258. -/
theorem tableResetRestoresTheBaseline : Obligations.TableResetRestoresTheBaseline := by
  refine ⟨fun s => ⟨[], ?_, trieChild_nil, trieChild_root []⟩, fun s => ⟨[], ?_, tabRead_literal [], ?_, ?_⟩⟩
  · exact exec_tableReset_enc s
  · exact exec_tableReset_dec s
  · exact tabRead_control [] 256#12 (Or.inl rfl)
  · exact tabRead_control [] 257#12 (Or.inr rfl)

/-- Settles O19: in each unit what is written does not depend on the table before it. -/
theorem tableResetTwiceIsOnce : Obligations.TableResetTwiceIsOnce := by
  intro u s
  cases u with
  | enc =>
    refine ⟨_, exec_tableReset_enc s, (exec_tableReset_enc _).trans ?_⟩
    simp only [State.withEnc, resetEncTable_idem]
  | dec =>
    refine ⟨_, exec_tableReset_dec s, (exec_tableReset_dec _).trans ?_⟩
    simp only [State.withDec, resetDecTable_idem]

/-! ## The width function -/

/-- Settles O20: the thresholds one by one; `n - 1` is a code below the next free code `n`. -/
theorem widthFunctionFollowsTheThresholds : Obligations.WidthFunctionFollowsTheThresholds := by
  intro n
  refine ⟨fun h9 => ?_, fun h9 h10 => ?_, fun h10 h11 => ?_, fun h11 => ?_, fun hlow hhigh => ?_⟩
  · rw [widthFor_bits, if_pos h9]
  · rw [widthFor_bits, if_neg (by omega), if_pos h10]
  · rw [widthFor_bits, if_neg (by omega), if_neg (by omega), if_pos h11]
  · rw [widthFor_bits, if_neg (by omega), if_neg (by omega), if_neg (by omega)]
  · exact code_fits_width (by omega) hhigh

end Sys2Proof
end

section
/-! What CHILD_NODE and GET_NODE return, and that they only read the trie (42_encode_dictionary.md R140 to R142). -/

namespace Sys2Proof

open Sys2Proof.Machine

/-! ## The three lookups, as steps -/

theorem exec_childNodeB (s : State) (n : NodeId) (b : Byte) :
    exec (.childNodeB n b) s = .next (s.withReturned (some (.child (trieChild s.enc.trie n b)))) :=
  onEncReturning_ok rfl

theorem exec_childNodeS (s : State) (n : NodeId) (q : List Byte) :
    exec (.childNodeS n q) s = .next (s.withReturned (some (.node (walk s.enc.trie n q)))) :=
  onEncReturning_ok rfl

theorem exec_getNode (s : State) (q : List Byte) :
    exec (.getNode q) s = .next (s.withReturned (some (.node (nodeOf s.enc.trie q)))) :=
  onEncReturning_ok rfl

/-! ## The walk along one byte, and along two sequences in turn -/

theorem walk_singleton (t : Memory Code) (n : NodeId) (b : Byte) : walk t n [b] = (trieChild t n b).map .code := by
  rw [walk_cons]
  cases trieChild t n b <;> rfl

theorem walk_append_of_none {t : Memory Code} {n : NodeId} {p : List Byte} (h : walk t n p = none) (q : List Byte) :
    walk t n (p ++ q) = none := by
  rw [walk_append, h, Option.bind_none]

theorem walk_append_of_some {t : Memory Code} {n m : NodeId} {p : List Byte} (h : walk t n p = some m)
    (q : List Byte) : walk t n (p ++ q) = walk t m q := by
  rw [walk_append, h, Option.bind_some]

/-! ## The statements -/

/-- Settles O22: the step returns what the trie holds, and the edges of ROOT are fixed. -/
theorem childNodeLooksUpOneEdge : Obligations.ChildNodeLooksUpOneEdge := by
  intro s n b
  refine ⟨trieChild s.enc.trie n b, exec_childNodeB s n b, rfl, ?_⟩
  rintro rfl
  exact trieChild_root s.enc.trie b

/-- Settles O23: the step returns the walk's end, and a walk along `p ++ q` is one along `p` and then one along `q`. -/
theorem childNodeWalksASequence : Obligations.ChildNodeWalksASequence := by
  intro s n
  refine ⟨exec_childNodeS s n [], fun b => ?_, fun p q => ?_, fun q => ?_⟩
  · rw [exec_childNodeS, walk_singleton]
    rfl
  · refine ⟨walk s.enc.trie n p, exec_childNodeS s n p, fun hstops => ?_, fun m hleads => ?_⟩
    · rw [exec_childNodeS, walk_append_of_none hstops]
      rfl
    · rw [exec_childNodeS, exec_childNodeS, walk_append_of_some hleads]
  · exact ⟨nodeOf s.enc.trie q, exec_getNode s q, exec_childNodeS s .root q⟩

end Sys2Proof
end

section
/-! What BYTES_FOR returns, and what ADD_DEC stores (43_decode_dictionary.md R160, R162). -/

namespace Sys2Proof

open Sys2Proof.Machine

/-! ## The two operations, as steps -/

/-- BYTES_FOR that finds a sequence returns it and changes nothing else. -/
theorem exec_bytesFor_ok {s : State} {c : Code} {q : ByteSeq} (h : sequenceFor c s.dec = .ok q s.dec) :
    exec (.bytesFor c) s = .next (s.withReturned (some (.bytes q))) :=
  onDecReturning_ok h

/-- ADD_DEC with room in the table stores in the next free slot. -/
theorem exec_addDec_stores {s : State} (h : s.dec.nf.toNat ≠ 4096) (p q : ByteSeq) :
    exec (.addDec p q) s =
      .next (s.withDec
        { s.dec with
          tab := tabWrite (slotCode s.dec.nf) (p.snoc q.head) s.dec.tab
          nf := s.dec.nf + 1#13
          width := widthFor ((s.dec.nf + 1#13).toNat + 1) }) := by
  rcases learn_cases p q s.dec with ⟨hfull, -⟩ | ⟨-, hok⟩
  · exact absurd hfull h
  · exact onDec_ok hok

/-- ADD_DEC in a full table raises. -/
theorem exec_addDec_full {s : State} (h : s.dec.nf.toNat = 4096) (p q : ByteSeq) :
    exec (.addDec p q) s = .next (s.withDec (s.dec.enterFault .tableOverflow .invalidCode)) := by
  rcases learn_cases p q s.dec with ⟨-, hraised⟩ | ⟨hroom, -⟩
  · exact onDec_raised hraised
  · exact absurd h hroom

/-! ## Slots by their numbers -/

/-- Below the capacity the next free slot is the only one of its number. -/
theorem eq_slotCode_iff {nf : FreeCode} (h : nf.toNat < 4096) {c : Code} : c = slotCode nf ↔ c.toNat = nf.toNat := by
  rw [← slotCode_toNat h, BitVec.toNat_inj]

/-- `nextSlot_reads` with every slot named by its number. -/
theorem nextSlot_reads_toNat {nf : FreeCode} (hlow : 258 ≤ nf.toNat) (h : nf.toNat < 4096) (t : Memory ByteSeq)
    (q : ByteSeq) :
    (nf + 1#13).toNat = nf.toNat + 1 ∧
    (∀ c : Code, c.toNat = nf.toNat → tabRead (tabWrite (slotCode nf) q t) c = .bytes q) ∧
    ∀ c : Code, c.toNat ≠ nf.toNat → tabRead (tabWrite (slotCode nf) q t) c = tabRead t c := by
  obtain ⟨-, hnext, hnew, hothers⟩ := nextSlot_reads hlow h t q
  refine ⟨hnext, fun c hc => ?_, fun c hc => ?_⟩
  · rw [(eq_slotCode_iff h).mpr hc, hnew]
  · exact hothers c fun heq => hc ((eq_slotCode_iff h).mp heq)

/-! ## The statements -/

/-- Settles O52: with room in the table the next free slot is written, and a full table raises. -/
theorem addDecLearnsThePreviousAndOneByte : Obligations.AddDecLearnsThePreviousAndOneByte := by
  refine fun s p q => ⟨fun hlow hroom => ?_, fun hfull => ?_⟩
  · exact ⟨_, _, exec_addDec_stores hroom.ne p q, nextSlot_reads_toNat hlow hroom s.dec.tab (p.snoc q.head)⟩
  · exact exec_addDec_full hfull p q

/-- Settles O51: a literal is its own byte, and the slot of an assigned code holds a sequence. -/
theorem bytesForReturnsTheSequenceOfACode : Obligations.BytesForReturnsTheSequenceOfACode := by
  refine fun s c => ⟨fun hlit => ?_, fun hlow hassigned => ?_⟩
  · exact exec_bytesFor_ok (sequenceFor_literal c s.dec hlit)
  · have hslot := tabRead_sequence s.dec.tab c hlow
    exact ⟨_, hslot, exec_bytesFor_ok (sequenceFor_assigned c s.dec _ hlow hassigned hslot)⟩

end Sys2Proof
end

section
/-! ENC_STEP run on its own: how it ends, what each of its steps 4 to 6 does after VISIT, and which edge it changes
(44_encoder.md R186). -/

namespace Sys2Proof

open Sys2Proof.Machine

/-! ## How ENC_STEP ends -/

/-- With room in the table ENC_STEP returns. -/
theorem processByte_room {e : Enc} (h : e.nf.toNat ≠ 4096) (b : Byte) (la : Lookahead) :
    ∃ e1, processByte b la e = .ok () e1 :=
  (processByte_ends b la e).resolve_left fun hfull => h hfull.1

/-- ENC_STEP begun without a fault answers the ENC it leaves: one without a fault where it returned, one with a fault
where it raised. -/
theorem exec_encStep_cases {s : State} (hf : s.enc.fault = .none) (b : Byte) (la : Lookahead) :
    ∃ e1, exec (.encStep b la) s = .next (s.withEnc e1) ∧
      ((processByte b la s.enc = .ok () e1 ∧ e1.fault = .none) ∨
        (processByte b la s.enc = .raised e1 ∧ e1.fault ≠ .none)) := by
  rcases processByte_ends b la s.enc with ⟨-, hr⟩ | ⟨e1, hok⟩
  · exact ⟨_, onEnc_raised hr, Or.inr ⟨hr, by simp⟩⟩
  · obtain ⟨-, hfault, -, -⟩ := processByte_frame hok
    exact ⟨e1, onEnc_ok hok, Or.inl ⟨hok, hfault.trans hf⟩⟩

/-- A VISIT that raised leaves ENC in a fault. -/
theorem visitByte_raised_fault {b : Byte} {e e1 : Enc} (h : visitByte b e = .raised e1) : e1.fault ≠ .none := by
  rcases visitByte_cases b e with ⟨c, -, hok⟩ | ⟨-, -, hr⟩ | ⟨-, -, n, -, hok⟩
  · simp [hok] at h
  · rw [hr] at h
    cases h
    simp
  · simp [hok] at h

/-! ## Steps 5 and 6 -/

section
variable {b x : Byte} {e e1 : Enc} {g : Bool} {c : Code}

/-- At next free code 4095 ENC_STEP writes the match and CLEAR at one width, and resets the table and the run. -/
theorem processByte_clears (hv : visitByte b e = .ok g e1) (hc : e1.cur = .code c) (hn : e1.nf = Config.clearAt) :
    processByte b (.byte x) e =
      .ok () { resetEncTable (put Config.clearCode e1.width (put c e1.width e1)) with cur := .root } := by
  rw [processByte_next hv hc, proactiveReset_writes c _ hn]

/-- Below 4095 ENC_STEP writes a match that cannot extend along the lookahead. -/
theorem processByte_writes (hv : visitByte b e = .ok g e1) (hc : e1.cur = .code c) (hn : e1.nf ≠ Config.clearAt)
    (hchild : trieChild e1.trie (.code c) x = none) : processByte b (.byte x) e = .ok () (put c e1.width e1) := by
  have hflushed : flushedFlag e1 x = true := (flushedFlag_eq_true e1 x).mpr (hc ▸ hchild)
  rw [processByte_next hv hc, hflushed, if_pos rfl, proactiveReset_below _ _ _ (by rwa [put_nf])]

/-- Below 4095 ENC_STEP writes nothing where the match can extend along the lookahead. -/
theorem processByte_extends (hv : visitByte b e = .ok g e1) (hc : e1.cur = .code c) (hn : e1.nf ≠ Config.clearAt)
    (hchild : trieChild e1.trie (.code c) x ≠ none) : processByte b (.byte x) e = .ok () e1 := by
  have hflushed : ¬ flushedFlag e1 x = true := fun h => hchild (hc ▸ (flushedFlag_eq_true e1 x).mp h)
  rw [processByte_next hv hc, if_neg hflushed, proactiveReset_below _ _ _ hn]

end

/-! ## The edges -/

/-- ENC as a table reset leaves it: the baseline table and an empty run. -/
def AtBaseline (e : Enc) : Prop :=
  e.nf = 258#13 ∧ e.width = .w9 ∧ e.cur = .root ∧ ∀ (n : Code) (y : Byte), trieChild e.trie (.code n) y = none

/-- Every edge but that of the current run along `b` reads in `e'` as in `e`. -/
def KeepsOtherEdges (b : Byte) (e e' : Enc) : Prop :=
  ∀ (n : Code) (y : Byte), ¬ (e.cur = .code n ∧ y = b) →
    trieChild e'.trie (.code n) y = trieChild e.trie (.code n) y

/-- ENC_STEP on the last byte changes one edge at most. -/
theorem processByte_last_edges {b : Byte} {e e' : Enc} (h : processByte b .endOfData e = .ok () e') :
    KeepsOtherEdges b e e' := by
  rcases processByte_cases b .endOfData e with ⟨-, hr⟩ | ⟨e1, g, c, hv, -, ⟨-, hok⟩ | ⟨x, hla, -⟩⟩
  · rw [hr] at h
    cases h
  · rw [hok] at h
    cases h
    rw [KeepsOtherEdges, put_trie]
    exact visitByte_edges hv
  · cases hla

/-- ENC_STEP with a byte to follow resets the table or changes one edge at most. -/
theorem processByte_next_edges {b x : Byte} {e e' : Enc} (h : processByte b (.byte x) e = .ok () e') :
    AtBaseline e' ∨ KeepsOtherEdges b e e' := by
  rcases processByte_cases b (.byte x) e with ⟨-, hr⟩ | ⟨e1, g, c, hv, hc, -⟩
  · rw [hr] at h
    cases h
  · by_cases hn : e1.nf = Config.clearAt
    · rw [processByte_clears hv hc hn] at h
      cases h
      exact Or.inl ⟨rfl, rfl, rfl, trieChild_nil⟩
    · by_cases hchild : trieChild e1.trie (.code c) x = none
      · rw [processByte_writes hv hc hn hchild] at h
        cases h
        rw [KeepsOtherEdges, put_trie]
        exact Or.inr (visitByte_edges hv)
      · rw [processByte_extends hv hc hn hchild] at h
        cases h
        exact Or.inr (visitByte_edges hv)

/-! ## The statements -/

/-- Settles O29: VISIT raised, and ENC_STEP with it, or returned, and each step after it is one case of
`processByte`. -/
theorem encStepWritesTheMatchThatCannotExtend : Obligations.EncStepWritesTheMatchThatCannotExtend := by
  intro s s1 b hf hvisit
  rcases onEncReturning_next.mp hvisit with ⟨g, e1, hv, rfl⟩ | ⟨e1, hv, rfl⟩
  · obtain ⟨-, hfault, -⟩ := visitByte_frame hv
    obtain ⟨c, hc⟩ := visitByte_cur hv
    refine ⟨fun hne => absurd (hfault.trans hf) hne, fun _ => ⟨c, hc, onEnc_ok (processByte_last hv hc), fun x => ?_⟩⟩
    have hclear : e1.nf.toNat ≠ 4095 → e1.nf ≠ Config.clearAt := fun hne heq => hne (by rw [heq]; rfl)
    refine ⟨fun hn hchild => ?_, fun hn hchild => ?_, fun hn => ?_⟩
    · exact onEnc_ok (processByte_writes hv hc (hclear hn) hchild)
    · exact onEnc_ok (processByte_extends hv hc (hclear hn) hchild)
    · have hat : e1.nf = Config.clearAt := BitVec.eq_of_toNat_eq hn
      exact ⟨_, _, _, exec_put _ _ _, exec_put _ _ _, exec_tableReset_enc _, onEnc_ok (processByte_clears hv hc hat)⟩
  · exact ⟨fun _ la => onEnc_raised (processByte_raised hv), fun hnone => absurd hnone (visitByte_raised_fault hv)⟩

/-- Settles O30: with room in the table ENC_STEP returns, with its frame and its edges. -/
theorem encStepCompletesAndChangesOneEdge : Obligations.EncStepCompletesAndChangesOneEdge := by
  intro s b la hroom
  obtain ⟨e1, hok⟩ := processByte_room hroom b la
  obtain ⟨hstate, hfault, hpending, hout⟩ := processByte_frame hok
  refine ⟨_, onEnc_ok hok, hstate, hfault, hpending, rfl, rfl, rfl, hout, ?_⟩
  cases la with
  | endOfData => exact Or.inr (processByte_last_edges hok)
  | byte x => exact (processByte_next_edges hok).imp_left fun hbase => ⟨by simp, hbase⟩

end Sys2Proof
end

section
/-! The commands of ENC: ENC_START, ENC_BYTE and ENC_END, where they run and where they are refused (44_encoder.md R184,
R185, R187). -/

namespace Sys2Proof

open Sys2Proof.Machine

/-- ENC_START completes in every state (44_encoder.md R184). -/
theorem exec_encStart (s : State) : exec .encStart s = .next (s.withEnc (startEncoding s.enc)) := rfl

/-! ## ENC_BYTE and ENC_END by the byte held -/

/-- ENC_BYTE with nothing held only holds its byte (44_encoder.md R185). -/
theorem takeDataByte_first {e : Enc} (x : Byte) (hs : e.state = .accumulating) (hf : e.fault = .none)
    (hp : e.pending = none) : takeDataByte x e = .ok () { e with pending := some x } := by
  rw [takeDataByte, whileAccumulating_runs _ hs hf, hp]

/-- A fault in the step of the byte held ends ENC_BYTE (44_encoder.md R185). -/
theorem takeDataByte_raised {e e1 : Enc} {b x : Byte} (hs : e.state = .accumulating) (hf : e.fault = .none)
    (hb : e.pending = some b) (hr : processByte b (.byte x) e = .raised e1) : takeDataByte x e = .raised e1 := by
  rw [takeDataByte, whileAccumulating_runs _ hs hf, hb]
  simp [hr]

/-- ENC_END with nothing held closes the stream (44_encoder.md R188). -/
theorem endEncoding_empty {e : Enc} (hs : e.state = .accumulating) (hf : e.fault = .none) (hp : e.pending = none) :
    endEncoding e = .ok () (closeStream e) := by
  rw [endEncoding, whileAccumulating_runs _ hs hf, hp]

/-- A fault in the step of the byte held ends ENC_END (44_encoder.md R188). -/
theorem endEncoding_raised {e e1 : Enc} {b : Byte} (hs : e.state = .accumulating) (hf : e.fault = .none)
    (hb : e.pending = some b) (hr : processByte b .endOfData e = .raised e1) : endEncoding e = .raised e1 := by
  rw [endEncoding, whileAccumulating_runs _ hs hf, hb]
  simp [hr]

/-! ## Refusals -/

/-- BYTE and END are refused exactly out of ACCUMULATING and in a fault (44_encoder.md R187). -/
theorem runCommand_refused_iff {c : Command} (hc : c ≠ .start) (s : State) :
    (∃ r, runCommand .enc c s = .refused r) ↔ s.enc.state ≠ .accumulating ∨ s.enc.fault ≠ .none := by
  constructor
  · rintro ⟨r, hr⟩
    by_contra hrun
    obtain ⟨hs, hf⟩ : s.enc.state = .accumulating ∧ s.enc.fault = .none := by simpa using hrun
    obtain ⟨e, he⟩ := encCommand_completes hs hf c
    rw [onEnc_refused.mp hr] at he
    exact refuse_not_leaves he
  · intro h
    have hguard : ∀ body, ∃ r, whileAccumulating s.enc body = .refuse r := fun body =>
      (whileAccumulating_refused body h).elim (fun hr => ⟨_, hr⟩) fun hr => ⟨_, hr⟩
    cases c with
    | byte x => exact (hguard _).imp fun r hr => onEnc_refused.mpr hr
    | finish => exact (hguard _).imp fun r hr => onEnc_refused.mpr hr
    | start => exact absurd rfl hc

theorem encState_ne_accumulating (st : EncState) : st ≠ .accumulating ↔ st = .idle ∨ st = .eof := by
  cases st <;> simp

/-! ## The statements -/

/-- Settles O26: START leaves nothing of what ENC held, and its trie stores no edge. -/
theorem encStartBeginsAnOperation : Obligations.EncStartBeginsAnOperation := by
  refine fun s => ⟨[], ?_, trieChild_nil, trieChild_root []⟩
  rw [exec_encStart, startEncoding_eq]
  rfl

/-- Settles O27: by the byte held, and by how its step ends. -/
theorem encByteHoldsTheByteAndProcessesTheOneBefore : Obligations.EncByteHoldsTheByteAndProcessesTheOneBefore := by
  refine fun s x => ⟨fun hs hf hp => ?_, fun hs hf b hb => ?_, fun h => ?_⟩
  · exact onEnc_ok (takeDataByte_first x hs hf hp)
  · obtain ⟨e1, hexec, ⟨hok, hnone⟩ | ⟨hr, hfault⟩⟩ := exec_encStep_cases hf b (.byte x)
    · exact ⟨_, hexec, fun _ => onEnc_ok (takeDataByte_held hs hf hb hok), fun hne => absurd hnone hne⟩
    · exact ⟨_, hexec, fun hn => absurd hn hfault, fun _ => onEnc_raised (takeDataByte_raised hs hf hb hr)⟩
  · exact (runCommand_refused_iff (c := .byte x) (by simp) s).mpr h

/-- Settles O28: ENC_BYTE only holds its byte, or the step of the byte held returns, with its frame and its edges. -/
theorem encByteCompletesWhileAccumulating : Obligations.EncByteCompletesWhileAccumulating := by
  intro s x hs hf hroom
  cases hp : s.enc.pending with
  | none =>
    exact ⟨_, onEnc_ok (takeDataByte_first x hs hf hp), rfl, hs, hf, List.prefix_refl _, rfl, rfl, rfl,
      Or.inr fun _ _ _ => rfl⟩
  | some b =>
    obtain ⟨e1, hok⟩ := processByte_room hroom b (.byte x)
    obtain ⟨hstate, hfault, -, hout⟩ := processByte_frame hok
    refine ⟨_, onEnc_ok (takeDataByte_held hs hf hp hok), rfl, hstate.trans hs, hfault.trans hf, hout, rfl, rfl, rfl,
      ?_⟩
    rcases processByte_next_edges hok with ⟨hnf, -, -, hnone⟩ | hedges
    · exact Or.inl ⟨hnf, hnone⟩
    · exact Or.inr fun n y hne => hedges n y fun ⟨hcur, hy⟩ => hne ⟨hcur, by rw [hy]⟩

/-- Settles O33: BYTE and END by their guard, START by its meaning, a reserved token when it is decoded. -/
theorem encRefusesExactlyWhatTheSpecLists : Obligations.EncRefusesExactlyWhatTheSpecLists := by
  intro s x
  rw [← or_assoc, ← encState_ne_accumulating]
  exact ⟨runCommand_refused_iff (c := .byte x) (by simp) s, runCommand_refused_iff (c := .finish) (by simp) s,
    ⟨_, exec_encStart s⟩, fun tok htok => ⟨_, exec_decodeToken_reserved htok .enc s⟩⟩

/-- Settles O34: a step keeps the invariant, which leaves no room for the fault. -/
theorem encTableOverflowIsUnreachable : Obligations.EncTableOverflowIsUnreachable := by
  intro s t hinv h
  have hinv' := everyStepKeepsTheInvariant s t hinv h
  exact ⟨hinv'.enc.noFault, hinv'.enc.freeHigh⟩

end Sys2Proof
end

section
/-! ENC_END: the byte held, EOD at the width the reader has at that point, the padding, and EOF (44_encoder.md R188,
R189). -/

namespace Sys2Proof

open Sys2Proof.Machine

/-! ## The end of the stream, in bits -/

/-- FLUSH of a packer in range sends the bits held and then fewer than 8 zeros (40_bit_channel.md R102). -/
theorem flushBits_spec {e : Enc} (hheld : e.pkCnt.toNat ≤ 7) (hpad : e.pkAcc.toNat < 2 ^ e.pkCnt.toNat) :
    ∃ (sent : List Byte) (padding : Nat),
      flushBits e = { e with pkAcc := 0#19, pkCnt := 0#5, out := e.out ++ sent } ∧ padding < 8 ∧
      streamBits sent = heldBits e.pkAcc e.pkCnt ++ List.replicate padding false := by
  by_cases hcnt : e.pkCnt = 0#5
  · exact ⟨[], 0, by simp [flushBits_empty hcnt], by omega, by simp [heldBits, hcnt]⟩
  · have hpos : e.pkCnt.toNat ≠ 0 := fun hz => hcnt (BitVec.eq_of_toNat_eq hz)
    exact ⟨[e.pkAcc.setWidth 8], 8 - e.pkCnt.toNat, flushBits_held hcnt, by omega,
      by simp [byteBits_of_held _ _ hheld hpad]⟩

/-- The end of ENC_END sends the bits held, EOD at W(nf + 1), and fewer than 8 zeros (44_encoder.md R188, R189). -/
theorem closeStream_spec {e : Enc} (hheld : e.pkCnt.toNat ≤ 7) (hpad : e.pkAcc.toNat < 2 ^ e.pkCnt.toNat) :
    ∃ (sent : List Byte) (padding : Nat),
      closeStream e = { e with state := .eof, pkAcc := 0#19, pkCnt := 0#5, out := e.out ++ sent } ∧ padding < 8 ∧
      streamBits sent = heldBits e.pkAcc e.pkCnt ++ codeBits Config.eodCode (widthFor (e.nf.toNat + 1)) ++
        List.replicate padding false := by
  have hfits := fits_every_width (v := Config.eodCode) (by decide) (widthFor (e.nf.toNat + 1))
  obtain ⟨sent, acc, cnt, hput, -, hheld', hpad', hbits⟩ := put_spec Config.eodCode _ e hfits hheld hpad
  obtain ⟨last, padding, hflush, hpadding, hlast⟩ :=
    flushBits_spec (e := put Config.eodCode (widthFor (e.nf.toNat + 1)) e) (by rw [hput]; exact hheld')
      (by rw [hput]; exact hpad')
  rw [hput] at hflush hlast
  refine ⟨sent ++ last, padding, ?_, hpadding, ?_⟩
  · rw [closeStream, hput, hflush]
    simp
  · rw [streamBits_append, hlast, ← List.append_assoc, hbits]

/-- One code more in the table makes the width one bit more at 511, 1023 and 2047, and else leaves it (44_encoder.md
R189). -/
theorem widthFor_succ_bits (n : Nat) :
    (widthFor (n + 1)).bits = (widthFor n).bits + if n = 511 ∨ n = 1023 ∨ n = 2047 then 1 else 0 := by
  rw [widthFor_bits, widthFor_bits]
  split_ifs <;> omega

/-! ## ENC_END by the byte held -/

/-- ENC has `s1` after the byte held in `s`, if any, has been processed as the last. -/
def LastByteDone (s s1 : State) : Prop :=
  (s.enc.pending = none ∧ s1 = s) ∨
    ∃ b : Byte, s.enc.pending = some b ∧ exec (.encStep b .endOfData) s = .next s1

/-- Without a fault on the way ENC_END closes the stream with nothing held. -/
theorem LastByteDone.encEnd_closes {s s1 : State} (h : LastByteDone s s1) (hs : s.enc.state = .accumulating)
    (hf : s.enc.fault = .none) (hnone : s1.enc.fault = .none) :
    exec .encEnd s = .next (s1.withEnc (closeStream { s1.enc with pending := none })) := by
  rcases h with ⟨hp, rfl⟩ | ⟨b, hb, hstep⟩
  · rw [← hp]
    exact onEnc_ok (endEncoding_empty hs hf hp)
  · obtain ⟨e1, hexec, ⟨hok, -⟩ | ⟨-, hfault⟩⟩ := exec_encStep_cases hf b .endOfData
    · cases hstep.symm.trans hexec
      exact onEnc_ok (endEncoding_held hs hf hb hok)
    · cases hstep.symm.trans hexec
      exact absurd hnone hfault

/-- A fault on the way ends ENC_END. -/
theorem LastByteDone.encEnd_faults {s s1 : State} (h : LastByteDone s s1) (hs : s.enc.state = .accumulating)
    (hf : s.enc.fault = .none) (hfault : s1.enc.fault ≠ .none) : exec .encEnd s = .next s1 := by
  rcases h with ⟨-, rfl⟩ | ⟨b, hb, hstep⟩
  · exact absurd hf hfault
  · obtain ⟨e1, hexec, ⟨-, hnone⟩ | ⟨hr, -⟩⟩ := exec_encStep_cases hf b .endOfData
    · cases hstep.symm.trans hexec
      exact absurd hnone hfault
    · cases hstep.symm.trans hexec
      exact onEnc_raised (endEncoding_raised hs hf hb hr)

/-! ## The statements -/

/-- Settles O31: ENC_END closes the stream after the last byte, or faults with it, and is refused by its guard. -/
theorem encEndClosesTheStream : Obligations.EncEndClosesTheStream := by
  refine ⟨fun s s1 hs hf (hlast : LastByteDone s s1) => ⟨fun hnone hwidth hheld hpad => ?_, fun hfault => ?_⟩,
    fun s h => ?_⟩
  · obtain ⟨sent, padding, hclose, hpadding, hbits⟩ :=
      closeStream_spec (e := { s1.enc with pending := none }) hheld hpad
    refine ⟨sent, padding, _, ?_, hpadding, rfl, ?_, hbits⟩
    · rw [hlast.encEnd_closes hs hf hnone, hclose]
      rfl
    · rw [hwidth]
      exact widthFor_succ_bits _
  · exact hlast.encEnd_faults hs hf hfault
  · exact (runCommand_refused_iff (c := .finish) (by simp) s).mpr h

/-- Settles O32: with room in the table the step of the byte held returns, and closing the stream touches no edge. -/
theorem encEndCompletesWhileAccumulating : Obligations.EncEndCompletesWhileAccumulating := by
  intro s hs hf hroom
  cases hp : s.enc.pending with
  | none =>
    have hend := endEncoding_empty hs hf hp
    obtain ⟨sent, hclose⟩ := closeStream_frame s.enc
    rw [hclose] at hend
    exact ⟨_, onEnc_ok hend, rfl, hf, hp, rfl, rfl, ⟨sent, rfl⟩, rfl, rfl, rfl, fun _ _ _ => rfl⟩
  | some b =>
    obtain ⟨e1, hok⟩ := processByte_room hroom b .endOfData
    obtain ⟨-, hfault, -, hout⟩ := processByte_frame hok
    have hend := endEncoding_held hs hf hp hok
    obtain ⟨sent, hclose⟩ := closeStream_frame { e1 with pending := none }
    rw [hclose] at hend
    refine ⟨_, onEnc_ok hend, rfl, hfault.trans hf, rfl, rfl, rfl, hout.trans ⟨sent, rfl⟩, rfl, rfl, rfl, ?_⟩
    exact fun n y hne => processByte_last_edges hok n y fun ⟨hcur, hy⟩ => hne ⟨hcur, by rw [hy]⟩

end Sys2Proof
end

section
/-! The wire codes run on their own where the class table gives them their class, and STEADY_TAIL (45_decoder.md R219 to
R226). -/

namespace Sys2Proof

open Sys2Proof.Machine

/-! ## STEADY_TAIL -/

/-- STEADY_TAIL with room in the table, as a step (45_decoder.md R226). -/
theorem exec_steadyTail_learns {s : State} {p : ByteSeq} (hp : s.dec.prev = some p) (hroom : s.dec.nf.toNat ≠ 4096)
    (q : ByteSeq) :
    exec (.steadyTail q) s =
      .next (s.withDec
        { s.dec with
          tab := tabWrite (slotCode s.dec.nf) (p.snoc q.head) s.dec.tab
          nf := s.dec.nf + 1#13
          width := widthFor ((s.dec.nf + 1#13).toNat + 1)
          prev := some q
          out := s.dec.out ++ q.bytes }) :=
  onDec_ok (steadyTail_learns hp hroom)

/-- STEADY_TAIL in a full table raises after the sequence has been emitted (45_decoder.md R226). -/
theorem steadyTail_full {d : Dec} (hp : d.prev ≠ none) (hfull : d.nf.toNat = 4096) (q : ByteSeq) :
    steadyTail q d = .raised ((emitData q d).enterFault .tableOverflow .invalidCode) := by
  rcases steadyTail_cases q d with ⟨hnone, -⟩ | ⟨p, -, ⟨-, hraised⟩ | ⟨hroom, -⟩⟩
  · exact absurd hnone hp
  · exact hraised
  · exact absurd hfull hroom

/-- STEADY_TAIL emits its sequence, whether or not there is room for the entry (45_decoder.md R226). -/
theorem steadyTail_emits {q : ByteSeq} {d d' : Dec} (h : (steadyTail q d).Leaves d') : d'.out = d.out ++ q.bytes := by
  rcases steadyTail_cases q d with ⟨-, hstuck⟩ | ⟨p, -, ⟨-, hraised⟩ | ⟨-, hok⟩⟩
  · simp [hstuck] at h
  · rw [hraised] at h
    rw [raised_leaves.mp h]
    rfl
  · rw [hok] at h
    rw [ok_leaves.mp h]

/-- Settles O46: with room in the table the next free slot is written, and a full table raises after the emission. -/
theorem steadyTailEmitsLearnsAndRemembers : Obligations.SteadyTailEmitsLearnsAndRemembers := by
  refine ⟨fun s p q hp hlow hroom => ?_, fun s p q hp hfull => ?_⟩
  · exact ⟨_, _, exec_steadyTail_learns hp hroom.ne q, nextSlot_reads_toNat hlow hroom s.dec.tab (p.snoc q.head)⟩
  · exact onDec_raised (steadyTail_full (by simp [hp]) hfull q)

/-! ## Codes that resolve to a sequence -/

section
variable {s : State} {k : CodeClass} {v : Code} {q : ByteSeq}

/-- A code whose class resolves it to a sequence runs as STEADY_TAIL of the sequence (45_decoder.md R222 to R224). -/
theorem exec_resolved (hf : s.dec.fault = .none) (hk : codeClass s.dec.state s.dec.nf v = some k)
    (hrun : runClass k v s.dec = steadyTail q s.dec) : exec (codeInstr k v) s = exec (.steadyTail q) s :=
  (exec_codeInstr ((classNow_eq v hf).trans hk)).trans
    (congrArg (Flow.toOutcome · (fun _ d => s.withDec d) s.withDec) hrun)

/-- With a previous sequence STEADY_TAIL completes, and what runs as it emits the sequence. -/
theorem completes_as_steadyTail {i : Instr} (hi : exec i s = exec (.steadyTail q) s) (hprev : s.dec.prev ≠ none) :
    ∃ t, exec i s = .next t ∧ exec (.steadyTail q) s = .next t ∧ t.dec.out = s.dec.out ++ q.bytes := by
  obtain ⟨d, hd⟩ := steadyTail_completes hprev q
  have hnext : exec (.steadyTail q) s = .next (s.withDec d) := onDec_next.mpr ⟨d, hd, rfl⟩
  exact ⟨_, hi.trans hnext, hnext, steadyTail_emits hd⟩

end

/-- Settles O47: BYTES_FOR of a literal is its byte. -/
theorem literalResolvesToItsByte : Obligations.LiteralResolvesToItsByte := by
  intro s v p hf hs hp hlit
  have hclass : codeClass s.dec.state s.dec.nf v = some .lit := by
    rw [codeClass_spec]
    simp [hs, hlit]
  have hrun : runClass .lit v s.dec = steadyTail (ByteSeq.single (literalByte v)) s.dec := by
    rw [runClass, runResolved, sequenceFor_literal v s.dec hlit, bind_ok]
  exact completes_as_steadyTail (exec_resolved hf hclass hrun) (by simp [hp])

/-- Settles O48: BYTES_FOR of an assigned code is what its slot holds. -/
theorem dictionaryCodeResolvesFromItsSlot : Obligations.DictionaryCodeResolvesFromItsSlot := by
  intro s v p q hf hs hp hlow hhigh hq
  have hclass : codeClass s.dec.state s.dec.nf v = some .dict := by
    rw [codeClass_spec]
    simp [hs, hlow, hhigh]
  have hrun : runClass .dict v s.dec = steadyTail q s.dec := by
    rw [runClass, runResolved, sequenceFor_assigned v s.dec q hlow hhigh hq, bind_ok]
  exact completes_as_steadyTail (exec_resolved hf hclass hrun) (by simp [hp])

/-- Settles O49: the code is the next free one, so the table has room, and the slot learned is the code's own. -/
theorem kwkwkBuildsItsSequenceFromThePrevious : Obligations.KwkwkBuildsItsSequenceFromThePrevious := by
  intro s v p hf hs hp hlow hv
  have hroom : s.dec.nf.toNat < 4096 := hv ▸ v.isLt
  have hclass : codeClass s.dec.state s.dec.nf v = some .kwkwk := by
    rw [codeClass_spec]
    simp [hs, ← hv, hlow]
  have hrun : runClass .kwkwk v s.dec = steadyTail (p.snoc p.head) s.dec := by
    rw [runClass, runKwkwk, hp]
  have htail := exec_steadyTail_learns hp hroom.ne (p.snoc p.head)
  obtain ⟨-, hslot, -⟩ := nextSlot_reads_toNat (hv ▸ hlow) hroom s.dec.tab (p.snoc p.head)
  exact ⟨_, (exec_resolved hf hclass hrun).trans htail, htail, hf, rfl, rfl, hslot v hv⟩

/-! ## EOD, CLEAR and LIT_FIRST -/

/-- A code whose class returns, as a step. -/
theorem exec_code_ok {s : State} {k : CodeClass} {v : Code} {d : Dec} (hf : s.dec.fault = .none)
    (hk : codeClass s.dec.state s.dec.nf v = some k) (hrun : runClass k v s.dec = .ok () d) :
    exec (codeInstr k v) s = .next (s.withDec d) :=
  (exec_codeInstr ((classNow_eq v hf).trans hk)).trans (onDec_ok hrun)

/-- Settles O43: code 257 has the class EOD where codes execute. -/
theorem eodEndsTheStream : Obligations.EodEndsTheStream := by
  intro s hf hs
  have hclass : codeClass s.dec.state s.dec.nf Config.eodCode = some .eod :=
    (codeClass_spec _ _ _ _).mpr (Or.inl ⟨rfl, hs, rfl⟩)
  exact exec_code_ok hf hclass rfl

/-- Settles O44: code 256 has the class CLEAR where codes execute, and CLEAR leaves the table of TABLE_RESET. -/
theorem clearResetsTheTableAndAwaitsAFirstCode : Obligations.ClearResetsTheTableAndAwaitsAFirstCode := by
  intro s hf hs
  have hclass : codeClass s.dec.state s.dec.nf Config.clearCode = some .clear :=
    (codeClass_spec _ _ _ _).mpr (Or.inr (Or.inl ⟨rfl, hs, rfl⟩))
  exact ⟨[], exec_code_ok hf hclass rfl, exec_tableReset_dec s⟩

/-- Settles O45: BYTES_FOR of a literal is its byte, which is emitted and remembered. -/
theorem firstLiteralIsEmittedWithoutAnEntry : Obligations.FirstLiteralIsEmittedWithoutAnEntry := by
  intro s v hf hs hlit
  have hclass : codeClass s.dec.state s.dec.nf v = some .litFirst := by
    rw [codeClass_spec]
    simp [hs, hlit]
  have hrun : runClass .litFirst v s.dec =
      .ok ()
        { emitData (ByteSeq.single (literalByte v)) s.dec with
          prev := some (ByteSeq.single (literalByte v)), state := .steady } := by
    rw [runClass, runLitFirst, sequenceFor_literal v s.dec hlit, bind_ok]
  exact exec_code_ok hf hclass hrun

end Sys2Proof
end

section
/-! The commands of DEC: DEC_START, DEC_BYTE and DEC_END, where they run, what they leave, and where they are refused
(45_decoder.md R214 to R217). -/

namespace Sys2Proof

open Sys2Proof.Machine

/-- DEC_START completes in every state (45_decoder.md R214). -/
theorem exec_decStart (s : State) : exec .decStart s = .next (s.withDec (startDecoding s.dec)) := rfl

/-! ## What a code leaves -/

/-- `Executed v w d d'`: DEC_EXEC of the code `v` at width `w` may take DEC from `d` to `d'`, by the rule of the code's
class; the classes that resolve to a sequence end as STEADY_TAIL does, with room in the table or without (45_decoder.md
R218 to R226). -/
inductive Executed (v : Code) (w : CodeWidth) (d : Dec) : Dec → Prop
  | eod (hv : v.toNat = 257) : Executed v w d { recorded v w d with state := .done }
  | clear (hv : v.toNat = 256) :
      Executed v w d { resetDecTable (recorded v w d) with prev := none, state := .awaitFirst }
  | litFirst (q : ByteSeq) : Executed v w d { emitData q (recorded v w d) with prev := some q, state := .steady }
  | corrupt (hv : d.state = .steady ∧ d.nf.toNat < v.toNat ∨ d.state = .awaitFirst ∧ 258 ≤ v.toNat) :
      Executed v w d ((recorded v w d).enterFault .corruptStream .invalidCode)
  | overflow (q : ByteSeq) (hs : d.state = .steady) (hfull : d.nf.toNat = 4096) :
      Executed v w d ((emitData q (recorded v w d)).enterFault .tableOverflow .invalidCode)
  | learned (p q : ByteSeq) (hs : d.state = .steady) (hroom : d.nf.toNat ≠ 4096) :
      Executed v w d
        { recorded v w d with
          tab := tabWrite (slotCode d.nf) (p.snoc q.head) d.tab
          nf := d.nf + 1#13
          width := widthFor ((d.nf + 1#13).toNat + 1)
          prev := some q
          out := d.out ++ q.bytes }

/-- LIT and DICT are STEADY_TAIL of the sequence of their code (45_decoder.md R222, R223). -/
theorem runResolved_leaves {v : Code} {d d' : Dec} (h : (runResolved v d).Leaves d') :
    ∃ q, (steadyTail q d).Leaves d' := by
  unfold runResolved at h
  rcases sequenceFor_cases v d with ⟨-, q, -, hq⟩ | ⟨-, hq⟩
  · rw [hq, bind_ok] at h
    exact ⟨q, h⟩
  · simp [hq] at h

/-- What STEADY_TAIL leaves once the code is recorded (45_decoder.md R226). -/
theorem executed_of_steadyTail {v : Code} {w : CodeWidth} {d d' : Dec} (hs : d.state = .steady)
    (h : ∃ q, (steadyTail q (recorded v w d)).Leaves d') : Executed v w d d' := by
  obtain ⟨q, h⟩ := h
  rcases steadyTail_cases q (recorded v w d) with ⟨-, hstuck⟩ | ⟨p, -, ⟨hfull, hraised⟩ | ⟨hroom, hok⟩⟩
  · simp [hstuck] at h
  · rw [hraised] at h
    obtain rfl := raised_leaves.mp h
    exact .overflow q hs hfull
  · rw [hok] at h
    obtain rfl := ok_leaves.mp h
    exact .learned p q hs hroom

/-- DEC_EXEC records the code and does what the rule of its class says (45_decoder.md R218). -/
theorem executeCode_executed {v : Code} {w : CodeWidth} {d d' : Dec} (hf : d.fault = .none)
    (h : (executeCode v w d).Leaves d') : Executed v w d d' := by
  cases hk : codeClass d.state d.nf v with
  | none => simp [executeCode, classNow_eq v hf, hk] at h
  | some k =>
    rw [executeCode_recorded hf hk] at h
    rcases (codeClass_spec _ _ _ _).mp hk with ⟨rfl, -, hv⟩ | ⟨rfl, -, hv⟩ | ⟨rfl, -⟩ | ⟨rfl, hs, hv⟩ | ⟨rfl, hs, -⟩ |
      ⟨rfl, hs, -⟩ | ⟨rfl, hs, -⟩ | ⟨rfl, hs, -, hv⟩
    · obtain rfl := ok_leaves.mp h
      exact .eod hv
    · obtain rfl := ok_leaves.mp h
      exact .clear hv
    · obtain ⟨q, rfl⟩ := runLitFirst_leaves h
      exact .litFirst q
    · obtain rfl := raised_leaves.mp h
      exact .corrupt (Or.inr ⟨hs, hv⟩)
    · exact executed_of_steadyTail hs (runResolved_leaves h)
    · exact executed_of_steadyTail hs (runResolved_leaves h)
    · exact executed_of_steadyTail hs (runKwkwk_leaves h)
    · obtain rfl := raised_leaves.mp h
      exact .corrupt (Or.inl ⟨hs, hv⟩)

/-- No code takes DEC to IDLE. -/
theorem Executed.state_ne_idle {v : Code} {w : CodeWidth} {d d' : Dec} (h : Executed v w d d')
    (hs : d.state ≠ .idle) : d'.state ≠ .idle := by
  cases h with
  | eod | clear | litFirst => simp
  | corrupt | overflow | learned => exact hs

/-- A code is CLEAR and resets the table, or every slot but the next free one reads as before. -/
theorem Executed.slots {v : Code} {w : CodeWidth} {d d' : Dec} (h : Executed v w d d') (hlow : 258 ≤ d.nf.toNat)
    (hhigh : d.nf.toNat ≤ 4096) :
    (d'.last.value = 256#12 ∧ d'.last.valid = true ∧ d'.nf = 258#13) ∨
      ∀ c : Code, c.toNat ≠ d.nf.toNat → tabRead d'.tab c = tabRead d.tab c := by
  cases h with
  | clear hv => exact Or.inl ⟨BitVec.eq_of_toNat_eq hv, rfl, rfl⟩
  | learned p q hs hroom =>
    obtain ⟨-, -, hothers⟩ := nextSlot_reads_toNat hlow (lt_of_le_of_ne hhigh hroom) d.tab (p.snoc q.head)
    exact Or.inr hothers
  | eod | litFirst | corrupt | overflow => exact Or.inr fun _ _ => rfl

/-! ## DEC_BYTE, where fewer bits are held than a code has -/

/-- Codes execute in two of the four states (45_decoder.md R210). -/
theorem executing_iff (st : DecState) : (st = .awaitFirst ∨ st = .steady) ↔ st ≠ .idle ∧ st ≠ .done := by
  cases st <;> simp

theorem fillByte_upCnt_toNat {d : Dec} (h : d.upCnt.toNat ≤ 11) (x : Byte) :
    (fillByte x d).upCnt.toNat = d.upCnt.toNat + 8 := by
  rw [fillByte_upCnt, BitVec.toNat_add, BitVec.toNat_ofNat]
  omega

/-- GET takes a code where all its bits are held, and changes the unpacker only (40_bit_channel.md R104). -/
theorem getCode_taken {w : CodeWidth} {d : Dec} (h : w.bits ≤ d.upCnt.toNat) :
    ∃ (v : Code) (acc : Accumulator) (cnt : BitCount), getCode w d = .ok v { d with upAcc := acc, upCnt := cnt } := by
  rcases getCode_cases w d with ⟨-, v, hget, -⟩ | ⟨hlt, -⟩
  · exact ⟨v, _, _, hget⟩
  · omega

section
variable {d : Dec} {x : Byte}

/-- A byte that does not complete a code is held (45_decoder.md R215). -/
theorem decCommand_byte_held (hs : d.state = .awaitFirst ∨ d.state = .steady) (hf : d.fault = .none)
    (hlt : d.upCnt.toNat + 8 < d.width.bits) : decCommand (.byte x) d = .ok () (fillByte x d) := by
  have hw := (width_le d.width).2
  rw [decCommand_byte hs hf, takeCodes_stop]
  rintro ⟨-, -, hle⟩
  rw [fillByte_width, fillByte_upCnt_toNat (by omega)] at hle
  omega

/-- A byte that completes a code has this one code taken and executed (45_decoder.md R215). -/
theorem decCommand_byte_executes (hs : d.state = .awaitFirst ∨ d.state = .steady) (hf : d.fault = .none)
    (hlt : d.upCnt.toNat < d.width.bits) (hle : d.width.bits ≤ d.upCnt.toNat + 8) :
    ∃ (v : Code) (acc : Accumulator) (cnt : BitCount),
      getCode d.width (fillByte x d) = .ok v { d with upAcc := acc, upCnt := cnt } ∧
      decCommand (.byte x) d = executeCode v d.width { d with upAcc := acc, upCnt := cnt } := by
  have hw := (width_le d.width).2
  have hcnt := fillByte_upCnt_toNat (d := d) (by omega) x
  obtain ⟨-, hdone⟩ := (executing_iff _).mp hs
  have hrun : d.width.bits ≤ (fillByte x d).upCnt.toNat := hcnt.symm ▸ hle
  obtain ⟨v, acc, cnt, hget⟩ := getCode_taken hrun
  refine ⟨v, acc, cnt, hget, ?_⟩
  rw [decCommand_byte hs hf, takeCodes_once 3 (fillByte x d) ⟨hdone, hf, hrun⟩ (by rw [hcnt, fillByte_width]; omega),
    fillByte_width, hget, bind_ok]
  rfl

/-- In a state of the invariant DEC_BYTE is discarded in DONE, and else holds its byte, or has one code executed that
the byte completes (45_decoder.md R215). -/
theorem DecInv.byte_leaves {d' : Dec} (h : DecInv d) (hl : (decCommand (.byte x) d).Leaves d') :
    d' = d ∨
    ((d.state = .awaitFirst ∨ d.state = .steady) ∧ d.fault = .none ∧
      (d' = fillByte x d ∨ ∃ v acc cnt, Executed v d.width { d with upAcc := acc, upCnt := cnt } d')) := by
  obtain ⟨hidle, hf, ⟨-, hd⟩ | ⟨hdone, -⟩⟩ := takeWireByte_leaves hl
  · exact Or.inl hd
  · have hs := (executing_iff _).mpr ⟨hidle, hdone⟩
    refine Or.inr ⟨hs, hf, ?_⟩
    by_cases hle : d.width.bits ≤ d.upCnt.toNat + 8
    · obtain ⟨v, acc, cnt, -, hexec⟩ := decCommand_byte_executes (x := x) hs hf (h.incomplete hf hs) hle
      rw [hexec] at hl
      exact Or.inr ⟨v, acc, cnt, executeCode_executed (d := { d with upAcc := acc, upCnt := cnt }) hf hl⟩
    · rw [decCommand_byte_held hs hf (Nat.not_le.mp hle)] at hl
      exact Or.inl (ok_leaves.mp hl)

end

/-! ## DEC_END -/

/-- DEC_END before DONE raises (45_decoder.md R216). -/
theorem decCommand_finish_truncated {d : Dec} (hs : d.state = .awaitFirst ∨ d.state = .steady) (hf : d.fault = .none) :
    decCommand .finish d = .raised (d.enterFault .corruptStream .truncated) := by
  obtain ⟨hidle, hdone⟩ := (executing_iff _).mp hs
  rw [decCommand, endDecoding, whileOperating_runs _ hidle hf, if_neg hdone, raiseDec]

/-- In DONE BYTE and END have no effect (45_decoder.md R215, R216). -/
theorem decCommand_done {d : Dec} (hs : d.state = .done) (hf : d.fault = .none) {c : Command} (hc : c ≠ .start) :
    decCommand c d = .ok () d := by
  have hfinished : Finished d.out d := ⟨hs, hf, rfl⟩
  cases c with
  | byte x => exact hfinished.decCommand_byte x
  | finish => exact hfinished.decCommand_finish
  | start => exact absurd rfl hc

/-! ## Refusals -/

/-- DEC_EXEC is not refused where codes execute: every code has a class (45_decoder.md R218). -/
theorem executeCode_not_refused {d : Dec} (v : Code) (w : CodeWidth) (hs : d.state = .awaitFirst ∨ d.state = .steady)
    (hf : d.fault = .none) (r : Refusal) : executeCode v w d ≠ .refuse r := by
  obtain ⟨k, hk⟩ := codeClass_total d.state d.nf v hs
  rw [executeCode_recorded hf hk]
  exact runClass_not_refused (d' := recorded v w d) hk rfl r

/-- DEC_BYTE's loop is not refused outside IDLE: it takes a code only where its bits are held and codes execute, and no
code takes DEC to IDLE (45_decoder.md R215). -/
theorem takeCodes_not_refused {d : Dec} (hs : d.state ≠ .idle) (fuel : Nat) (r : Refusal) :
    takeCodes fuel d ≠ .refuse r := by
  induction fuel generalizing d with
  | zero => simp [takeCodes]
  | succ fuel ih =>
    by_cases hrun : d.state ≠ .done ∧ d.fault = .none ∧ d.width.bits ≤ d.upCnt.toNat
    · rw [takeCodes_step fuel d hrun]
      obtain ⟨hdone, hf, hle⟩ := hrun
      have hst := (executing_iff _).mpr ⟨hs, hdone⟩
      obtain ⟨v, acc, cnt, hget⟩ := getCode_taken hle
      rw [hget, bind_ok]
      intro h
      rcases bind_eq_refuse.mp h with hexec | ⟨_, d2, hexec, hrest⟩
      · exact executeCode_not_refused (d := { d with upAcc := acc, upCnt := cnt }) v d.width hst hf r hexec
      · have hexecuted := executeCode_executed (d := { d with upAcc := acc, upCnt := cnt }) hf (Or.inl hexec)
        exact ih (hexecuted.state_ne_idle hs) hrest
    · rw [takeCodes_stop _ _ hrun]
      simp

/-- DEC refuses BYTE and END exactly in IDLE and in a fault (45_decoder.md R217). -/
theorem decCommand_refused_iff {c : Command} (hc : c ≠ .start) (s : State) :
    (∃ r, runCommand .dec c s = .refused r) ↔ s.dec.state = .idle ∨ s.dec.fault ≠ .none := by
  constructor
  · rintro ⟨r, hr⟩
    by_contra hrun
    obtain ⟨hs, hf⟩ : s.dec.state ≠ .idle ∧ s.dec.fault = .none := by simpa using hrun
    have hrefuse := onDec_refused.mp hr
    by_cases hdone : s.dec.state = .done
    · simp [decCommand_done hdone hf hc] at hrefuse
    · have hst := (executing_iff _).mpr ⟨hs, hdone⟩
      cases c with
      | byte x =>
        rw [decCommand_byte hst hf] at hrefuse
        exact takeCodes_not_refused (d := fillByte x s.dec) hs 4 r hrefuse
      | finish => simp [decCommand_finish_truncated hst hf] at hrefuse
      | start => exact hc rfl
  · intro hguard
    by_cases hf : s.dec.fault = .none
    · exact ⟨_, onDec_refused.mpr (decCommand_idle (hguard.resolve_right (not_not.mpr hf)) hf hc)⟩
    · exact ⟨_, onDec_refused.mpr (decCommand_faulted hf hc)⟩

/-! ## The statements -/

/-- Settles O35: START leaves nothing of what DEC held but its output, and the slots below 258 are fixed. -/
theorem decStartBeginsAnOperation : Obligations.DecStartBeginsAnOperation :=
  fun s => ⟨[], exec_decStart s, tabRead_literal [], tabRead_control [] 256#12 (Or.inl rfl),
    tabRead_control [] 257#12 (Or.inr rfl)⟩

/-- Settles O36: by whether the byte completes a code; a code completed is taken from the bits FILL leaves. -/
theorem decByteExecutesTheCodeItCompletes : Obligations.DecByteExecutesTheCodeItCompletes := by
  refine fun s x => ⟨fun hs hf => ?_, fun hs hf hlt => ⟨fun hwait => ?_, fun hle => ?_⟩, fun h => ?_⟩
  · exact onDec_ok (decCommand_done hs hf (c := .byte x) (by simp))
  · exact ⟨s.withDec (fillByte x s.dec), rfl, onDec_ok (decCommand_byte_held hs hf hwait)⟩
  · obtain ⟨v, acc, cnt, hget, hexec⟩ := decCommand_byte_executes (x := x) hs hf hlt hle
    refine ⟨s.withDec (fillByte x s.dec), _, v, rfl, exec_get hget, rfl, ?_⟩
    exact congrArg (Flow.toOutcome · (fun _ d => s.withDec d) s.withDec) hexec
  · exact (decCommand_refused_iff (c := .byte x) (by simp) s).mpr h

/-- Settles O37: DEC_BYTE completes, and writes no slot but through the one code it may execute. -/
theorem decByteCompletesWhileOperating : Obligations.DecByteCompletesWhileOperating := by
  intro s x hinv hs hf
  obtain ⟨d, hd⟩ := hinv.command_completes hs hf (.byte x)
  refine ⟨s.withDec d, onDec_next.mpr ⟨d, hd, rfl⟩, decCommand_out hd, rfl, rfl, rfl, ?_⟩
  rcases hinv.byte_leaves hd with rfl | ⟨-, -, rfl | ⟨v, acc, cnt, hexec⟩⟩
  · exact Or.inr fun _ _ => rfl
  · exact Or.inr fun _ _ => rfl
  · exact hexec.slots hinv.freeLow hinv.freeHigh

/-- Settles O38: by the state; the guard refuses in IDLE and in a fault. -/
theorem decEndBeforeEodIsATruncatedStream : Obligations.DecEndBeforeEodIsATruncatedStream := by
  refine fun s => ⟨fun hs hf => ?_, fun hs hf => ?_, fun h => ?_⟩
  · exact onDec_ok (decCommand_done hs hf (c := .finish) (by simp))
  · exact onDec_raised (decCommand_finish_truncated hs hf)
  · exact (decCommand_refused_iff (c := .finish) (by simp) s).mpr h

/-- Settles O39: BYTE and END by their guard, START by its meaning, a reserved token when it is decoded. -/
theorem decRefusesExactlyWhatTheSpecLists : Obligations.DecRefusesExactlyWhatTheSpecLists := by
  intro s x
  have hbyte : Command.byte x ≠ .start := by simp
  have hfinish : Command.finish ≠ .start := by simp
  exact ⟨decCommand_refused_iff hbyte s, decCommand_refused_iff hfinish s, ⟨_, exec_decStart s⟩,
    fun hs hf => ⟨onDec_ok (decCommand_done hs hf hbyte), onDec_ok (decCommand_done hs hf hfinish)⟩,
    fun tok htok => ⟨_, exec_decodeToken_reserved htok .dec s⟩⟩

end Sys2Proof
end

section
/-! How a decode operation ends, whatever bytes are sent (45_decoder.md R227): DEC executes codes until it stands in one
of the ends the rule lists, where no further byte and no END changes it, and END makes an end of the state it finds. -/

namespace Sys2Proof

open Sys2Proof.Machine

/-- The four ends of an operation: DONE, an invalid code, a full table, and a truncated stream (45_decoder.md R227). -/
def DecodeEnded (d : Dec) : Prop :=
  (d.state = .done ∧ d.fault = .none ∧ d.last.value = 257#12) ∨
  (d.fault = .corruptStream ∧ d.cause = .invalidCode ∧ d.last.valid = true ∧
    (d.state = .steady ∧ d.nf.toNat < d.last.value.toNat ∨ d.state = .awaitFirst ∧ 258 ≤ d.last.value.toNat)) ∨
  (d.fault = .tableOverflow ∧ d.cause = .invalidCode ∧ d.state = .steady ∧ d.nf = 4096#13) ∨
  (d.fault = .corruptStream ∧ d.cause = .truncated ∧ (d.state = .awaitFirst ∨ d.state = .steady))

/-- DEC between START and END: it executes codes, or has come to an end. -/
def InOperation (d : Dec) : Prop :=
  ((d.state = .awaitFirst ∨ d.state = .steady) ∧ d.fault = .none) ∨ DecodeEnded d

/-- At an end no byte and no END changes DEC: they have no effect or are refused (45_decoder.md R215 to R217). -/
theorem DecodeEnded.command {d : Dec} (h : DecodeEnded d) {c : Command} (hc : c ≠ .start) :
    (decCommand c d).unitAfter d = d := by
  have hfaulted : d.fault ≠ .none → (decCommand c d).unitAfter d = d := fun hf => by
    rw [decCommand_faulted hf hc]
    rfl
  rcases h with ⟨hs, hf, -⟩ | ⟨hf, -⟩ | ⟨hf, -⟩ | ⟨hf, -⟩
  · rw [decCommand_done hs hf hc]
    rfl
  all_goals exact hfaulted (by simp [hf])

/-- A code executed leaves DEC executing codes or at an end (45_decoder.md R219 to R226). -/
theorem Executed.inOperation {v : Code} {w : CodeWidth} {d d' : Dec} (h : Executed v w d d') (hf : d.fault = .none) :
    InOperation d' := by
  cases h with
  | eod hv => exact Or.inr (Or.inl ⟨rfl, hf, BitVec.eq_of_toNat_eq hv⟩)
  | clear => exact Or.inl ⟨Or.inl rfl, hf⟩
  | litFirst => exact Or.inl ⟨Or.inr rfl, hf⟩
  | corrupt hv => exact Or.inr (Or.inr (Or.inl ⟨rfl, rfl, rfl, hv⟩))
  | overflow q hs hfull => exact Or.inr (Or.inr (Or.inr (Or.inl ⟨rfl, rfl, hs, BitVec.eq_of_toNat_eq hfull⟩)))
  | learned p q hs => exact Or.inl ⟨Or.inr hs, hf⟩

theorem unitAfter_of_leaves {x : Flow Dec Unit} {d d' : Dec} (h : x.Leaves d') : x.unitAfter d = d' := by
  rcases h with rfl | rfl <;> rfl

/-- A byte of an operation keeps the invariant and leaves DEC executing codes or at an end. -/
theorem DecInv.inOperation_byte {d : Dec} (h : DecInv d) (ho : InOperation d) (x : Byte) :
    DecInv ((decCommand (.byte x) d).unitAfter d) ∧ InOperation ((decCommand (.byte x) d).unitAfter d) := by
  rcases ho with ⟨hs, hf⟩ | hend
  · obtain ⟨hidle, -⟩ := (executing_iff _).mp hs
    obtain ⟨d', hd'⟩ := h.command_completes hidle hf (.byte x)
    rw [unitAfter_of_leaves hd']
    refine ⟨h.command hd', ?_⟩
    rcases h.byte_leaves hd' with rfl | ⟨-, -, rfl | ⟨v, acc, cnt, hexec⟩⟩
    · exact Or.inl ⟨hs, hf⟩
    · exact Or.inl ⟨hs, hf⟩
    · exact hexec.inOperation hf
  · rw [hend.command (by simp)]
    exact ⟨h, Or.inr hend⟩

/-- END takes DEC to an end, if it is at none (45_decoder.md R216). -/
theorem InOperation.ends {d : Dec} (h : InOperation d) : DecodeEnded ((decCommand .finish d).unitAfter d) := by
  rcases h with ⟨hs, hf⟩ | hend
  · rw [decCommand_finish_truncated hs hf]
    exact Or.inr (Or.inr (Or.inr ⟨rfl, rfl, hs⟩))
  · rwa [hend.command (by simp)]

/-- The bytes of an operation and its END take DEC to an end. -/
theorem DecInv.decRun_ends {d : Dec} (h : DecInv d) (ho : InOperation d) (bytes : List Byte) :
    DecodeEnded (decRun (bytes.map .byte ++ [.finish]) d) := by
  induction bytes generalizing d with
  | nil => exact ho.ends
  | cons x bytes ih =>
    obtain ⟨hinv, hop⟩ := h.inOperation_byte ho x
    exact ih hinv hop

/-- Settles O59: START begins an operation, each byte keeps it in progress or at an end, and END ends it. -/
theorem aDecodeOperationEndsInOneOfFourWays : Obligations.ADecodeOperationEndsInOneOfFourWays := by
  intro bytes s
  have hstart : InOperation (startDecoding s.dec) := Or.inl ⟨Or.inl rfl, rfl⟩
  rw [operation_eq, feed_decCommands]
  exact (startDecoding_inv s.dec).decRun_ends hstart bytes

end Sys2Proof
end

section
/-! The two units do not influence each other (60_exceptions.md R252): an input is one function of ENC and one of DEC,
and a token is no change of the unit it does not reach. -/

namespace Sys2Proof

open Sys2Proof.Machine

/-- Offered input `x`, the part of the machine that unit `u` is changes by itself: what it becomes depends on that part
alone, and it stays as it is if `x` does not reach `u`. -/
def ActsAlone {α : Type} (u : UnitId) (part : State → α) (x : Input) : Prop :=
  ∃ f : α → α, (∀ s, part (offer x s) = f (part s)) ∧ (Input.reaches u x = false → f = id)

/-- `rst` resets each unit by itself, a command changes the unit of its port by itself, and a reserved token changes
neither. -/
theorem actsAlone (x : Input) : ActsAlone .enc State.enc x ∧ ActsAlone .dec State.dec x := by
  cases x with
  | rst =>
    exact ⟨⟨fun e => { Enc.reset with out := e.out }, fun _ => rfl, by simp [Input.reaches]⟩,
      fun d => { Dec.reset with out := d.out }, fun _ => rfl, by simp [Input.reaches]⟩
  | token u tok =>
    rcases exec_decodeToken_uniform u tok with ⟨c, hc⟩ | hr
    · cases u with
      | enc =>
        have hoffer := fun s => offer_encCommand (hc s)
        exact ⟨⟨fun e => (encCommand c e).unitAfter e, fun s => by rw [hoffer, withEnc_enc],
            by simp [Input.reaches]⟩,
          id, fun s => by rw [hoffer, withEnc_dec, id], fun _ => rfl⟩
      | dec =>
        have hoffer := fun s => offer_decCommand (hc s)
        exact ⟨⟨id, fun s => by rw [hoffer, withDec_enc, id], fun _ => rfl⟩,
          fun d => (decCommand c d).unitAfter d, fun s => by rw [hoffer, withDec_dec], by simp [Input.reaches]⟩
    · have hoffer := fun s => offer_refused (hr s)
      exact ⟨⟨id, fun s => by rw [hoffer, id], fun _ => rfl⟩, id, fun s => by rw [hoffer, id], fun _ => rfl⟩

/-- Two machines that agree in unit `u` agree in it after the one is offered all inputs and the other those that reach
`u`. -/
theorem feed_eq_feed_filter {α : Type} {u : UnitId} {part : State → α} (h : ∀ x, ActsAlone u part x)
    (xs : List Input) {s s' : State} (hs : part s = part s') :
    part (feed xs s) = part (feed (xs.filter (Input.reaches u)) s') := by
  induction xs generalizing s s' with
  | nil => exact hs
  | cons x xs ih =>
    obtain ⟨f, hf, hid⟩ := h x
    cases hx : Input.reaches u x with
    | true =>
      rw [List.filter_cons_of_pos hx]
      have hoffer : part (offer x s) = part (offer x s') := by rw [hf, hf, hs]
      exact ih hoffer
    | false =>
      rw [List.filter_cons_of_neg (by simp [hx])]
      have hoffer : part (offer x s) = part s' := by rw [hf, hid hx, id, hs]
      exact ih hoffer

/-- Settles O56: by induction on the inputs, each unit compared with itself in the run of the inputs that reach it. -/
theorem theUnitsDoNotInfluenceEachOther : Obligations.TheUnitsDoNotInfluenceEachOther :=
  fun xs _ => ⟨feed_eq_feed_filter (fun x => (actsAlone x).1) xs rfl,
    feed_eq_feed_filter (fun x => (actsAlone x).2) xs rfl⟩

end Sys2Proof
end

section
/-! A fault lasts until START on the faulted unit or `rst` (60_exceptions.md R249): every other command of the unit is
refused, and the commands of the other unit do not touch it. -/

namespace Sys2Proof

open Sys2Proof.Machine

/-! ## The token of a command -/

/-- A token is the token of a command, or it is reserved and refused in every state (30_encoding.md R71, R73). -/
theorem token_cases (u : UnitId) (tok : Token) :
    (∃ c, tok = tokenOf c) ∨ ∀ s, exec (decodeToken u tok) s = .refused .reservedToken := by
  rw [← makeToken_fields tok]
  generalize tokenOp tok = op
  generalize tokenData tok = data
  rcases op_cases op with rfl | rfl | rfl | rfl
  · exact Or.inl ⟨.byte data, (setWidth_eq_makeToken data).symm⟩
  · by_cases hdata : data = 0#8
    · exact Or.inl ⟨.finish, by rw [hdata]; rfl⟩
    · exact Or.inr fun s => by simp [decodeToken, hdata, exec_reservedEndData]
  · by_cases hdata : data = 0#8
    · exact Or.inl ⟨.start, by rw [hdata]; rfl⟩
    · exact Or.inr fun s => by simp [decodeToken, hdata, exec_reservedStartData]
  · exact Or.inr fun s => by simp [decodeToken, exec_reservedOp3]

/-- START has a token of its own (30_encoding.md R71). -/
theorem tokenOf_eq_start {c : Command} : tokenOf c = tokenOf .start ↔ c = .start := by
  refine ⟨fun h => ?_, fun h => by rw [h]⟩
  have hop := congrArg tokenOp h
  cases c with
  | byte x =>
    rw [tokenOf, setWidth_eq_makeToken, tokenOp_makeToken] at hop
    exact absurd hop (by decide)
  | finish => exact absurd hop (by decide)
  | start => rfl

/-- The inputs a step that answers a next state can have taken: none, `rst`, or the token of a command, which its unit
runs. -/
theorem step_next_inputs {s t : State} (h : step s = .next t) :
    (s.input = [] ∧ t = s) ∨
    (∃ rest, s.input = .rst :: rest ∧ t = hardReset (s.withInput rest)) ∨
    ∃ u c rest, s.input = .token u (tokenOf c) :: rest ∧ runCommand u c (s.withInput rest) = .next t := by
  cases hin : s.input with
  | nil =>
    rw [step_idle hin] at h
    cases h
    exact Or.inl ⟨rfl, rfl⟩
  | cons x rest =>
    cases x with
    | rst =>
      rw [step_rst hin] at h
      cases h
      exact Or.inr (Or.inl ⟨rest, rfl, rfl⟩)
    | token u tok =>
      rw [step_token hin] at h
      rcases token_cases u tok with ⟨c, rfl⟩ | hr
      · rw [exec_tokenOf] at h
        exact Or.inr (Or.inr ⟨u, c, rest, rfl, h⟩)
      · rw [hr] at h
        cases h

/-! ## The commands of a faulted unit -/

/-- A faulted ENC refuses every command but START (44_encoder.md R187). -/
theorem eq_start_of_enc_faulted {c : Command} {e e' : Enc} (h : (encCommand c e).Leaves e') (hf : e.fault ≠ .none) :
    c = .start := by
  cases c with
  | byte x =>
    obtain ⟨-, hnone, -⟩ := whileAccumulating_leaves h
    exact absurd hnone hf
  | finish =>
    obtain ⟨-, hnone, -⟩ := whileAccumulating_leaves h
    exact absurd hnone hf
  | start => rfl

/-- A faulted DEC refuses every command but START (45_decoder.md R217). -/
theorem eq_start_of_dec_faulted {c : Command} {d d' : Dec} (h : (decCommand c d).Leaves d') (hf : d.fault ≠ .none) :
    c = .start := by
  by_contra hc
  rw [decCommand_faulted hf hc] at h
  exact refuse_not_leaves h

/-- ENC_START clears the fault (60_exceptions.md R249). -/
theorem encStart_fault {e e' : Enc} (h : (encCommand .start e).Leaves e') : e'.fault = .none := by
  rw [ok_leaves.mp h, startEncoding_eq]
  rfl

/-- DEC_START clears the fault (60_exceptions.md R249). -/
theorem decStart_fault {d d' : Dec} (h : (decCommand .start d).Leaves d') : d'.fault = .none := by
  rw [ok_leaves.mp h, startDecoding_eq]
  rfl

/-- Where the token of a command waits first, it is START on port `v` exactly if the command is START and its port `v`. -/
theorem head_eq_startToken {s : State} {u v : UnitId} {c : Command} {rest : List Input}
    (h : s.input = .token u (tokenOf c) :: rest) : s.input.head? = some (startToken v) ↔ u = v ∧ c = .start := by
  rw [← tokenOf_eq_start]
  simp [h, startToken, tokenOf]

/-- Settles O55: by the input taken; of the commands of a faulted unit only START goes on, which clears the fault. -/
theorem aFaultLastsUntilStartOrReset : Obligations.AFaultLastsUntilStartOrReset := by
  intro s t h
  rcases step_next_inputs h with ⟨hin, rfl⟩ | ⟨rest, hin, rfl⟩ | ⟨u, c, rest, hin, hrun⟩
  · simp [hin]
  · simp [hin, Enc.reset, Dec.reset]
  · have hrst : s.input.head? ≠ some .rst := by simp [hin]
    simp only [ne_eq, head_eq_startToken hin]
    cases u with
    | enc =>
      obtain ⟨e, he, rfl⟩ := onEnc_next.mp hrun
      refine ⟨fun hf hne _ => absurd ⟨rfl, eq_start_of_enc_faulted he hf⟩ hne, fun _ _ _ => rfl, ?_,
        by simp [hrst]⟩
      rintro (⟨-, rfl⟩ | h)
      · exact encStart_fault he
      · exact absurd h hrst
    | dec =>
      obtain ⟨d, hd, rfl⟩ := onDec_next.mp hrun
      refine ⟨fun _ _ _ => rfl, fun hf hne _ => absurd ⟨rfl, eq_start_of_dec_faulted hd hf⟩ hne,
        by simp [hrst], ?_⟩
      rintro (⟨-, rfl⟩ | h)
      · exact decStart_fault hd
      · exact absurd h hrst

end Sys2Proof
end
